-- ==== Sys2Proof/Word.lean ====
section
/-! DEFINITION. The words of the block: the operation word (30_encoding.md R70), the response word (R83) and the 32-bit operand. -/

namespace Sys2Proof

/-- The 96-bit operation word `op[95:0]` (30_encoding.md R70). -/
abbrev OpWord := BitVec 96

/-- The 64-bit response word `resp[63:0]` (30_encoding.md R83). -/
abbrev RespWord := BitVec 64

/-- A 32-bit operand or register. -/
abbrev Word := BitVec 32

end Sys2Proof
end

