-- ==== Sys2Proof/Syntax.lean ====
section
/-! DEFINITION. The agents, the six envelope stages, and the 24 operations: one constructor of `Instr` per row of
spec/opcode_table.json, its operands in the table's order and at the widths of 30_encoding.md R72. -/

namespace Sys2Proof

/-- Who acts in one step (10_state.md R11): the agents of the three clock domains, each at its own port, and the
three synchronisers, which have no port. -/
inductive Agent
  | ctl
  | smp
  | bus
  | syncw
  | syncr
  | syncu
  deriving DecidableEq, Repr

/-- The six stages of the envelope (10_state.md R18). -/
inductive Stage
  | delay
  | attack
  | hold
  | decay
  | sustain
  | release
  deriving DecidableEq, Repr

/-- The operation set `PAW1-OPS-1` (00_scope.md R2, 30_encoding.md R72). -/
inductive Instr
  | nop
  | csrRd (addr : BitVec 16)
  | csrWr (addr : BitVec 16) (data : Word)
  | msTick
  | debUpd (lane : BitVec 5) (raw : Bool)
  | btnUpd (b : BitVec 4) (raw : Bool)
  | keyScan (raw16 : BitVec 16)
  | maskDiff (old new : BitVec 16)
  | qeiTick (e : BitVec 3) (count : BitVec 16)
  | qdecSmp (q : BitVec 3) (clk dt : Bool)
  | qdecTick (q : BitVec 3)
  | envCurve (x bend : Word)
  | envShape (stage : BitVec 3) (x : Word)
  | envEdur (stage : BitVec 3) (offset vel : Word)
  | envEamp (stage : BitVec 3) (offset vel : Word)
  | envEbend (stage : BitVec 3) (offset vel : Word)
  | synNoteon (note : BitVec 7)
  | synNoteoff (note : BitVec 7)
  | synTick
  | ringPush (l r : Word)
  | ringDrain (h : Bool)
  | ringSyncw (adv : Word)
  | ringSyncr (adv : Word)
  | ringSyncu
  deriving DecidableEq, Repr

end Sys2Proof
end

