-- ==== Sys2Proof/Decode.lean ====
section
/-! DEFINITION. The decoder of operation words (30_encoding.md R70 to R75), total on every 96-bit word and rejecting by
name, and after it the encoder, written from the same table. -/

namespace Sys2Proof

/-- `opcode = op[95:88]` (30_encoding.md R70). -/
def opcodeField (w : OpWord) : BitVec 8 := w.extractLsb' 88 8

/-- `idx = op[87:80]`. -/
def idxField (w : OpWord) : BitVec 8 := w.extractLsb' 80 8

/-- `imm = op[79:64]`. -/
def immField (w : OpWord) : BitVec 16 := w.extractLsb' 64 16

/-- `A = op[63:32]`. -/
def aField (w : OpWord) : Word := w.extractLsb' 32 32

/-- `B = op[31:0]`. -/
def bField (w : OpWord) : Word := w.extractLsb' 0 32

/-- Why a word is no encoding of an operation (30_encoding.md R75): its opcode is not in R72, or a field the operation
does not use, or a bit of a used field above the stated width, is not zero. -/
inductive DecodeError
  | unassignedOpcode (opcode : BitVec 8)
  | idxNotZero
  | immNotZero
  | aNotZero
  | bNotZero
  deriving DecidableEq, Repr

/-- The operation `i`, provided the must-be-zero part of each field is zero: `idxHi`, `immHi`, `aHi`, `bHi` are the
fields shifted right by the width the operation uses of them (30_encoding.md R72, R75). -/
def legalWord (idxHi : BitVec 8) (immHi : BitVec 16) (aHi bHi : Word) (i : Instr) : Except DecodeError Instr :=
  if idxHi ≠ 0 then .error .idxNotZero
  else if immHi ≠ 0 then .error .immNotZero
  else if aHi ≠ 0 then .error .aNotZero
  else if bHi ≠ 0 then .error .bNotZero
  else .ok i

/-- The operation a word encodes (30_encoding.md R72, R73). The range checks of R76 are not made here: they are
`Instr.wellFormed`, and the operations answer them. -/
def decode (w : OpWord) : Except DecodeError Instr :=
  let idx := idxField w
  let imm := immField w
  let a := aField w
  let b := bField w
  match (opcodeField w).toNat with
  | 0x00 => legalWord idx imm a b .nop
  | 0x01 => legalWord idx 0 a b (.csrRd imm)
  | 0x02 => legalWord idx 0 a 0 (.csrWr imm b)
  | 0x03 => legalWord idx imm a b .msTick
  | 0x10 => legalWord (idx >>> 5) imm a (b >>> 1) (.debUpd (idx.setWidth 5) (b.getLsbD 0))
  | 0x11 => legalWord (idx >>> 4) imm a (b >>> 1) (.btnUpd (idx.setWidth 4) (b.getLsbD 0))
  | 0x12 => legalWord idx 0 a b (.keyScan imm)
  | 0x13 => legalWord idx imm (a >>> 16) (b >>> 16) (.maskDiff (a.setWidth 16) (b.setWidth 16))
  | 0x20 => legalWord (idx >>> 3) 0 a b (.qeiTick (idx.setWidth 3) imm)
  | 0x21 => legalWord (idx >>> 3) imm a (b >>> 2) (.qdecSmp (idx.setWidth 3) (b.getLsbD 1) (b.getLsbD 0))
  | 0x22 => legalWord (idx >>> 3) imm a b (.qdecTick (idx.setWidth 3))
  | 0x30 => legalWord idx imm 0 0 (.envCurve a b)
  | 0x31 => legalWord (idx >>> 3) imm 0 b (.envShape (idx.setWidth 3) a)
  | 0x32 => legalWord (idx >>> 3) imm 0 0 (.envEdur (idx.setWidth 3) a b)
  | 0x33 => legalWord (idx >>> 3) imm 0 0 (.envEamp (idx.setWidth 3) a b)
  | 0x34 => legalWord (idx >>> 3) imm 0 0 (.envEbend (idx.setWidth 3) a b)
  | 0x40 => legalWord (idx >>> 7) imm a b (.synNoteon (idx.setWidth 7))
  | 0x41 => legalWord (idx >>> 7) imm a b (.synNoteoff (idx.setWidth 7))
  | 0x42 => legalWord idx imm a b .synTick
  | 0x50 => legalWord idx imm 0 0 (.ringPush a b)
  | 0x51 => legalWord (idx >>> 1) imm a b (.ringDrain (idx.getLsbD 0))
  | 0x58 => legalWord idx imm a 0 (.ringSyncw b)
  | 0x59 => legalWord idx imm a 0 (.ringSyncr b)
  | 0x5A => legalWord idx imm a b .ringSyncu
  | _ => .error (.unassignedOpcode (opcodeField w))

/-- The operation word with the given fields (30_encoding.md R70). -/
def opWord (opcode idx : BitVec 8) (imm : BitVec 16) (a b : Word) : OpWord := opcode ++ idx ++ imm ++ a ++ b

/-- A one-bit operand in the low bit of a field. -/
def bitIn (n : Nat) (x : Bool) : BitVec n := (BitVec.ofBool x).setWidth n

/-- The opcode of an operation (30_encoding.md R72). -/
def Instr.opcode : Instr → BitVec 8
  | .nop => 0x00
  | .csrRd _ => 0x01
  | .csrWr _ _ => 0x02
  | .msTick => 0x03
  | .debUpd _ _ => 0x10
  | .btnUpd _ _ => 0x11
  | .keyScan _ => 0x12
  | .maskDiff _ _ => 0x13
  | .qeiTick _ _ => 0x20
  | .qdecSmp _ _ _ => 0x21
  | .qdecTick _ => 0x22
  | .envCurve _ _ => 0x30
  | .envShape _ _ => 0x31
  | .envEdur _ _ _ => 0x32
  | .envEamp _ _ _ => 0x33
  | .envEbend _ _ _ => 0x34
  | .synNoteon _ => 0x40
  | .synNoteoff _ => 0x41
  | .synTick => 0x42
  | .ringPush _ _ => 0x50
  | .ringDrain _ => 0x51
  | .ringSyncw _ => 0x58
  | .ringSyncr _ => 0x59
  | .ringSyncu => 0x5A

/-- The word of an operation: its operands in the fields of 30_encoding.md R72, every other bit zero (R75). -/
def encode (i : Instr) : OpWord :=
  match i with
  | .nop => opWord i.opcode 0 0 0 0
  | .csrRd addr => opWord i.opcode 0 addr 0 0
  | .csrWr addr data => opWord i.opcode 0 addr 0 data
  | .msTick => opWord i.opcode 0 0 0 0
  | .debUpd lane raw => opWord i.opcode (lane.setWidth 8) 0 0 (bitIn 32 raw)
  | .btnUpd b raw => opWord i.opcode (b.setWidth 8) 0 0 (bitIn 32 raw)
  | .keyScan raw16 => opWord i.opcode 0 raw16 0 0
  | .maskDiff old new => opWord i.opcode 0 0 (old.setWidth 32) (new.setWidth 32)
  | .qeiTick e count => opWord i.opcode (e.setWidth 8) count 0 0
  | .qdecSmp q clk dt => opWord i.opcode (q.setWidth 8) 0 0 ((BitVec.ofBool clk ++ BitVec.ofBool dt).setWidth 32)
  | .qdecTick q => opWord i.opcode (q.setWidth 8) 0 0 0
  | .envCurve x bend => opWord i.opcode 0 0 x bend
  | .envShape stage x => opWord i.opcode (stage.setWidth 8) 0 x 0
  | .envEdur stage offset vel => opWord i.opcode (stage.setWidth 8) 0 offset vel
  | .envEamp stage offset vel => opWord i.opcode (stage.setWidth 8) 0 offset vel
  | .envEbend stage offset vel => opWord i.opcode (stage.setWidth 8) 0 offset vel
  | .synNoteon note => opWord i.opcode (note.setWidth 8) 0 0 0
  | .synNoteoff note => opWord i.opcode (note.setWidth 8) 0 0 0
  | .synTick => opWord i.opcode 0 0 0 0
  | .ringPush l r => opWord i.opcode 0 0 l r
  | .ringDrain h => opWord i.opcode (bitIn 8 h) 0 0 0
  | .ringSyncw adv => opWord i.opcode 0 0 0 adv
  | .ringSyncr adv => opWord i.opcode 0 0 0 adv
  | .ringSyncu => opWord i.opcode 0 0 0 0

/-- The agent an operation belongs to (30_encoding.md R71, R72). -/
def Instr.agent : Instr → Agent
  | .nop => .ctl
  | .csrRd _ => .ctl
  | .csrWr _ _ => .ctl
  | .msTick => .ctl
  | .debUpd _ _ => .ctl
  | .btnUpd _ _ => .ctl
  | .keyScan _ => .ctl
  | .maskDiff _ _ => .ctl
  | .qeiTick _ _ => .ctl
  | .qdecSmp _ _ _ => .ctl
  | .qdecTick _ => .ctl
  | .envCurve _ _ => .ctl
  | .envShape _ _ => .ctl
  | .envEdur _ _ _ => .ctl
  | .envEamp _ _ _ => .ctl
  | .envEbend _ _ _ => .ctl
  | .synNoteon _ => .smp
  | .synNoteoff _ => .smp
  | .synTick => .smp
  | .ringPush _ _ => .smp
  | .ringDrain _ => .bus
  | .ringSyncw _ => .syncw
  | .ringSyncr _ => .syncr
  | .ringSyncu => .syncu

/-- The agent that presents a word in a trace: the one whose operation the opcode names (30_encoding.md R71); CTL for
an opcode no agent has, on which port the word is answered ILLEGAL. -/
def homeAgent (w : OpWord) : Agent :=
  match (opcodeField w).toNat with
  | 0x40 => .smp
  | 0x41 => .smp
  | 0x42 => .smp
  | 0x50 => .smp
  | 0x51 => .bus
  | 0x58 => .syncw
  | 0x59 => .syncr
  | 0x5A => .syncu
  | _ => .ctl

/-- The low `nbits` bits of `w` as an operation word, every bit above them zero. -/
def tableWord (nbits w : Nat) : OpWord := BitVec.ofNat 96 (w % 2 ^ nbits)

/-- The instruction this decoder reads from a word numbered as spec/opcode_table.json numbers it: one 96-bit word,
bit 0 its least significant bit (log 9); none for bits that do not fit the one length of R70. -/
def decodeTableWord (nbits w : Nat) : Option Instr :=
  if w % 2 ^ nbits < 2 ^ 96 then (decode (tableWord nbits w)).toOption else none

end Sys2Proof
end

