-- ==== Sys2Proof/Config.lean ====
section
/-! DEFINITION. The build parameters of the block (00_scope.md R5) and the values no rule of the spec fixes. -/

namespace Sys2Proof

/-- The parameters of 00_scope.md R5, fixed when the block is built. A machine carries its configuration
in its state, where no step changes it, so that every statement can be made for every configuration (log 1).
`RING_N` is a power of two by R5 and R202 and is given by its exponent. The four parameters the spec gives no
value for are `none` where a build does not name them; `none` stands for a free value (log 5). -/
structure Config where
  /-- `DEB_K[lane]`: the confirmation depth of each debounce lane. -/
  debK : Vector Nat 32
  /-- `DEB_INIT[lane]`: the level of each lane after reset. -/
  debInit : Vector Bool 32
  /-- `NUM_BTN`. -/
  numBtn : Nat
  /-- `NUM_QEI`. -/
  numQei : Nat
  /-- `NUM_QDEC`. -/
  numQdec : Nat
  /-- `NUM_VOICES`. -/
  numVoices : Nat
  /-- `VOICE_GAIN_Q16`. -/
  voiceGainQ16 : Nat
  /-- `log2(RING_N)`. -/
  ringLog : Nat
  /-- `HALF_FRAMES`. -/
  halfFrames : Nat
  /-- `VELOCITY_DEC_FREQUENCY`, where the build names one. -/
  velocityDecFrequencySet : Option Nat
  /-- `UPDATE_FREQUENCY`, where the build names one. -/
  updateFrequencySet : Option Nat
  /-- `VEL_INC`, where the build names one. -/
  velIncSet : Option Nat
  /-- `VEL_DEC`, where the build names one. -/
  velDecSet : Option Nat
  deriving DecidableEq, Repr

/-- FREE VALUE (log 5): one less than the `VELOCITY_DEC_FREQUENCY` of a build that names none; R5 says only that
the parameter is at least 1. -/
opaque Config.openVelocityDecFrequencyPred : Nat

/-- FREE VALUE (log 5): the `UPDATE_FREQUENCY` of a build that names none. -/
opaque Config.openUpdateFrequency : Nat

/-- FREE VALUE (log 5): the `VEL_INC` of a build that names none, in R5's range 0..65536. -/
opaque Config.openVelInc : Fin 65537

/-- FREE VALUE (log 5): the `VEL_DEC` of a build that names none, in R5's range 0..65536. -/
opaque Config.openVelDec : Fin 65537

/-- FREE VALUE (log 4): the sample that the oscillator of voice `voice` answers at the `draw`-th SYN.TICK for which
the outside has supplied no samples, `draw(int16)` of 43_synth.md R182. -/
opaque Config.oscSample (draw voice : Nat) : BitVec 16

/-- `RING_N`, the ring's capacity in frames. -/
def Config.ringN (c : Config) : Nat := 2 ^ c.ringLog

/-- `W = log2(RING_N) + 1`, the width of the ring pointers (10_state.md R12). -/
def Config.ptrWidth (c : Config) : Nat := c.ringLog + 1

/-- `VELOCITY_DEC_FREQUENCY`. -/
def Config.velocityDecFrequency (c : Config) : Nat :=
  c.velocityDecFrequencySet.getD (Config.openVelocityDecFrequencyPred + 1)

/-- `UPDATE_FREQUENCY`. -/
def Config.updateFrequency (c : Config) : Nat := c.updateFrequencySet.getD Config.openUpdateFrequency

/-- `VEL_INC`. -/
def Config.velInc (c : Config) : Nat := c.velIncSet.getD Config.openVelInc.val

/-- `VEL_DEC`. -/
def Config.velDec (c : Config) : Nat := c.velDecSet.getD Config.openVelDec.val

/-- The legal ranges of 00_scope.md R5. -/
structure Config.Legal (c : Config) : Prop where
  debK : ∀ lane : Fin 32, 2 ≤ c.debK[lane] ∧ c.debK[lane] ≤ 4
  numBtn : c.numBtn ≤ 16
  numQei : c.numQei ≤ 8
  numQdec : c.numQdec ≤ 8
  numVoices : 1 ≤ c.numVoices ∧ c.numVoices ≤ 16
  voiceGainQ16 : c.voiceGainQ16 ≤ 65535
  ringLog : 1 ≤ c.ringLog ∧ c.ringLog ≤ 15
  halfFrames : 1 ≤ c.halfFrames ∧ c.halfFrames ≤ 65535
  velocityDecFrequency : 1 ≤ c.velocityDecFrequency
  velInc : c.velInc ≤ 65536
  velDec : c.velDec ≤ 65536

/-- The reference configuration of 00_scope.md R5 and R6; the four parameters without a reference value are left
to the free values. -/
def Config.reference : Config where
  debK := Vector.replicate 16 3 ++ Vector.replicate 16 4
  debInit := Vector.replicate 32 false
  numBtn := 1
  numQei := 1
  numQdec := 2
  numVoices := 16
  voiceGainQ16 := 16384
  ringLog := 10
  halfFrames := 256
  velocityDecFrequencySet := none
  updateFrequencySet := none
  velIncSet := none
  velDecSet := none

/-- `DUR_TABLE` of 00_scope.md R5. -/
def durTable : List Nat := [5, 10, 25, 250]

/-- `DUR_MAX` of 00_scope.md R5, in milliseconds. -/
def durMax : Nat := 10000

end Sys2Proof
end

