-- ==== Sys2Proof/Machine/CsrMap.lean ====
section
/-! DEFINITION. The control-register map (10_state.md R25), the stage numbers (R18) and the instance numbers an
operation word can carry. -/

namespace Sys2Proof.Machine

/-- The nine envelope registers in the order of their addresses 0x0040 to 0x0048 (10_state.md R33). -/
inductive EnvReg
  | delayDur
  | attackDur
  | attackBend
  | holdDur
  | decayDur
  | decayBend
  | sustainAmp
  | releaseDur
  | releaseBend
  deriving DecidableEq, Repr

/-- The control registers of 10_state.md R25. -/
inductive Csr
  | id
  | msCount
  | underrun
  | keyMask
  | btnCfg (b : Fin 16)
  | qeiCfg (e : Fin 8)
  | qeiPrev (e : Fin 8)
  | qdecCfg (q : Fin 8)
  | qdecVel (q : Fin 8)
  | env (r : EnvReg)
  deriving DecidableEq, Repr

/-- The envelope register at offset `n` from address 0x0040. -/
def envRegAt : Nat → Option EnvReg
  | 0 => some .delayDur
  | 1 => some .attackDur
  | 2 => some .attackBend
  | 3 => some .holdDur
  | 4 => some .decayDur
  | 5 => some .decayBend
  | 6 => some .sustainAmp
  | 7 => some .releaseDur
  | 8 => some .releaseBend
  | _ => none

/-- Element `i` of an array register of which only the first `count` elements exist (10_state.md R25: "An array
register whose index is at or above its `NUM_*` parameter is reserved in the same way"). -/
def arrayReg {n : Nat} (count i : Nat) (mk : Fin n → Csr) : Option Csr :=
  if h : i < n then (if i < count then some (mk ⟨i, h⟩) else none) else none

/-- The register at an address; `none` for a reserved address (10_state.md R25). -/
def csrAt (c : Config) (addr : BitVec 16) : Option Csr :=
  let a := addr.toNat
  if a = 0x0000 then some .id
  else if a = 0x0001 then some .msCount
  else if a = 0x0002 then some .underrun
  else if a = 0x0003 then some .keyMask
  else if a < 0x0010 then none
  else if a < 0x0020 then arrayReg c.numBtn (a - 0x0010) .btnCfg
  else if a < 0x0028 then arrayReg c.numQei (a - 0x0020) .qeiCfg
  else if a < 0x0030 then arrayReg c.numQei (a - 0x0028) .qeiPrev
  else if a < 0x0038 then arrayReg c.numQdec (a - 0x0030) .qdecCfg
  else if a < 0x0040 then arrayReg c.numQdec (a - 0x0038) .qdecVel
  else (envRegAt (a - 0x0040)).map .env

/-- The RO rows of the table of 10_state.md R25. -/
def Csr.readOnly : Csr → Bool
  | .id => true
  | .msCount => true
  | .underrun => true
  | .keyMask => true
  | .btnCfg _ => false
  | .qeiCfg _ => false
  | .qeiPrev _ => false
  | .qdecCfg _ => false
  | .qdecVel _ => true
  | .env _ => false

/-- The stage a 3-bit stage number names; 6 and 7 are reserved (10_state.md R18). -/
def stageOf (n : BitVec 3) : Option Stage :=
  match n.toNat with
  | 0 => some .delay
  | 1 => some .attack
  | 2 => some .hold
  | 3 => some .decay
  | 4 => some .sustain
  | 5 => some .release
  | _ => none

/-- The decoder a 3-bit index names. -/
def decoderIdx (e : BitVec 3) : Fin 8 := ⟨e.toNat, e.isLt⟩

/-- The button a 4-bit index names. -/
def buttonIdx (b : BitVec 4) : Fin 16 := ⟨b.toNat, b.isLt⟩

/-- The debounce lane a 5-bit index names (10_state.md R13). -/
def laneIdx (lane : BitVec 5) : Fin 32 := ⟨lane.toNat, lane.isLt⟩

/-- The lane that serves button `b`: lane `16 + b` (10_state.md R13). -/
def buttonLane (b : BitVec 4) : Fin 32 := ⟨16 + b.toNat, by have := b.isLt; omega⟩

end Sys2Proof.Machine
end

