-- ==== Sys2Proof/Machine/Arith.lean ====
section
/-! DEFINITION. The arithmetic primitives of the pseudocode (00_scope.md R8, R9) and the gray code (R8, 44_ring.md R202). -/

namespace Sys2Proof.Machine

/-- `wrap_N(v) = v mod 2^N`, an unsigned N-bit value (00_scope.md R8). -/
def wrap (n : Nat) (v : Int) : Nat := (v % (2 ^ n : Nat)).toNat

/-- `wrap_32(v)` as a register value. -/
def wrap32 (v : Int) : Word := BitVec.ofInt 32 v

/-- `clamp(v, lo, hi)` (00_scope.md R8). -/
def clamp (v lo hi : Int) : Int := min (max v lo) hi

/-- `sat_s32(v)` (00_scope.md R8). -/
def satS32 (v : Int) : Int := min (max v (-2147483648)) 2147483647

/-- `sgn(v)` (00_scope.md R8). -/
def sgn (v : Int) : Int := if v < 0 then -1 else if v = 0 then 0 else 1

/-- `tdiv2(v)`: division by two that truncates toward zero (00_scope.md R8). -/
def tdiv2 (v : Int) : Int := sgn v * ((v.natAbs >>> 1 : Nat) : Int)

/-- `round_q16(n)`: round to nearest, ties away from zero (00_scope.md R9). -/
def roundQ16 (n : Int) : Int := sgn n * (((n.natAbs + 32768) >>> 16 : Nat) : Int)

/-- `gray_W(b) = b ^ (b >> 1)` (00_scope.md R8). -/
def gray (b : Nat) : Nat := b ^^^ (b >>> 1)

/-- `ungray_W(g)`: the W-bit `b` with `b[i] = g[W-1] ^ ... ^ g[i]` (00_scope.md R8), read from the top: the bits above
bit 0 are `ungray_(W-1)` of the bits above bit 0, and `b[0] = b[1] ^ g[0]`. -/
def ungray : Nat → Nat → Nat
  | 0, _ => 0
  | w + 1, g =>
    let high := ungray w (g >>> 1)
    2 * high + ((high % 2) ^^^ (g % 2))

/-- The `n`-bit value whose bit `i` is `f i`, `{f (n-1), ..., f 0}` (00_scope.md R7). -/
def maskBits (f : Nat → Bool) : (n : Nat) → BitVec n
  | 0 => 0#0
  | n + 1 => BitVec.cons (f n) (maskBits f n)

end Sys2Proof.Machine
end

