-- ==== Sys2Proof/Machine/State.lean ====
section
/-! DEFINITION. The state of the block (10_state.md sections 3 and 4), the inputs it has yet to take and the outputs of
its last step, and the machine after reset (R36). -/

namespace Sys2Proof.Machine

/-- One debounce lane (10_state.md R13): `sr`, the last `DEB_K[lane]` samples with the newest at bit 0, read as an
unsigned number, and the confirmed level `conf`. -/
structure Lane where
  sr : Nat
  conf : Bool
  deriving DecidableEq, Repr

/-- One counter-difference decoder: `QEI_CFG[e].INV` (10_state.md R31) and `qei_prev[e]` (R15). -/
structure Qei where
  inv : Bool
  prev : BitVec 16
  deriving DecidableEq, Repr

/-- One quadrature decoder: `QDEC_CFG[q].INV` and `.ACC` (10_state.md R32), then the six elements of R16:
`q_init`, `q_prev` as `{clk, dt}`, `q_acc`, `q_vel`, `q_tdec`, `q_temit`. -/
structure Qdec where
  inv : Bool
  acc : Bool
  init : Bool
  prev : BitVec 2
  count : Word
  vel : BitVec 17
  tdec : Word
  temit : Word
  deriving DecidableEq, Repr

/-- The nine envelope registers (10_state.md R18). -/
structure Env where
  delayDur : BitVec 14
  attackDur : BitVec 14
  attackBend : BitVec 18
  holdDur : BitVec 14
  decayDur : BitVec 14
  decayBend : BitVec 18
  sustainAmp : BitVec 17
  releaseDur : BitVec 14
  releaseBend : BitVec 18
  deriving DecidableEq, Repr

/-- A voice slot (10_state.md R19). An idle slot's note field has no value (R36). -/
inductive Voice
  | idle
  | sounding (note : BitVec 7)
  deriving DecidableEq, Repr

/-- One stereo frame of the ring (10_state.md R20). -/
structure Frame where
  l : Word
  r : Word
  deriving DecidableEq, Repr

/-- An event the block sends to the oscillator port (43_synth.md R182). -/
inductive OscEvent
  | set (v : Nat) (note : BitVec 7)
  | pull (v : Nat)
  deriving DecidableEq, Repr

/-- What the block put on its output ports in one step: the response word with the port it was given at
(30_encoding.md R83; none for a synchroniser step) and the oscillator events in the order sent (log 3). -/
structure Outputs where
  resp : Option (Agent × RespWord)
  osc : List OscEvent
  deriving DecidableEq, Repr

/-- What reaches the block from outside or is taken by it: an operation word with the agent whose step it is, or the
reset strobe `rst` (70_reset_and_hazards.md R270). -/
inductive Input
  | request (agent : Agent) (word : OpWord)
  | rst
  deriving DecidableEq, Repr

/-- A sparse memory: (index, content) pairs, indices strictly rising; an index that is not listed has no value. At
content `BitVec 8` it is a list of `Host.Cell`. -/
abbrev Memory (α : Type) := List (Nat × α)

/-- The state of the block. The first four groups are the spec's; the last is the model's own (INVENTORY.md). -/
structure State where
  /-- The build parameters (00_scope.md R5), which no step changes (log 1). -/
  cfg : Config
  /-- The DEB bank (10_state.md R13). -/
  lanes : Vector Lane 32
  /-- `key_mask` (R14). -/
  keyMask : BitVec 16
  /-- `BTN_CFG[b].PULL` (R30): false = PullUp, true = PullDown. -/
  btnPull : Vector Bool 16
  /-- The QEI decoders (R15, R31). -/
  qei : Vector Qei 8
  /-- The QDEC decoders (R16, R32). -/
  qdec : Vector Qdec 8
  /-- `ms_count` (R17). -/
  msCount : Word
  /-- The envelope registers (R18). -/
  env : Env
  /-- The voice slots (R19), of which the first `NUM_VOICES` exist. -/
  voices : Vector Voice 16
  /-- `ring` (R20): the frame slots that hold a value. -/
  ring : List (Nat × Frame)
  /-- `wptr` (R20), W bits. -/
  wptr : Nat
  /-- `rptr` (R20), W bits. -/
  rptr : Nat
  /-- `wg_sync` (R21), W bits, gray coded. -/
  wgSync : Nat
  /-- `rg_sync` (R21), W bits, gray coded. -/
  rgSync : Nat
  /-- `underrun` (R22). -/
  underrun : Word
  /-- `ur_shadow` (R22). -/
  urShadow : Word
  /-- `hwbuf[0]` (R23) as bytes at the offsets of 20_memory.md R44; an unlisted byte has no value. -/
  hwbuf0 : List Host.Cell
  /-- `hwbuf[1]`, likewise. -/
  hwbuf1 : List Host.Cell
  /-- MODEL: the inputs still to be served, oldest first (log 2). -/
  pending : List Input
  /-- MODEL: the oscillator samples supplied for the coming SYN.TICKs, one vector per tick (log 4). -/
  oscIn : List (Vector (BitVec 16) 16)
  /-- MODEL: how many SYN.TICKs have drawn samples (log 4). -/
  oscDraws : Nat
  /-- MODEL: the outputs of the last step (log 3). -/
  out : Outputs
  deriving DecidableEq, Repr

/-- Why the machine stops. -/
inductive Fault
  /-- RING.DRAIN read a ring slot that holds no value. Raised by RING.DRAIN only, because 10_state.md R36 and
  93_implementation_defined.md P11 make such a read a fault of the model. SAFE: no run from reset reaches it (R37 d),
  and a stop proves nothing of the hardware. -/
  | ringSlotUnwritten (slot : Nat)
  deriving DecidableEq, Repr

/-- Why an operation has no meaning. -/
inductive Refusal
  /-- Raised by an arm of `exec` for an instruction that has no meaning yet; no arm raises it now. SAFE: it only stops. -/
  | notModelled (mnemonic : String)
  deriving DecidableEq, Repr

/-- The lane after reset: every bit of `sr`, and `conf`, at `DEB_INIT[lane]` (10_state.md R36). -/
def laneAtReset (k : Nat) (level : Bool) : Lane := ⟨if level then 2 ^ k - 1 else 0, level⟩

/-- `key_mask` after reset: bit i = `DEB_INIT[i]` (10_state.md R36). -/
def keyMaskAtReset (c : Config) : BitVec 16 := maskBits (fun i => c.debInit.getD i false) 16

/-- The block after reset with a given configuration (10_state.md R36): nothing waits at the ports, no samples are
supplied, nothing is put out. -/
def State.resetWith (c : Config) : State where
  cfg := c
  lanes := Vector.ofFn fun i => laneAtReset c.debK[i] c.debInit[i]
  keyMask := keyMaskAtReset c
  btnPull := Vector.replicate 16 false
  qei := Vector.replicate 8 ⟨false, 0⟩
  qdec := Vector.replicate 8 ⟨false, false, false, 0, 0, 0, 0, 0⟩
  msCount := 0
  env := ⟨0, 0, 0, 0, 0, 0, 0, 0, 0⟩
  voices := Vector.replicate 16 .idle
  ring := []
  wptr := 0
  rptr := 0
  wgSync := 0
  rgSync := 0
  underrun := 0
  urShadow := 0
  hwbuf0 := []
  hwbuf1 := []
  pending := []
  oscIn := []
  oscDraws := 0
  out := ⟨none, []⟩

/-- The block after reset, in the reference configuration of 00_scope.md R5 and R6. -/
def State.reset : State := State.resetWith Config.reference

end Sys2Proof.Machine
end

