-- ==== Sys2Proof/Machine/Flags.lean ====
section
/-! DEFINITION. The block has no flags (10_state.md R24): every outcome is the status field of a response. This file holds
the status codes (30_encoding.md R84), the result codes (R85) and the response word (R83). -/

namespace Sys2Proof.Machine

/-- The statuses of 30_encoding.md R84. -/
inductive Status
  | none
  | event
  | voiceDropped
  | noMatch
  | ringFull
  | underrun
  | quadInvalid
  | illegal
  deriving DecidableEq, Repr

/-- The status values of 30_encoding.md R84. -/
def Status.code : Status → BitVec 8
  | .none => 0x00
  | .event => 0x01
  | .voiceDropped => 0x10
  | .noMatch => 0x11
  | .ringFull => 0x12
  | .underrun => 0x13
  | .quadInvalid => 0x14
  | .illegal => 0x7F

/-- The response word `status[63:56] aux[55:32] value[31:0]` (30_encoding.md R83). -/
def respWord (st : Status) (aux : BitVec 24) (value : Word) : RespWord := st.code ++ aux ++ value

/-- The `status` field of a response word. -/
def statusField (w : RespWord) : BitVec 8 := w.extractLsb' 56 8

/-- The `aux` field of a response word. -/
def auxField (w : RespWord) : BitVec 24 := w.extractLsb' 32 24

/-- The `value` field of a response word. -/
def valueField (w : RespWord) : Word := w.extractLsb' 0 32

/-- A debounced edge (40_debounce.md R100). -/
inductive Edge
  | rising
  | falling
  deriving DecidableEq, Repr

/-- Edge codes in `aux`: 1 = Rising, 2 = Falling (30_encoding.md R85). -/
def Edge.code : Edge → BitVec 24
  | .rising => 1
  | .falling => 2

/-- `button_code(pull, edge)` (40_debounce.md R105), with the button codes 1 = Up, 2 = Down of 30_encoding.md R85;
`pull` is `BTN_CFG[b].PULL`. -/
def buttonCode (pull : Bool) : Edge → BitVec 24
  | .falling => if pull then 1 else 2
  | .rising => if pull then 2 else 1

/-- Quadrature transition codes in `aux`: 1 = clockwise, 2 = counterclockwise (30_encoding.md R85). -/
def turnCode (cw : Bool) : BitVec 24 := if cw then 1 else 2

end Sys2Proof.Machine
end

