-- ==== Sys2Proof/Machine/Operands.lean ====
section
/-! DEFINITION. Operand assembly and the clamping of operands (30_encoding.md R73, R74). -/

namespace Sys2Proof.Machine

/-- A curve operand: `clamp(sext_32(field), -65536, 65536)` (30_encoding.md R74). -/
def unitOperand (field : Word) : Int := clamp field.toInt (-65536) 65536

/-- A velocity operand: `min(zext_32(field), 65536)` (30_encoding.md R74, 42_envelope.md R156). -/
def velOperand (field : Word) : Nat := min field.toNat 65536

/-- An encoder offset, `sext_32` of the field at its full range (30_encoding.md R74). -/
def offsetOperand (field : Word) : Int := field.toInt

/-- An advance count of a synchroniser step, unsigned (30_encoding.md R73). -/
def advOperand (field : Word) : Nat := field.toNat

/-- `direction_factor`: -1 where `INV` is set, else +1 (10_state.md R31). -/
def direction (inv : Bool) : Int := if inv then -1 else 1

end Sys2Proof.Machine
end

