-- ==== Sys2Proof/Machine/Store.lean ====
section
/-! DEFINITION. The one form in which memories are held: (index, content) pairs with strictly rising indices, an unlisted
index having no value. -/

namespace Sys2Proof.Machine

/-- The content at an index; `none` where nothing has been written (10_state.md R36, 20_memory.md R45). -/
def Memory.read {α : Type} : Memory α → Nat → Option α
  | [], _ => none
  | (i, x) :: m, a => if a = i then some x else Memory.read m a

/-- Store a content at an index, keeping the canonical form. -/
def Memory.write {α : Type} : Memory α → Nat → α → Memory α
  | [], a, y => [(a, y)]
  | (i, x) :: m, a, y =>
    if a < i then (a, y) :: (i, x) :: m
    else if a = i then (a, y) :: m
    else (i, x) :: Memory.write m a y

/-- Every index of the memory is above `lo`. -/
def Memory.above {α : Type} (lo : Nat) : Memory α → Bool
  | [] => true
  | (i, _) :: m => decide (lo < i) && Memory.above lo m

/-- The canonical form: indices strictly rising. An unlisted index has no value, so no entry can equal what an
unlisted index reads as. -/
def Memory.wf {α : Type} : Memory α → Bool
  | [] => true
  | (i, _) :: m => Memory.above i m && Memory.wf m

/-- Every index of the memory is below `hi`. -/
def Memory.below {α : Type} (hi : Nat) : Memory α → Bool
  | [] => true
  | (i, _) :: m => decide (i < hi) && Memory.below hi m

end Sys2Proof.Machine
end

