-- ==== Sys2Proof/Machine/Ops.lean ====
section
/-! DEFINITION. The named operations the meanings share: responding, the debounce lane, the ring memory and its pointers,
the hardware buffer, the oscillator port, and serving the next input. The block takes no exception (60_exceptions.md
R244): an abnormal outcome is a response, so `reply` is the one shared operation in its place. -/

namespace Sys2Proof.Machine

/-! ### Responding (30_encoding.md R83) -/

/-- An agent of a clock domain has a port; a synchroniser has none (30_encoding.md R71, R83). -/
def hasPort : Agent → Bool
  | .ctl => true
  | .smp => true
  | .bus => true
  | .syncw => false
  | .syncr => false
  | .syncu => false

/-- Put out a response at a port, and the oscillator events of this operation. -/
def State.respond (s : State) (a : Agent) (w : RespWord) (osc : List OscEvent) : State :=
  { s with out := ⟨some (a, w), osc⟩ }

/-- Put out nothing: the outputs of a step that has no response. -/
def State.quiet (s : State) : State := { s with out := ⟨none, []⟩ }

/-- `respond(status, aux, value)`: the operation is done (30_encoding.md R83). -/
def reply (a : Agent) (st : Status) (aux : BitVec 24) (value : Word) (s : State) :
    Host.Outcome State Fault Refusal :=
  .next (s.respond a (respWord st aux value) [])

/-- An illegal word "changes no state and responds `respond(ILLEGAL, 0, 0)`" (30_encoding.md R75). -/
def replyIllegal (a : Agent) (s : State) : Host.Outcome State Fault Refusal := reply a .illegal 0 0 s

/-! ### The debounce lane (40_debounce.md R101) -/

/-- One sample into a lane of depth `k`: the lane after it and the edge it confirms, if any. -/
def laneSample (k : Nat) (l : Lane) (raw : Bool) : Lane × Option Edge :=
  let sr := ((l.sr <<< 1) ||| raw.toNat) % 2 ^ k
  if sr = 2 ^ k - 1 ∧ l.conf = false then (⟨sr, true⟩, some .rising)
  else if sr = 0 ∧ l.conf = true then (⟨sr, false⟩, some .falling)
  else (⟨sr, l.conf⟩, none)

/-- DEB.UPD's state change on one lane of the bank. -/
def State.sampleLane (s : State) (lane : Fin 32) (raw : Bool) : State :=
  { s with lanes := s.lanes.set lane (laneSample s.cfg.debK[lane] s.lanes[lane] raw).1 }

/-- The edge DEB.UPD reports for one lane of the bank. -/
def State.laneEdge (s : State) (lane : Fin 32) (raw : Bool) : Option Edge :=
  (laneSample s.cfg.debK[lane] s.lanes[lane] raw).2

/-! ### Ring memory and pointers (20_memory.md R41, 10_state.md R20, R21) -/

/-- `w_seen = ungray_W(wg_sync)` (10_state.md R21). -/
def State.wSeen (s : State) : Nat := ungray s.cfg.ptrWidth s.wgSync

/-- `r_seen = ungray_W(rg_sync)` (10_state.md R21). -/
def State.rSeen (s : State) : Nat := ungray s.cfg.ptrWidth s.rgSync

/-- `wrap_W(p - q)`: how far pointer `p` is ahead of pointer `q`. -/
def ptrDist (c : Config) (p q : Nat) : Nat := wrap c.ptrWidth ((p : Int) - (q : Int))

/-- `wrap_W(p + n)`. -/
def ptrAdd (c : Config) (p n : Nat) : Nat := wrap c.ptrWidth ((p : Int) + (n : Int))

/-- `wrap_W(wptr - rptr)`, the true occupancy (10_state.md R20). -/
def State.occ (s : State) : Nat := ptrDist s.cfg s.wptr s.rptr

/-- `occ_seen`, the occupancy as the producer sees it (44_ring.md R201). -/
def State.occSeen (s : State) : Nat := ptrDist s.cfg s.wptr s.rSeen

/-- `avail`, the frames the consumer can see (44_ring.md R204). -/
def State.avail (s : State) : Nat := ptrDist s.cfg s.wSeen s.rptr

/-- The lag of RING.SYNCW: how far `wptr` is ahead of the consumer's copy (44_ring.md R208). -/
def State.wLag (s : State) : Nat := ptrDist s.cfg s.wptr s.wSeen

/-- The lag of RING.SYNCR: how far `rptr` is ahead of the producer's copy (44_ring.md R209). -/
def State.rLag (s : State) : Nat := ptrDist s.cfg s.rptr s.rSeen

/-- The slot a pointer value addresses, `p mod RING_N` (20_memory.md R41). -/
def slotOf (c : Config) (p : Nat) : Nat := p % c.ringN

/-- The producer sees a full ring (44_ring.md R201). -/
def State.pushFull (s : State) : Bool := decide (s.occSeen = s.cfg.ringN)

/-- The state change of RING.PUSH (44_ring.md R201): nothing on a full ring, else the slot is written and `wptr`
moves. -/
def State.push (s : State) (f : Frame) : State :=
  if s.pushFull then s
  else { s with
    ring := Memory.write s.ring (slotOf s.cfg s.wptr) f
    wptr := ptrAdd s.cfg s.wptr 1 }

/-! ### The hardware buffer (20_memory.md R43, R44) -/

/-- One half of the hardware buffer. -/
def State.half (s : State) (h : Bool) : List Host.Cell := if h then s.hwbuf1 else s.hwbuf0

/-- Replace one half of the hardware buffer. -/
def State.setHalf (s : State) (h : Bool) (m : List Host.Cell) : State :=
  if h then { s with hwbuf1 := m } else { s with hwbuf0 := m }

/-- One byte of a half of the hardware buffer, at its offset from the half's base (20_memory.md R44). -/
def State.hwByte (s : State) (h : Bool) (offset : Nat) : Option (BitVec 8) := Memory.read (s.half h) offset

/-- `HwWrite(h, w, v)` on one half: `v[7:0]` at byte offset `2w`, `v[15:8]` at `2w + 1` (20_memory.md R44). -/
def hwWrite (m : List Host.Cell) (w : Nat) (v : BitVec 16) : List Host.Cell :=
  Memory.write (Memory.write m (2 * w) (v.extractLsb' 0 8)) (2 * w + 1) (v.extractLsb' 8 8)

/-- Word `w` of a half, where both its bytes hold a value. -/
def hwRead (m : List Host.Cell) (w : Nat) : Option (BitVec 16) :=
  match Memory.read m (2 * w), Memory.read m (2 * w + 1) with
  | some lo, some hi => some (hi ++ lo)
  | _, _ => none

/-- The high half-word of a sample. -/
def highHalf (v : Word) : BitVec 16 := v.extractLsb' 16 16

/-- The low half-word of a sample. -/
def lowHalf (v : Word) : BitVec 16 := v.extractLsb' 0 16

/-- A frame into frame slot `j` of a half, words `4j .. 4j+3` (20_memory.md R43). -/
def hwWriteFrame (m : List Host.Cell) (j : Nat) (f : Frame) : List Host.Cell :=
  hwWrite (hwWrite (hwWrite (hwWrite m (4 * j) (highHalf f.l)) (4 * j + 1) (lowHalf f.l))
    (4 * j + 2) (highHalf f.r)) (4 * j + 3) (lowHalf f.r)

/-- The copy loop of RING.DRAIN for its first `n` frames (44_ring.md R204): frame slot `j` of the half takes ring slot
`(rptr + j) mod RING_N`. A slot that holds no value is a fault of the model (10_state.md R36). -/
def drainFrames (c : Config) (ring : Memory Frame) (rptr : Nat) (m : List Host.Cell) :
    Nat → Except Fault (List Host.Cell)
  | 0 => .ok m
  | j + 1 =>
    match drainFrames c ring rptr m j with
    | .error e => .error e
    | .ok m' =>
      match Memory.read ring (slotOf c (rptr + j)) with
      | none => .error (.ringSlotUnwritten (slotOf c (rptr + j)))
      | some f => .ok (hwWriteFrame m' j f)

/-! ### The oscillator port (43_synth.md R182) -/

/-- The samples the oscillators answer at this SYN.TICK: those the outside has supplied for it, else free values
(log 4). -/
def State.oscSamples (s : State) : Nat → BitVec 16 :=
  match s.oscIn with
  | d :: _ => fun v => d.getD v 0
  | [] => fun v => Config.oscSample s.oscDraws v

/-- The samples of this tick have been taken. -/
def State.oscTaken (s : State) : State := { s with oscIn := s.oscIn.tail, oscDraws := s.oscDraws + 1 }

/-! ### Serving the next input -/

/-- The reset strobe (70_reset_and_hazards.md R270): every element of the spec's state takes its reset value; what the
outside has yet to present stays, and so do the build's parameters. -/
def State.afterRst (s : State) : State :=
  { State.resetWith s.cfg with pending := s.pending, oscIn := s.oscIn, oscDraws := s.oscDraws }

/-- A request the block does not accept: an illegal word, or a word on the wrong port (30_encoding.md R71, R75). It is
answered ILLEGAL at the port it came to; a synchroniser has no port. -/
def State.rejectRequest (s : State) (a : Agent) : State :=
  if hasPort a then s.respond a (respWord .illegal 0 0) [] else s.quiet

/-- The operation an agent's word asks for: none for an illegal word and for a word on the wrong port (30_encoding.md
R71, R75). -/
def accept (a : Agent) (w : OpWord) : Option Instr :=
  match decode w with
  | .error _ => none
  | .ok i => if i.agent = a then some i else none

/-- What the next step serves. -/
inductive Service
  | idle
  | reset
  | reject (a : Agent)
  | run (i : Instr)
  deriving DecidableEq, Repr

/-- Read the oldest waiting input. -/
def State.service (s : State) : Service :=
  match s.pending with
  | [] => .idle
  | .rst :: _ => .reset
  | .request a w :: _ =>
    match accept a w with
    | none => .reject a
    | some i => .run i

/-- The oldest waiting input has been taken. -/
def State.taken (s : State) : State := { s with pending := s.pending.tail }

/-- Put an operation word at the head of the inputs, presented by the agent whose operation its opcode names. -/
def State.present (s : State) (w : OpWord) : State :=
  { s with pending := .request (homeAgent w) w :: s.pending }

end Sys2Proof.Machine
end

