-- ==== Sys2Proof/Machine/Deb.lean ====
section
/-! DEFINITION. The DEB family (40_debounce.md): DEB.UPD, BTN.UPD, KEY.SCAN, MASK.DIFF. -/

namespace Sys2Proof.Machine

/-- DEB.UPD (40_debounce.md R101). -/
def execDebUpd (lane : BitVec 5) (raw : Bool) (s : State) : Host.Outcome State Fault Refusal :=
  match s.laneEdge (laneIdx lane) raw with
  | none => reply .ctl .none 0 0 (s.sampleLane (laneIdx lane) raw)
  | some edge => reply .ctl .event edge.code 0 (s.sampleLane (laneIdx lane) raw)

/-- BTN.UPD (40_debounce.md R104): DEB.UPD on lane 16 + b, its edge named by the pull policy (R105). -/
def execBtnUpd (b : BitVec 4) (raw : Bool) (s : State) : Host.Outcome State Fault Refusal :=
  if b.toNat < s.cfg.numBtn then
    match s.laneEdge (buttonLane b) raw with
    | none => reply .ctl .none 0 0 (s.sampleLane (buttonLane b) raw)
    | some edge =>
      reply .ctl .event (buttonCode s.btnPull[buttonIdx b] edge) 0 (s.sampleLane (buttonLane b) raw)
  else replyIllegal .ctl s

/-- The bits absent in `old` and present in `new` (40_debounce.md R106). -/
def riseBits (old new : BitVec 16) : BitVec 16 := new &&& ~~~old

/-- The bits present in `old` and absent in `new` (40_debounce.md R106). -/
def fallBits (old new : BitVec 16) : BitVec 16 := old &&& ~~~new

/-- The response of MASK.DIFF (40_debounce.md R106): `aux` = the new mask, `value = {fall, rise}`. -/
def maskDiffWord (old new : BitVec 16) : RespWord :=
  if riseBits old new = 0 ∧ fallBits old new = 0 then respWord .none (new.setWidth 24) 0
  else respWord .event (new.setWidth 24) (fallBits old new ++ riseBits old new)

/-- The event sequence of a MASK.DIFF or KEY.SCAN response (40_debounce.md R106, R108): for bit 0 up to bit 15 the
edge of each changed bit; `Rising` is `NoteOn` and `Falling` is `NoteOff` where the mask is a keyboard. -/
def maskEvents (old new : BitVec 16) : List (Nat × Edge) :=
  (List.range 16).filterMap fun i =>
    if (riseBits old new).getLsbD i then some (i, .rising)
    else if (fallBits old new).getLsbD i then some (i, .falling)
    else none

/-- MASK.DIFF (40_debounce.md R106). -/
def execMaskDiff (old new : BitVec 16) (s : State) : Host.Outcome State Fault Refusal :=
  .next (s.respond .ctl (maskDiffWord old new) [])

/-- The state change of DEB.UPD on each of the key lanes 0..15 (40_debounce.md R107). -/
def State.scanLanes (s : State) (raw16 : BitVec 16) : State :=
  { s with lanes := s.lanes.mapIdx fun i l =>
      if i < 16 then (laneSample (s.cfg.debK.getD i 0) l (raw16.getLsbD i)).1 else l }

/-- The confirmed levels of the key lanes, `{conf[15], ..., conf[0]}` (40_debounce.md R107). -/
def State.keyLevels (s : State) : BitVec 16 :=
  maskBits (fun i => (s.lanes.getD i ⟨0, false⟩).conf) 16

/-- KEY.SCAN (40_debounce.md R107). -/
def execKeyScan (raw16 : BitVec 16) (s : State) : Host.Outcome State Fault Refusal :=
  let t := s.scanLanes raw16
  .next (({ t with keyMask := t.keyLevels } : State).respond .ctl (maskDiffWord s.keyMask t.keyLevels) [])

end Sys2Proof.Machine
end

