-- ==== Sys2Proof/Machine/Curve.lean ====
section
/-! DEFINITION. The fixed-point curve shaper (42_envelope.md R151 to R154). -/

namespace Sys2Proof.Machine

/-- `C_Q16` (42_envelope.md R151). -/
def curveC : Nat := 1890969

/-- The curve table, entries 0..31 (42_envelope.md R151). -/
def lutLow : List Nat := [
  1048576, 1037281, 1026107, 1015054, 1004120, 993303, 982604, 972019,
  961548, 951191, 940944, 930809, 920782, 910863, 901051, 891345,
  881744, 872246, 862850, 853555, 844361, 835265, 826268, 817367,
  808563, 799853, 791237, 782714, 774282, 765942, 757691, 749529]

/-- The curve table, entries 32..64 (42_envelope.md R151). -/
def lutHigh : List Nat := [
  741455, 733468, 725567, 717752, 710020, 702372, 694806, 687321,
  679917, 672593, 665348, 658181, 651091, 644078, 637140, 630276,
  623487, 616771, 610127, 603555, 597053, 590622, 584260, 577966,
  571740, 565581, 559489, 553462, 547500, 541603, 535768, 529997,
  524288]

/-- `LutRead(i)`, entry `i` of the curve table, 0..64 (42_envelope.md R151, 20_memory.md R42). -/
def lutRead (i : Nat) : Nat := (lutLow ++ lutHigh).getD i 0

/-- `exp2neg(p_q)`: `2^(-p)` in Q20 (42_envelope.md R152). -/
def exp2neg (p : Nat) : Nat :=
  let n := p >>> 16
  let fr := p % 65536
  let i := fr >>> 10
  let d := fr % 1024
  let v := lutRead i - (((lutRead i - lutRead (i + 1)) * d) >>> 10)
  v >>> n

/-- `g(ab, z)`: `1 - exp(-20 * |bend| * z)` in Q20 (42_envelope.md R153). -/
def curveG (ab z : Nat) : Nat := 1048576 - exp2neg ((ab * z * curveC) >>> 32)

/-- `F` of 42_envelope.md R154, the exponential branch for `|x| = ax`, `|bend| = ab`. -/
def curveF (negBend : Bool) (ab ax : Nat) : Int :=
  let den := curveG ab 65536
  if negBend then (((curveG ab ax * 65536 + (den >>> 1)) / den : Nat) : Int)
  else 65536 - (((curveG ab (65536 - ax) * 65536 + (den >>> 1)) / den : Nat) : Int)

/-- The curve's output `y` for operands already in [-65536, 65536] (42_envelope.md R154). -/
def curveY (x b : Int) : Int :=
  if x.natAbs * 100 < 65536 then 0
  else if b.natAbs * 100 < 65536 then x
  else sgn x * clamp (curveF (decide (b < 0)) b.natAbs x.natAbs) 0 65536

end Sys2Proof.Machine
end

