-- ==== Sys2Proof/Machine/Envelope.lean ====
section
/-! DEFINITION. The ENV family (42_envelope.md): ENV.CURVE, ENV.SHAPE, ENV.EDUR, ENV.EAMP, ENV.EBEND. -/

namespace Sys2Proof.Machine

/-- The duration register of a stage; Sustain has none (10_state.md R18). -/
def envDur (e : Env) : Stage → Option (BitVec 14)
  | .delay => some e.delayDur
  | .attack => some e.attackDur
  | .hold => some e.holdDur
  | .decay => some e.decayDur
  | .sustain => none
  | .release => some e.releaseDur

/-- Replace the duration register of a stage. -/
def envSetDur (e : Env) (v : BitVec 14) : Stage → Env
  | .delay => { e with delayDur := v }
  | .attack => { e with attackDur := v }
  | .hold => { e with holdDur := v }
  | .decay => { e with decayDur := v }
  | .sustain => e
  | .release => { e with releaseDur := v }

/-- The bend register of a stage; Delay, Hold and Sustain have none (10_state.md R18). -/
def envBend (e : Env) : Stage → Option (BitVec 18)
  | .delay => none
  | .attack => some e.attackBend
  | .hold => none
  | .decay => some e.decayBend
  | .sustain => none
  | .release => some e.releaseBend

/-- Replace the bend register of a stage. -/
def envSetBend (e : Env) (v : BitVec 18) : Stage → Env
  | .delay => e
  | .attack => { e with attackBend := v }
  | .hold => e
  | .decay => { e with decayBend := v }
  | .sustain => e
  | .release => { e with releaseBend := v }

/-- `round_q16(offset * vel * DUR_TABLE[idx])`, or `sgn(offset)` where that rounds to zero (42_envelope.md R157). -/
def durStep (cur : Nat) (offset : Int) (vel : Nat) : Int :=
  let idx := if cur < 10 then 0 else if cur < 100 then 1 else if cur < 1000 then 2 else 3
  let step := roundQ16 (offset * vel * (durTable.getD idx 0 : Nat))
  if step = 0 then sgn offset else step

/-- The duration after an edit (42_envelope.md R157). -/
def durEdited (cur : Nat) (offset : Int) (vel : Nat) : Int := clamp (cur + durStep cur offset vel) 0 durMax

/-- The magnitude of an amplitude step (42_envelope.md R158). -/
def ampMag (offset : Int) (vel : Nat) : Nat :=
  let mag := (offset.natAbs * vel * 3277 + 32768) >>> 16
  if offset ≠ 0 ∧ mag < 655 then 655 else mag

/-- The amplitude after an edit (42_envelope.md R158). -/
def ampEdited (cur : Nat) (offset : Int) (vel : Nat) : Int :=
  clamp (cur + sgn offset * ampMag offset vel) 0 65536

/-- The bend after an edit (42_envelope.md R159). -/
def bendEdited (cur offset : Int) (vel : Nat) : Int := clamp (cur + roundQ16 (offset * vel * 6554)) (-65536) 65536

/-- EVENT where an edit changed the register, NONE where it did not (42_envelope.md R156). -/
def editStatus (changed : Bool) : Status := if changed then .event else .none

/-- ENV.CURVE (42_envelope.md R154). -/
def execEnvCurve (x bend : Word) (s : State) : Host.Outcome State Fault Refusal :=
  reply .ctl .event 0 (wrap32 (curveY (unitOperand x) (unitOperand bend))) s

/-- ENV.SHAPE (42_envelope.md R155): a stage without a bend register is shaped with bend 0. -/
def execEnvShape (stage : BitVec 3) (x : Word) (s : State) : Host.Outcome State Fault Refusal :=
  match stageOf stage with
  | none => replyIllegal .ctl s
  | some st =>
    let b : Int := match envBend s.env st with
      | none => 0
      | some v => v.toInt
    reply .ctl .event 0 (wrap32 (curveY (unitOperand x) (clamp b (-65536) 65536))) s

/-- ENV.EDUR (42_envelope.md R157); on a stage without a duration it is a no-op (R160). -/
def execEnvEdur (stage : BitVec 3) (offset vel : Word) (s : State) : Host.Outcome State Fault Refusal :=
  match stageOf stage with
  | none => replyIllegal .ctl s
  | some st =>
    match envDur s.env st with
    | none => reply .ctl .none 0 0 s
    | some cur =>
      let new := durEdited cur.toNat (offsetOperand offset) (velOperand vel)
      reply .ctl (editStatus (decide (new ≠ cur.toNat))) 0 (wrap32 new)
        { s with env := envSetDur s.env (BitVec.ofInt 14 new) st }

/-- ENV.EAMP (42_envelope.md R158); on a stage other than Sustain it is a no-op (R160). -/
def execEnvEamp (stage : BitVec 3) (offset vel : Word) (s : State) : Host.Outcome State Fault Refusal :=
  match stageOf stage with
  | none => replyIllegal .ctl s
  | some .sustain =>
    let cur := s.env.sustainAmp
    let new := ampEdited cur.toNat (offsetOperand offset) (velOperand vel)
    reply .ctl (editStatus (decide (new ≠ cur.toNat))) 0 (wrap32 new)
      { s with env := { s.env with sustainAmp := BitVec.ofInt 17 new } }
  | some _ => reply .ctl .none 0 0 s

/-- ENV.EBEND (42_envelope.md R159); on a stage without a bend it is a no-op (R160). -/
def execEnvEbend (stage : BitVec 3) (offset vel : Word) (s : State) : Host.Outcome State Fault Refusal :=
  match stageOf stage with
  | none => replyIllegal .ctl s
  | some st =>
    match envBend s.env st with
    | none => reply .ctl .none 0 0 s
    | some cur =>
      let new := bendEdited cur.toInt (offsetOperand offset) (velOperand vel)
      reply .ctl (editStatus (decide (new ≠ cur.toInt))) 0 (wrap32 new)
        { s with env := envSetBend s.env (BitVec.ofInt 18 new) st }

end Sys2Proof.Machine
end

