-- ==== Sys2Proof/Machine/Ring.lean ====
section
/-! DEFINITION. The RING family (44_ring.md): RING.PUSH, RING.DRAIN and the synchroniser steps RING.SYNCW, RING.SYNCR,
RING.SYNCU. -/

namespace Sys2Proof.Machine

/-- RING.PUSH (44_ring.md R201). -/
def execRingPush (l r : Word) (s : State) : Host.Outcome State Fault Refusal :=
  reply .smp (if s.pushFull then .ringFull else .event) 0 0 (s.push ⟨l, r⟩)

/-- `n = min(avail, HALF_FRAMES)`, the frames a drain moves (44_ring.md R204). -/
def State.drainCount (s : State) : Nat := min s.avail s.cfg.halfFrames

/-- The deficit of a drain, `HALF_FRAMES - n` (44_ring.md R204). -/
def State.deficit (s : State) : Nat := s.cfg.halfFrames - s.drainCount

/-- `min(2^32 - 1, underrun + deficit)` (44_ring.md R204, R205). -/
def underrunAfter (u : Word) (deficit : Nat) : Word := BitVec.ofNat 32 (min 4294967295 (u.toNat + deficit))

/-- RING.DRAIN (44_ring.md R204). -/
def execRingDrain (h : Bool) (s : State) : Host.Outcome State Fault Refusal :=
  let n := s.drainCount
  match drainFrames s.cfg s.ring s.rptr (s.half h) n with
  | .error e => .fault e
  | .ok m =>
    let t := { s.setHalf h m with rptr := ptrAdd s.cfg s.rptr n }
    if n < s.cfg.halfFrames then
      reply .bus .underrun (BitVec.ofNat 24 n) (BitVec.ofNat 32 s.deficit)
        { t with underrun := underrunAfter s.underrun s.deficit }
    else reply .bus .event (BitVec.ofNat 24 n) 0 t

/-- RING.SYNCW (44_ring.md R208), enabled when `adv` is at most the lag. A step that is not enabled does not happen
(DESIGN CHOICE, log 8). -/
def execRingSyncw (adv : Word) (s : State) : Host.Outcome State Fault Refusal :=
  if advOperand adv ≤ s.wLag then
    .next ({ s with wgSync := gray (ptrAdd s.cfg s.wSeen (advOperand adv)) } : State).quiet
  else .next s.quiet

/-- RING.SYNCR (44_ring.md R209), enabled when `adv` is at most the lag. A step that is not enabled does not happen
(DESIGN CHOICE, log 8). -/
def execRingSyncr (adv : Word) (s : State) : Host.Outcome State Fault Refusal :=
  if advOperand adv ≤ s.rLag then
    .next ({ s with rgSync := gray (ptrAdd s.cfg s.rSeen (advOperand adv)) } : State).quiet
  else .next s.quiet

/-- RING.SYNCU (44_ring.md R210). -/
def execRingSyncu (s : State) : Host.Outcome State Fault Refusal :=
  .next ({ s with urShadow := s.underrun } : State).quiet

end Sys2Proof.Machine
end

