-- ==== Sys2Proof/Machine/Rot.lean ====
section
/-! DEFINITION. The ROT family (41_rotary.md): QEI.TICK, QDEC.SMP, QDEC.TICK. -/

namespace Sys2Proof.Machine

/-- `diff = sext_16(wrap_16(count - qei_prev[e]))` (41_rotary.md R121). -/
def qeiDiff (prev count : BitVec 16) : Int := (count - prev).toInt

/-- QEI.TICK (41_rotary.md R121). -/
def execQeiTick (e : BitVec 3) (count : BitVec 16) (s : State) : Host.Outcome State Fault Refusal :=
  if e.toNat < s.cfg.numQei then
    let d := s.qei[decoderIdx e]
    let diff := qeiDiff d.prev count
    if diff.natAbs < 2 then reply .ctl .none 0 0 s
    else
      reply .ctl .event 0 (wrap32 (tdiv2 diff * direction d.inv))
        { s with qei := s.qei.set (decoderIdx e) { d with prev := count } }
  else replyIllegal .ctl s

/-- What a sample of the two phase lines says (41_rotary.md R124). -/
inductive Turn
  | same
  | cw
  | ccw
  | invalid
  deriving DecidableEq, Repr

/-- `classify(old, new)`, the table of 41_rotary.md R124; a phase is `{clk, dt}`. -/
def classify (old new : BitVec 2) : Turn :=
  match old.toNat, new.toNat with
  | 0, 0 => .same
  | 0, 1 => .ccw
  | 0, 2 => .cw
  | 0, _ => .invalid
  | 1, 0 => .cw
  | 1, 1 => .same
  | 1, 2 => .invalid
  | 1, _ => .ccw
  | 2, 0 => .ccw
  | 2, 1 => .invalid
  | 2, 2 => .same
  | 2, _ => .cw
  | _, 0 => .invalid
  | _, 1 => .cw
  | _, 2 => .ccw
  | _, _ => .same

/-- The whole decay periods elapsed since `q_tdec` (41_rotary.md R126). -/
def decayPeriods (c : Config) (ms : Word) (d : Qdec) : Nat := (ms - d.tdec).toNat / c.velocityDecFrequency

/-- `decay(q)` (41_rotary.md R126): the velocity falls by `VEL_DEC` for each whole period, not below 0. -/
def decayed (c : Config) (ms : Word) (d : Qdec) : Qdec :=
  let n := decayPeriods c ms d
  if n > 0 then
    { d with
      vel := BitVec.ofNat 17 (d.vel.toNat - n * c.velDec)
      tdec := wrap32 ((d.tdec.toNat + n * c.velocityDecFrequency : Nat) : Int) }
  else d

/-- A decoder at the start of QDEC.SMP or QDEC.TICK: decayed where its `ACC` bit is 1 (41_rotary.md R126). -/
def refreshed (c : Config) (ms : Word) (d : Qdec) : Qdec := if d.acc then decayed c ms d else d

/-- A counted transition (41_rotary.md R125): one step on `q_acc`, and in accelerated mode `VEL_INC` on `q_vel`, not
above 65536. -/
def turned (c : Config) (cw : Bool) (d : Qdec) : Qdec :=
  { d with
    count := wrap32 (d.count.toInt + if cw then 1 else -1)
    vel := if d.acc then BitVec.ofNat 17 (min 65536 (d.vel.toNat + c.velInc)) else d.vel }

/-- The pair `{clk, dt}` (41_rotary.md R124). -/
def phase (clk dt : Bool) : BitVec 2 := BitVec.ofBool clk ++ BitVec.ofBool dt

/-- One sample of the two lines: the decoder after it, and the status and `aux` of the response (41_rotary.md R125). -/
def qdecSampled (c : Config) (ms : Word) (d : Qdec) (new : BitVec 2) : Qdec × Status × BitVec 24 :=
  let d1 := refreshed c ms d
  if d1.init = false then ({ d1 with init := true, prev := new }, .none, 0)
  else
    match classify d1.prev new with
    | .same => ({ d1 with prev := new }, .none, 0)
    | .invalid => ({ d1 with prev := new }, .quadInvalid, 0)
    | .cw => (turned c true { d1 with prev := new }, .event, turnCode true)
    | .ccw => (turned c false { d1 with prev := new }, .event, turnCode false)

/-- QDEC.SMP (41_rotary.md R125). -/
def execQdecSmp (q : BitVec 3) (clk dt : Bool) (s : State) : Host.Outcome State Fault Refusal :=
  if q.toNat < s.cfg.numQdec then
    let r := qdecSampled s.cfg s.msCount s.qdec[decoderIdx q] (phase clk dt)
    reply .ctl r.2.1 r.2.2 0 { s with qdec := s.qdec.set (decoderIdx q) r.1 }
  else replyIllegal .ctl s

/-- The milliseconds since the last accelerated emission (41_rotary.md R127). -/
def sinceEmission (ms : Word) (d : Qdec) : Nat := (ms - d.temit).toNat

/-- One control tick of a decoder: the decoder after it, and the status, `aux` and value of the response (41_rotary.md
R127). -/
def qdecTicked (c : Config) (ms : Word) (d : Qdec) : Qdec × Status × BitVec 24 × Word :=
  if d.acc = false then
    if d.count = 0 then ({ d with count := 0 }, .none, 0, 0)
    else ({ d with count := 0 }, .event, 0, wrap32 (d.count.toInt * direction d.inv))
  else
    let d1 := decayed c ms d
    if sinceEmission ms d1 > c.updateFrequency ∧ d1.count ≠ 0 then
      ({ d1 with count := 0, temit := ms }, .event, d1.vel.setWidth 24, wrap32 (d1.count.toInt * direction d1.inv))
    else (d1, .none, 0, 0)

/-- QDEC.TICK (41_rotary.md R127). -/
def execQdecTick (q : BitVec 3) (s : State) : Host.Outcome State Fault Refusal :=
  if q.toNat < s.cfg.numQdec then
    let r := qdecTicked s.cfg s.msCount s.qdec[decoderIdx q]
    reply .ctl r.2.1 r.2.2.1 r.2.2.2 { s with qdec := s.qdec.set (decoderIdx q) r.1 }
  else replyIllegal .ctl s

end Sys2Proof.Machine
end

