-- ==== Sys2Proof/Machine/Syn.lean ====
section
/-! DEFINITION. The SYN family (43_synth.md): SYN.NOTEON, SYN.NOTEOFF, SYN.TICK. -/

namespace Sys2Proof.Machine

/-- The slot of voice `v`, where it exists (10_state.md R19). -/
def State.voiceAt (s : State) (v : Nat) : Option Voice := if v < s.cfg.numVoices then s.voices[v]? else none

/-- The lowest voice in a given condition, scanned from voice 0 upward (43_synth.md R180). -/
def State.firstVoice (s : State) (x : Voice) : Option Nat :=
  (List.range s.cfg.numVoices).find? fun v => decide (s.voiceAt v = some x)

/-- Change one voice slot. -/
def State.setVoice (s : State) (v : Nat) (x : Voice) : State :=
  { s with voices := s.voices.setIfInBounds v x }

/-- SYN.NOTEON (43_synth.md R183): the first idle voice sounds the note and its oscillator is told. -/
def execSynNoteon (note : BitVec 7) (s : State) : Host.Outcome State Fault Refusal :=
  match s.firstVoice .idle with
  | none => reply .smp .voiceDropped 0 0 s
  | some v =>
    .next ((s.setVoice v (.sounding note)).respond .smp (respWord .event (BitVec.ofNat 24 v) 0) [.set v note])

/-- SYN.NOTEOFF (43_synth.md R184): the first voice sounding the note becomes idle. -/
def execSynNoteoff (note : BitVec 7) (s : State) : Host.Outcome State Fault Refusal :=
  match s.firstVoice (.sounding note) with
  | none => reply .smp .noMatch 0 0 s
  | some v => reply .smp .event (BitVec.ofNat 24 v) 0 (s.setVoice v .idle)

/-- Voice `v` exists and sounds. -/
def State.sounds (s : State) (v : Nat) : Bool :=
  match s.voiceAt v with
  | some (.sounding _) => true
  | _ => false

/-- The sounding voices, from voice 0 upward. -/
def State.soundingVoices (s : State) : List Nat := (List.range s.cfg.numVoices).filter s.sounds

/-- The exact sum of 43_synth.md R185, over the sounding voices, of sample times gain. -/
def mixSum (gain : Nat) (samples : Nat → BitVec 16) (voices : List Nat) : Int :=
  (voices.map fun v => (samples v).toInt * (gain : Int)).sum

/-- `mix(S)` (43_synth.md R185). -/
def State.mix (s : State) (samples : Nat → BitVec 16) : Word :=
  wrap32 (satS32 (mixSum s.cfg.voiceGainQ16 samples s.soundingVoices))

/-- SYN.TICK (43_synth.md R186): every sounding voice is pulled, the mix is pushed on both channels. -/
def execSynTick (s : State) : Host.Outcome State Fault Refusal :=
  let m := s.mix s.oscSamples
  let st := if s.pushFull then Status.ringFull else Status.event
  .next ((s.push ⟨m, m⟩).oscTaken.respond .smp (respWord st 0 m) (s.soundingVoices.map .pull))

end Sys2Proof.Machine
end

