-- ==== Sys2Proof/Machine/Csr.lean ====
section
/-! DEFINITION. Reading and writing the control registers (10_state.md R26 to R34). -/

namespace Sys2Proof.Machine

/-- The identity value, ASCII "PAW1" (10_state.md R26, 45_system.md R232). -/
def idValue : Word := 0x50415731

/-- A `*_DUR` register takes `clamp(d, 0, 10000)` of the signed data (10_state.md R33). -/
def durStored (data : Word) : BitVec 14 := BitVec.ofInt 14 (clamp data.toInt 0 durMax)

/-- A `*_BEND` register takes `clamp(d, -65536, 65536)` (10_state.md R33). -/
def bendStored (data : Word) : BitVec 18 := BitVec.ofInt 18 (clamp data.toInt (-65536) 65536)

/-- `ENV_SUSTAIN_AMP` takes `clamp(d, 0, 65536)` (10_state.md R33). -/
def ampStored (data : Word) : BitVec 17 := BitVec.ofInt 17 (clamp data.toInt 0 65536)

/-- The 32-bit read value of an envelope register: sign-extended for `*_BEND`, zero-extended for the others
(10_state.md R25, R33). -/
def envRead (e : Env) : EnvReg → Word
  | .delayDur => e.delayDur.setWidth 32
  | .attackDur => e.attackDur.setWidth 32
  | .attackBend => e.attackBend.signExtend 32
  | .holdDur => e.holdDur.setWidth 32
  | .decayDur => e.decayDur.setWidth 32
  | .decayBend => e.decayBend.signExtend 32
  | .sustainAmp => e.sustainAmp.setWidth 32
  | .releaseDur => e.releaseDur.setWidth 32
  | .releaseBend => e.releaseBend.signExtend 32

/-- Store data in an envelope register, clamped into its range (10_state.md R33, R34). -/
def envWrite (e : Env) (data : Word) : EnvReg → Env
  | .delayDur => { e with delayDur := durStored data }
  | .attackDur => { e with attackDur := durStored data }
  | .attackBend => { e with attackBend := bendStored data }
  | .holdDur => { e with holdDur := durStored data }
  | .decayDur => { e with decayDur := durStored data }
  | .decayBend => { e with decayBend := bendStored data }
  | .sustainAmp => { e with sustainAmp := ampStored data }
  | .releaseDur => { e with releaseDur := durStored data }
  | .releaseBend => { e with releaseBend := bendStored data }

/-- The 32-bit read value of a control register (10_state.md R26 to R33). -/
def State.readCsr (s : State) : Csr → Word
  | .id => idValue
  | .msCount => s.msCount
  | .underrun => s.urShadow
  | .keyMask => s.keyMask.setWidth 32
  | .btnCfg b => bitIn 32 s.btnPull[b]
  | .qeiCfg e => bitIn 32 s.qei[e].inv
  | .qeiPrev e => s.qei[e].prev.setWidth 32
  | .qdecCfg q => (BitVec.ofBool s.qdec[q].acc ++ BitVec.ofBool s.qdec[q].inv).setWidth 32
  | .qdecVel q => s.qdec[q].vel.setWidth 32
  | .env r => envRead s.env r

/-- `csr[addr] <- legal(addr, data)` (45_system.md R234, 10_state.md R30 to R34). A read-only register is not written. -/
def State.writeCsr (s : State) (data : Word) : Csr → State
  | .id => s
  | .msCount => s
  | .underrun => s
  | .keyMask => s
  | .btnCfg b => { s with btnPull := s.btnPull.set b (data.getLsbD 0) }
  | .qeiCfg e => { s with qei := s.qei.set e { s.qei[e] with inv := data.getLsbD 0 } }
  | .qeiPrev e => { s with qei := s.qei.set e { s.qei[e] with prev := data.setWidth 16 } }
  | .qdecCfg q =>
    { s with qdec := s.qdec.set q { s.qdec[q] with inv := data.getLsbD 0, acc := data.getLsbD 1 } }
  | .qdecVel _ => s
  | .env r => { s with env := envWrite s.env data r }

end Sys2Proof.Machine
end

