-- ==== Sys2Proof/Machine/Sys.lean ====
section
/-! DEFINITION. The SYS family (45_system.md): NOP, CSR.RD, CSR.WR, MS.TICK. -/

namespace Sys2Proof.Machine

/-- NOP (45_system.md R231). -/
def execNop (s : State) : Host.Outcome State Fault Refusal := reply .ctl .none 0 0 s

/-- CSR.RD (45_system.md R233). -/
def execCsrRd (addr : BitVec 16) (s : State) : Host.Outcome State Fault Refusal :=
  match csrAt s.cfg addr with
  | none => replyIllegal .ctl s
  | some r => reply .ctl .event 0 (s.readCsr r) s

/-- CSR.WR (45_system.md R234). The response carries the value stored. -/
def execCsrWr (addr : BitVec 16) (data : Word) (s : State) : Host.Outcome State Fault Refusal :=
  match csrAt s.cfg addr with
  | none => replyIllegal .ctl s
  | some r =>
    if r.readOnly then replyIllegal .ctl s
    else reply .ctl .event 0 ((s.writeCsr data r).readCsr r) (s.writeCsr data r)

/-- MS.TICK (45_system.md R235). -/
def execMsTick (s : State) : Host.Outcome State Fault Refusal :=
  reply .ctl .none 0 0 { s with msCount := s.msCount + 1 }

end Sys2Proof.Machine
end

