-- ==== Sys2Proof/Machine/Dispatch.lean ====
section
/-! DEFINITION. One arm per operation: the meaning of each row of spec/opcode_table.json. -/

namespace Sys2Proof.Machine

def exec (i : Instr) (s : State) : Host.Outcome State Fault Refusal :=
  match i with
  | .nop => Sys2Proof.Machine.execNop s
  | .csrRd addr => Sys2Proof.Machine.execCsrRd addr s
  | .csrWr addr data => Sys2Proof.Machine.execCsrWr addr data s
  | .msTick => Sys2Proof.Machine.execMsTick s
  | .debUpd lane raw => Sys2Proof.Machine.execDebUpd lane raw s
  | .btnUpd b raw => Sys2Proof.Machine.execBtnUpd b raw s
  | .keyScan raw16 => Sys2Proof.Machine.execKeyScan raw16 s
  | .maskDiff old new => Sys2Proof.Machine.execMaskDiff old new s
  | .qeiTick e count => Sys2Proof.Machine.execQeiTick e count s
  | .qdecSmp q clk dt => Sys2Proof.Machine.execQdecSmp q clk dt s
  | .qdecTick q => Sys2Proof.Machine.execQdecTick q s
  | .envCurve x bend => Sys2Proof.Machine.execEnvCurve x bend s
  | .envShape stage x => Sys2Proof.Machine.execEnvShape stage x s
  | .envEdur stage offset vel => Sys2Proof.Machine.execEnvEdur stage offset vel s
  | .envEamp stage offset vel => Sys2Proof.Machine.execEnvEamp stage offset vel s
  | .envEbend stage offset vel => Sys2Proof.Machine.execEnvEbend stage offset vel s
  | .synNoteon note => Sys2Proof.Machine.execSynNoteon note s
  | .synNoteoff note => Sys2Proof.Machine.execSynNoteoff note s
  | .synTick => Sys2Proof.Machine.execSynTick s
  | .ringPush l r => Sys2Proof.Machine.execRingPush l r s
  | .ringDrain h => Sys2Proof.Machine.execRingDrain h s
  | .ringSyncw adv => Sys2Proof.Machine.execRingSyncw adv s
  | .ringSyncr adv => Sys2Proof.Machine.execRingSyncr adv s
  | .ringSyncu => Sys2Proof.Machine.execRingSyncu s

end Sys2Proof.Machine
end

