-- ==== Sys2Proof/Machine/Step.lean ====
section
/-! DEFINITION. One step of the block: it serves the oldest waiting input (10_state.md R11, 70_reset_and_hazards.md R290). -/

namespace Sys2Proof.Machine

/-- One step. With nothing waiting the block waits: its state does not change and it puts nothing out. -/
def step (s : State) : Host.Outcome State Fault Refusal :=
  match s.service with
  | .idle => .next s.quiet
  | .reset => .next s.taken.afterRst
  | .reject a => .next (s.taken.rejectRequest a)
  | .run i => exec i s.taken

/-- The state in which the operation word of `nbits` bits `w` (bit 0 its least significant bit) is the next input
(log 9, log 10). -/
def State.withFetchWord (s : State) (nbits w : Nat) : State := s.present (tableWord nbits w)

end Sys2Proof.Machine
end

