-- ==== Sys2Proof/Machine/Pseudo.lean ====
section
/-! DEFINITION. The pseudo-operations of 30_encoding.md R87 as the inputs they expand to, and the panel aggregate of
41_rotary.md R136. A pseudo-operation has no encoding of its own. -/

namespace Sys2Proof.Machine

/-- One operation, presented by its own agent. -/
def inputOf (i : Instr) : Input := .request i.agent (encode i)

/-- `ring.syncw*`: RING.SYNCW by the whole lag `wrap_W(wptr - w_seen)` (30_encoding.md R87). -/
def syncwAll (s : State) : List Input := [inputOf (.ringSyncw (BitVec.ofNat 32 (ptrDist s.cfg s.wptr s.wSeen)))]

/-- `ring.syncr*`: RING.SYNCR by the whole lag `wrap_W(rptr - r_seen)` (30_encoding.md R87). -/
def syncrAll (s : State) : List Input := [inputOf (.ringSyncr (BitVec.ofNat 32 (ptrDist s.cfg s.rptr s.rSeen)))]

/-- `ms.advance n` (30_encoding.md R87). -/
def msAdvance (n : Nat) : List Input := List.replicate n (inputOf .msTick)

/-- `deb.run lane, b1 b2 ... bn` (30_encoding.md R87). -/
def debRun (lane : BitVec 5) (samples : List Bool) : List Input := samples.map fun b => inputOf (.debUpd lane b)

/-- `panel.tick main_count, btn_raw` in the reference configuration (41_rotary.md R136): main encoder, main encoder
button, auxiliary encoders. -/
def panelTick (mainCount : BitVec 16) (btnRaw : Bool) : List Input :=
  [inputOf (.qeiTick 0 mainCount), inputOf (.btnUpd 0 btnRaw), inputOf (.qdecTick 0), inputOf (.qdecTick 1)]

/-- The document's `ControlsState` (41_rotary.md R136). -/
inductive PanelResult
  | unchanged
  | changed (mainEnc mainBtn auxEnc0 auxEnc1 : RespWord)
  deriving DecidableEq, Repr

/-- A response whose status is NONE. -/
def isNone (w : RespWord) : Bool := decide (statusField w = Status.none.code)

/-- `None` exactly where every sub-result has status NONE (41_rotary.md R136). -/
def panelResult (main btn aux0 aux1 : RespWord) : PanelResult :=
  if isNone main && isNone btn && isNone aux0 && isNone aux1 then .unchanged else .changed main btn aux0 aux1

end Sys2Proof.Machine
end

