-- ==== Sys2Proof/WellFormed.lean ====
section
/-! DEFINITION. Which decoded operations are legal on a block built with a given configuration: the range checks of
30_encoding.md R76, "which a mask cannot express". -/

namespace Sys2Proof

/-- The range checks of 30_encoding.md R76. An operation that fails one is answered ILLEGAL by its meaning. -/
def Instr.wellFormed (c : Config) : Instr → Bool
  | .nop => true
  | .csrRd addr => (Machine.csrAt c addr).isSome
  | .csrWr addr _ => match Machine.csrAt c addr with
    | none => false
    | some r => !r.readOnly
  | .msTick => true
  | .debUpd _ _ => true
  | .btnUpd b _ => decide (b.toNat < c.numBtn)
  | .keyScan _ => true
  | .maskDiff _ _ => true
  | .qeiTick e _ => decide (e.toNat < c.numQei)
  | .qdecSmp q _ _ => decide (q.toNat < c.numQdec)
  | .qdecTick q => decide (q.toNat < c.numQdec)
  | .envCurve _ _ => true
  | .envShape stage _ => (Machine.stageOf stage).isSome
  | .envEdur stage _ _ => (Machine.stageOf stage).isSome
  | .envEamp stage _ _ => (Machine.stageOf stage).isSome
  | .envEbend stage _ _ => (Machine.stageOf stage).isSome
  | .synNoteon _ => true
  | .synNoteoff _ => true
  | .synTick => true
  | .ringPush _ _ => true
  | .ringDrain _ => true
  | .ringSyncw _ => true
  | .ringSyncr _ => true
  | .ringSyncu => true

end Sys2Proof
end

