-- ==== Sys2Proof/Safety.lean ====
section
/-! DEFINITION. The terms in which statements about the block are made: what a response is, what stays unchanged, the
invariants of 10_state.md R37, the queue a ring stands for, and the spec's tables (opcode rows, control registers, stage
registers, quadrature cycle) written down a second time, apart from the machine. -/

namespace Sys2Proof.Safety

open Sys2Proof.Machine

/-! ### Responses and frames -/

/-- The step put out exactly one response, at the port of `a`, with this status value, `aux` and `value`, and sent
these events to the oscillator port. -/
def RespondedWith (t : State) (a : Agent) (status : BitVec 8) (aux : BitVec 24) (value : Word)
    (osc : List OscEvent) : Prop :=
  ∃ w, t.out = ⟨some (a, w), osc⟩ ∧ statusField w = status ∧ auxField w = aux ∧ valueField w = value

/-- The step put out exactly one response and no oscillator event. -/
def Responded (t : State) (a : Agent) (status : BitVec 8) (aux : BitVec 24) (value : Word) : Prop :=
  RespondedWith t a status aux value []

/-- Every byte of the hardware buffer reads as before. -/
def HwSame (s t : State) : Prop := ∀ h offset, t.hwByte h offset = s.hwByte h offset

/-- Every slot of the ring reads as before. -/
def RingSame (s t : State) : Prop := ∀ slot, Memory.read t.ring slot = Memory.read s.ring slot

/-- All memory reads as before. -/
def MemorySame (s t : State) : Prop := RingSame s t ∧ HwSame s t

/-- The word with these fields (30_encoding.md R70) is read as the operation `i`. -/
def EncodedAs (i : Instr) (opcode idx : BitVec 8) (imm : BitVec 16) (a b : Word) : Prop :=
  decode (opWord opcode idx imm a b) = .ok i

/-- `i` answers `respond(ILLEGAL, 0, 0)` at the CTL port and changes nothing. -/
def AnswersIllegal (i : Instr) (s : State) : Prop :=
  ∃ t, exec i s = .next t ∧ t = { s with out := t.out } ∧ MemorySame s t ∧ Responded t .ctl 0x7F 0 0

/-! ### The opcode table (30_encoding.md R72, opcode_table.json) -/

/-- One row: the bits that are fixed and their values. -/
structure OpRow where
  mnemonic : String
  mask : OpWord
  pattern : OpWord
  deriving DecidableEq, Repr

/-- The 24 rows of spec/opcode_table.json. -/
def opRows : List OpRow := [
  ⟨"NOP", 0xFFFFFFFFFFFFFFFFFFFFFFFF, 0x000000000000000000000000⟩,
  ⟨"CSR.RD", 0xFFFF0000FFFFFFFFFFFFFFFF, 0x010000000000000000000000⟩,
  ⟨"CSR.WR", 0xFFFF0000FFFFFFFF00000000, 0x020000000000000000000000⟩,
  ⟨"MS.TICK", 0xFFFFFFFFFFFFFFFFFFFFFFFF, 0x030000000000000000000000⟩,
  ⟨"DEB.UPD", 0xFFE0FFFFFFFFFFFFFFFFFFFE, 0x100000000000000000000000⟩,
  ⟨"BTN.UPD", 0xFFF0FFFFFFFFFFFFFFFFFFFE, 0x110000000000000000000000⟩,
  ⟨"KEY.SCAN", 0xFFFF0000FFFFFFFFFFFFFFFF, 0x120000000000000000000000⟩,
  ⟨"MASK.DIFF", 0xFFFFFFFFFFFF0000FFFF0000, 0x130000000000000000000000⟩,
  ⟨"QEI.TICK", 0xFFF80000FFFFFFFFFFFFFFFF, 0x200000000000000000000000⟩,
  ⟨"QDEC.SMP", 0xFFF8FFFFFFFFFFFFFFFFFFFC, 0x210000000000000000000000⟩,
  ⟨"QDEC.TICK", 0xFFF8FFFFFFFFFFFFFFFFFFFF, 0x220000000000000000000000⟩,
  ⟨"ENV.CURVE", 0xFFFFFFFF0000000000000000, 0x300000000000000000000000⟩,
  ⟨"ENV.SHAPE", 0xFFF8FFFF00000000FFFFFFFF, 0x310000000000000000000000⟩,
  ⟨"ENV.EDUR", 0xFFF8FFFF0000000000000000, 0x320000000000000000000000⟩,
  ⟨"ENV.EAMP", 0xFFF8FFFF0000000000000000, 0x330000000000000000000000⟩,
  ⟨"ENV.EBEND", 0xFFF8FFFF0000000000000000, 0x340000000000000000000000⟩,
  ⟨"SYN.NOTEON", 0xFF80FFFFFFFFFFFFFFFFFFFF, 0x400000000000000000000000⟩,
  ⟨"SYN.NOTEOFF", 0xFF80FFFFFFFFFFFFFFFFFFFF, 0x410000000000000000000000⟩,
  ⟨"SYN.TICK", 0xFFFFFFFFFFFFFFFFFFFFFFFF, 0x420000000000000000000000⟩,
  ⟨"RING.PUSH", 0xFFFFFFFF0000000000000000, 0x500000000000000000000000⟩,
  ⟨"RING.DRAIN", 0xFFFEFFFFFFFFFFFFFFFFFFFF, 0x510000000000000000000000⟩,
  ⟨"RING.SYNCW", 0xFFFFFFFFFFFFFFFF00000000, 0x580000000000000000000000⟩,
  ⟨"RING.SYNCR", 0xFFFFFFFFFFFFFFFF00000000, 0x590000000000000000000000⟩,
  ⟨"RING.SYNCU", 0xFFFFFFFFFFFFFFFFFFFFFFFF, 0x5A0000000000000000000000⟩]

/-! ### The control registers (10_state.md R25 to R33) -/

/-- A one-bit field at bit 0 of a 32-bit register. -/
def bit0 (b : Bool) : Word := if b then 1 else 0

/-- The table of 10_state.md R25: register address and read value, for the registers that exist. -/
inductive CsrReads (s : State) : Nat → Word → Prop
  | id : CsrReads s 0x0000 0x50415731
  | msCount : CsrReads s 0x0001 s.msCount
  | underrun : CsrReads s 0x0002 s.urShadow
  | keyMask : CsrReads s 0x0003 (BitVec.ofNat 32 s.keyMask.toNat)
  | btnCfg (b : Fin 16) : b.val < s.cfg.numBtn → CsrReads s (0x0010 + b.val) (bit0 s.btnPull[b])
  | qeiCfg (e : Fin 8) : e.val < s.cfg.numQei → CsrReads s (0x0020 + e.val) (bit0 s.qei[e].inv)
  | qeiPrev (e : Fin 8) : e.val < s.cfg.numQei → CsrReads s (0x0028 + e.val) (BitVec.ofNat 32 s.qei[e].prev.toNat)
  | qdecCfg (q : Fin 8) : q.val < s.cfg.numQdec →
      CsrReads s (0x0030 + q.val) (bit0 s.qdec[q].inv + 2 * bit0 s.qdec[q].acc)
  | qdecVel (q : Fin 8) : q.val < s.cfg.numQdec → CsrReads s (0x0038 + q.val) (BitVec.ofNat 32 s.qdec[q].vel.toNat)
  | delayDur : CsrReads s 0x0040 (BitVec.ofNat 32 s.env.delayDur.toNat)
  | attackDur : CsrReads s 0x0041 (BitVec.ofNat 32 s.env.attackDur.toNat)
  | attackBend : CsrReads s 0x0042 (BitVec.ofInt 32 s.env.attackBend.toInt)
  | holdDur : CsrReads s 0x0043 (BitVec.ofNat 32 s.env.holdDur.toNat)
  | decayDur : CsrReads s 0x0044 (BitVec.ofNat 32 s.env.decayDur.toNat)
  | decayBend : CsrReads s 0x0045 (BitVec.ofInt 32 s.env.decayBend.toInt)
  | sustainAmp : CsrReads s 0x0046 (BitVec.ofNat 32 s.env.sustainAmp.toNat)
  | releaseDur : CsrReads s 0x0047 (BitVec.ofNat 32 s.env.releaseDur.toNat)
  | releaseBend : CsrReads s 0x0048 (BitVec.ofInt 32 s.env.releaseBend.toInt)

/-- The data read as signed and clamped (10_state.md R33). -/
def clampedTo (lo hi : Int) (data : Word) : Int := min (max data.toInt lo) hi

/-- The writable rows of 10_state.md R25: address, the state after the write, and the value then read (R30 to R33). -/
inductive CsrWrites (s : State) (data : Word) : Nat → State → Word → Prop
  | btnCfg (b : Fin 16) : b.val < s.cfg.numBtn →
      CsrWrites s data (0x0010 + b.val) { s with btnPull := s.btnPull.set b (data.getLsbD 0) } (bit0 (data.getLsbD 0))
  | qeiCfg (e : Fin 8) : e.val < s.cfg.numQei →
      CsrWrites s data (0x0020 + e.val) { s with qei := s.qei.set e ⟨data.getLsbD 0, s.qei[e].prev⟩ }
        (bit0 (data.getLsbD 0))
  | qeiPrev (e : Fin 8) : e.val < s.cfg.numQei →
      CsrWrites s data (0x0028 + e.val) { s with qei := s.qei.set e ⟨s.qei[e].inv, BitVec.ofNat 16 data.toNat⟩ }
        (BitVec.ofNat 32 (data.toNat % 65536))
  | qdecCfg (q : Fin 8) : q.val < s.cfg.numQdec →
      CsrWrites s data (0x0030 + q.val)
        { s with qdec := s.qdec.set q { s.qdec[q] with inv := data.getLsbD 0, acc := data.getLsbD 1 } }
        (bit0 (data.getLsbD 0) + 2 * bit0 (data.getLsbD 1))
  | delayDur : CsrWrites s data 0x0040
      { s with env := { s.env with delayDur := BitVec.ofInt 14 (clampedTo 0 10000 data) } }
      (BitVec.ofInt 32 (clampedTo 0 10000 data))
  | attackDur : CsrWrites s data 0x0041
      { s with env := { s.env with attackDur := BitVec.ofInt 14 (clampedTo 0 10000 data) } }
      (BitVec.ofInt 32 (clampedTo 0 10000 data))
  | attackBend : CsrWrites s data 0x0042
      { s with env := { s.env with attackBend := BitVec.ofInt 18 (clampedTo (-65536) 65536 data) } }
      (BitVec.ofInt 32 (clampedTo (-65536) 65536 data))
  | holdDur : CsrWrites s data 0x0043
      { s with env := { s.env with holdDur := BitVec.ofInt 14 (clampedTo 0 10000 data) } }
      (BitVec.ofInt 32 (clampedTo 0 10000 data))
  | decayDur : CsrWrites s data 0x0044
      { s with env := { s.env with decayDur := BitVec.ofInt 14 (clampedTo 0 10000 data) } }
      (BitVec.ofInt 32 (clampedTo 0 10000 data))
  | decayBend : CsrWrites s data 0x0045
      { s with env := { s.env with decayBend := BitVec.ofInt 18 (clampedTo (-65536) 65536 data) } }
      (BitVec.ofInt 32 (clampedTo (-65536) 65536 data))
  | sustainAmp : CsrWrites s data 0x0046
      { s with env := { s.env with sustainAmp := BitVec.ofInt 17 (clampedTo 0 65536 data) } }
      (BitVec.ofInt 32 (clampedTo 0 65536 data))
  | releaseDur : CsrWrites s data 0x0047
      { s with env := { s.env with releaseDur := BitVec.ofInt 14 (clampedTo 0 10000 data) } }
      (BitVec.ofInt 32 (clampedTo 0 10000 data))
  | releaseBend : CsrWrites s data 0x0048
      { s with env := { s.env with releaseBend := BitVec.ofInt 18 (clampedTo (-65536) 65536 data) } }
      (BitVec.ofInt 32 (clampedTo (-65536) 65536 data))

/-! ### The stages (10_state.md R18) -/

/-- The duration register of a stage number: its value, and the envelope with that register replaced. -/
inductive StageDur (e : Env) (new : BitVec 14) : Nat → BitVec 14 → Env → Prop
  | delay : StageDur e new 0 e.delayDur { e with delayDur := new }
  | attack : StageDur e new 1 e.attackDur { e with attackDur := new }
  | hold : StageDur e new 2 e.holdDur { e with holdDur := new }
  | decay : StageDur e new 3 e.decayDur { e with decayDur := new }
  | release : StageDur e new 5 e.releaseDur { e with releaseDur := new }

/-- The bend register of a stage number, likewise. -/
inductive StageBend (e : Env) (new : BitVec 18) : Nat → BitVec 18 → Env → Prop
  | attack : StageBend e new 1 e.attackBend { e with attackBend := new }
  | decay : StageBend e new 3 e.decayBend { e with decayBend := new }
  | release : StageBend e new 5 e.releaseBend { e with releaseBend := new }

/-- `round_q16` written as a division: to nearest, ties away from zero (00_scope.md R9). -/
def nearestQ16 (p : Int) : Int := p.sign * (((p.natAbs + 32768) / 65536 : Nat) : Int)

/-- The entry of `[5, 10, 25, 250]` for a duration (42_envelope.md R157). -/
def durUnit (cur : Nat) : Int := if cur < 10 then 5 else if cur < 100 then 10 else if cur < 1000 then 25 else 250

/-- The step of ENV.EDUR: the rounded product, or the sign of the offset where it rounds to zero (42_envelope.md R157). -/
def durStepOf (cur : Nat) (offset : Int) (vel : Nat) : Int :=
  if nearestQ16 (offset * vel * durUnit cur) = 0 then offset.sign else nearestQ16 (offset * vel * durUnit cur)

/-! ### The curve shaper (42_envelope.md R151 to R153) -/

/-- `t` is entry `i` of the curve table: the integer nearest to `2^20 * 2^(-i/64)`, that is, `2^21 * 2^(-i/64)` lies
between `2t - 1` and `2t + 1`, compared in the 64th power (42_envelope.md R151). -/
def IsCurveEntry (i t : Nat) : Prop :=
  (2 * t - 1) ^ 64 * 2 ^ i < (2 ^ 21) ^ 64 ∧ (2 ^ 21) ^ 64 < (2 * t + 1) ^ 64 * 2 ^ i

/-- `2^(-p/65536)` in Q20 by linear interpolation between neighbours of a table of 64 segments per octave, halved once
per octave (42_envelope.md R152), written with division. -/
def interpolatedExp (table : Nat → Nat) (p : Nat) : Nat :=
  let i := p % 65536 / 1024
  (table i - (table i - table (i + 1)) * (p % 1024) / 1024) / 2 ^ (p / 65536)

/-- The shaper's `g` over such a table, with the multiplier `round(20 * log2(e) * 65536) = 1890969` (42_envelope.md R151,
R153). -/
def shaperG (table : Nat → Nat) (ab z : Nat) : Nat := 2 ^ 20 - interpolatedExp table (ab * z * 1890969 / 2 ^ 32)

/-! ### The quadrature cycle (41_rotary.md R124) -/

/-- The place of a phase `{clk, dt}` on the clockwise cycle 00, 10, 11, 01. -/
def cyclePos (p : BitVec 2) : Nat :=
  match p.toNat with
  | 0 => 0
  | 2 => 1
  | 3 => 2
  | _ => 3

/-- A signed 32-bit result with the sign the `INV` bit asks for. -/
def signedBy (inv : Bool) (v : Word) : Word := if inv then -v else v

/-! ### The control domain and the others (10_state.md R10, R11) -/

/-- The registers of the CTL domain that its own operations write are the same. -/
def CtlSame (s t : State) : Prop :=
  t.lanes = s.lanes ∧ t.keyMask = s.keyMask ∧ t.btnPull = s.btnPull ∧ t.qei = s.qei ∧ t.qdec = s.qdec ∧
    t.msCount = s.msCount ∧ t.env = s.env

/-- The state the SMP agent writes is the same: the voices, the ring memory and its write pointer. -/
def SmpSame (s t : State) : Prop := t.voices = s.voices ∧ RingSame s t ∧ t.wptr = s.wptr

/-- The state the BUS agent writes is the same: the read pointer, the underrun counter, the hardware buffer. -/
def BusSame (s t : State) : Prop := t.rptr = s.rptr ∧ t.underrun = s.underrun ∧ HwSame s t

/-! ### Runs over one lane (40_debounce.md R102) -/

/-- Feed samples to one lane by DEB.UPD, one after another. -/
def feedLane (lane : BitVec 5) : List Bool → State → Host.Outcome State Fault Refusal
  | [], s => .next s
  | b :: bs, s =>
    match exec (.debUpd lane b) s with
    | .next t => feedLane lane bs t
    | .fault r => .fault r
    | .refused r => .refused r

/-- Issue SYN.NOTEON for notes, one after another. -/
def playNotes : List (BitVec 7) → State → Host.Outcome State Fault Refusal
  | [], s => .next s
  | n :: ns, s =>
    match exec (.synNoteon n) s with
    | .next t => playNotes ns t
    | .fault r => .fault r
    | .refused r => .refused r

/-- Offer frames by RING.PUSH, one after another. -/
def pushFrames : List Frame → State → Host.Outcome State Fault Refusal
  | [], s => .next s
  | f :: fs, s =>
    match exec (.ringPush f.l f.r) s with
    | .next t => pushFrames fs t
    | .fault r => .fault r
    | .refused r => .refused r

/-! ### The ring as a queue (20_memory.md R46, R47) -/

/-- The ring slot of the `j`-th frame from the read pointer. -/
def queueSlot (s : State) (j : Nat) : Nat := slotOf s.cfg (s.rptr + j)

/-- The frames the ring holds, oldest first. -/
def queue (s : State) : List Frame := (List.range s.occ).filterMap fun j => Memory.read s.ring (queueSlot s j)

/-- Every frame between the read pointer and the consumer's copy of the write pointer has a value: the condition on the
state under which RING.DRAIN completes. -/
def VisibleWritten (s : State) : Prop := ∀ j, j < s.avail → (Memory.read s.ring (queueSlot s j)).isSome

/-- The four words of frame `f` stand in frame slot `j` of a half (20_memory.md R43). -/
def HoldsFrame (m : List Host.Cell) (j : Nat) (f : Frame) : Prop :=
  hwRead m (4 * j) = some (f.l.extractLsb' 16 16) ∧ hwRead m (4 * j + 1) = some (f.l.extractLsb' 0 16) ∧
    hwRead m (4 * j + 2) = some (f.r.extractLsb' 16 16) ∧ hwRead m (4 * j + 3) = some (f.r.extractLsb' 0 16)

/-! ### The invariants (10_state.md R37) -/

/-- What holds from reset onward, whatever inputs are served: 10_state.md R37 (a) to (f), the ranges of the registers,
and the canonical form of the memories. -/
structure Invariants (s : State) : Prop where
  cfg : s.cfg.Legal
  laneWidth : ∀ lane : Fin 32, s.lanes[lane].sr < 2 ^ s.cfg.debK[lane]
  laneHigh : ∀ lane : Fin 32, s.lanes[lane].sr = 2 ^ s.cfg.debK[lane] - 1 → s.lanes[lane].conf = true
  laneLow : ∀ lane : Fin 32, s.lanes[lane].sr = 0 → s.lanes[lane].conf = false
  velocity : ∀ q : Fin 8, s.qdec[q].vel.toNat ≤ 65536
  durations : s.env.delayDur.toNat ≤ 10000 ∧ s.env.attackDur.toNat ≤ 10000 ∧ s.env.holdDur.toNat ≤ 10000 ∧
    s.env.decayDur.toNat ≤ 10000 ∧ s.env.releaseDur.toNat ≤ 10000
  bends : s.env.attackBend.toInt.natAbs ≤ 65536 ∧ s.env.decayBend.toInt.natAbs ≤ 65536 ∧
    s.env.releaseBend.toInt.natAbs ≤ 65536
  amplitude : s.env.sustainAmp.toNat ≤ 65536
  pointers : s.wptr < 2 * s.cfg.ringN ∧ s.rptr < 2 * s.cfg.ringN ∧ s.wgSync < 2 * s.cfg.ringN ∧
    s.rgSync < 2 * s.cfg.ringN
  occupancy : s.occ ≤ s.cfg.ringN
  producerView : s.occ ≤ s.occSeen ∧ s.occSeen ≤ s.cfg.ringN
  consumerView : s.avail ≤ s.occ
  written : ∀ j, j < s.occ → (Memory.read s.ring (queueSlot s j)).isSome
  shadow : s.urShadow.toNat ≤ s.underrun.toNat
  ringForm : Memory.wf s.ring = true ∧ Memory.below s.cfg.ringN s.ring = true
  hwForm : ∀ h, Memory.wf (s.half h) = true ∧ Memory.below (8 * s.cfg.halfFrames) (s.half h) = true

end Sys2Proof.Safety
end

