-- ==== Sys2Proof/Certificates/Slice0/Obligations.lean ====
section
/-! DEFINITION. The statements about the block, made from the numbered rules of spec/ for the provers. A statement of what
an operation does says that it answers a next state, which state that is (every field not named keeps its value), what
becomes of memory through the reads of the model, and the response as numbers of 30_encoding.md R84, R85. -/

open Sys2Proof Sys2Proof.Machine Sys2Proof.Safety

/-! ### Encoding -/

/-- 30_encoding.md R70: the fields of the operation word and the three 32-bit words it is written as. -/
def Obligations.OperationWordHasFiveFields : Prop :=
  ∀ (op idx : BitVec 8) (imm : BitVec 16) (a b : Word),
    (opWord op idx imm a b).toNat =
      op.toNat * 2 ^ 88 + idx.toNat * 2 ^ 80 + imm.toNat * 2 ^ 64 + a.toNat * 2 ^ 32 + b.toNat ∧
    ((opWord op idx imm a b).extractLsb' 64 32).toNat = op.toNat * 2 ^ 24 + idx.toNat * 2 ^ 16 + imm.toNat ∧
    (opWord op idx imm a b).extractLsb' 32 32 = a ∧ (opWord op idx imm a b).extractLsb' 0 32 = b

/-- 30_encoding.md R83: the layout of the response word; every operation that answers a next state has put out exactly
one, at its own port, and the synchroniser steps none. -/
def Obligations.EveryOperationGivesOneResponseWord : Prop :=
  (∀ (st : Status) (aux : BitVec 24) (v : Word),
    (respWord st aux v).toNat = st.code.toNat * 2 ^ 56 + aux.toNat * 2 ^ 32 + v.toNat) ∧
  (∀ (i : Instr) (s t : State), exec i s = .next t →
    (i.agent = .ctl ∨ i.agent = .smp ∨ i.agent = .bus →
      ∃ w, t.out.resp = some (i.agent, w) ∧ statusField w ∈ [0x00, 0x01, 0x10, 0x11, 0x12, 0x13, 0x14, 0x7F]) ∧
    (i.agent = .syncw ∨ i.agent = .syncr ∨ i.agent = .syncu → t.out.resp = none))

/-- Decoding an encoded operation gives it back, with every operand at every value. -/
def Obligations.DecodeOfEncodeGivesTheOperation : Prop := ∀ i : Instr, decode (encode i) = .ok i

/-- 30_encoding.md R75: a word is read as an operation only if it is that operation's own word, so a non-zero unused bit
makes a word illegal. -/
def Obligations.EncodeOfDecodeGivesTheWord : Prop := ∀ (w : OpWord) (i : Instr), decode w = .ok i → encode i = w

/-- 30_encoding.md R72: the decoder accepts exactly the words that match a row of the opcode table. -/
def Obligations.DecodeAcceptsExactlyTheTableRows : Prop :=
  ∀ w : OpWord, (∃ i, decode w = .ok i) ↔ ∃ r ∈ opRows, w &&& r.mask = r.pattern

/-- Words written out from the encodings of 30_encoding.md R72 are read as the operations they stand for. -/
def Obligations.WrittenOutWordsDecode : Prop :=
  decode 0x020000420000000080000000 = .ok (.csrWr 0x42 0x80000000) ∧
  decode 0x101F00000000000000000001 = .ok (.debUpd 31 true) ∧
  decode 0x210100000000000000000002 = .ok (.qdecSmp 1 true false) ∧
  decode 0x34050000FFFFFFFF00010000 = .ok (.envEbend 5 0xFFFFFFFF 0x10000) ∧
  decode 0x407F00000000000000000000 = .ok (.synNoteon 127) ∧
  decode 0x510100000000000000000000 = .ok (.ringDrain true)

/-! ### The step -/

/-- A step runs the decoded operation: where the oldest input is a word that decodes to an operation of the agent that
presents it, the step is that operation's meaning with the input taken; and the word placed by `withFetchWord` is run
in the very state it was placed in. Both are the model's choice and no rule of the spec: that a step serves the oldest
element of `pending` is log 2 (DESIGN CHOICE); how `withFetchWord` numbers the bits, and that it places the word at the
head of the inputs as its own agent's request, are log 9 and log 10 (DEDUCED). -/
def Obligations.StepRunsTheDecodedOperation : Prop :=
  (∀ (s : State) (w : OpWord) (rest : List Input) (i : Instr),
    s.pending = .request i.agent w :: rest → decode w = .ok i → step s = exec i { s with pending := rest }) ∧
  (∀ (s : State) (i : Instr), step (s.withFetchWord 96 (encode i).toNat) = exec i s)

/-- 30_encoding.md R71: which agent an opcode belongs to; a word presented by another agent, and a word that is no
operation, change nothing and are answered ILLEGAL at the port they came to. The synchroniser opcodes are accepted on no
port. -/
def Obligations.WrongPortAndIllegalWordsAreAnsweredIllegal : Prop :=
  (∀ i : Instr,
    (i.opcode.toNat ≤ 0x3F → i.agent = .ctl) ∧
    (0x40 ≤ i.opcode.toNat ∧ i.opcode.toNat ≤ 0x42 ∨ i.opcode.toNat = 0x50 → i.agent = .smp) ∧
    (i.opcode.toNat = 0x51 → i.agent = .bus) ∧ (i.opcode.toNat = 0x58 → i.agent = .syncw) ∧
    (i.opcode.toNat = 0x59 → i.agent = .syncr) ∧ (i.opcode.toNat = 0x5A → i.agent = .syncu)) ∧
  (∀ (s : State) (a : Agent) (w : OpWord) (rest : List Input), s.pending = .request a w :: rest →
    a = .ctl ∨ a = .smp ∨ a = .bus → (∀ i, decode w = .ok i → i.agent ≠ a) →
    ∃ t, step s = .next t ∧ t = { s with pending := rest, out := t.out } ∧ MemorySame s t ∧ Responded t a 0x7F 0 0)

/-- 30_encoding.md R76: the range checks a mask cannot express; DEB.UPD is never out of range, and a stage that exists is
not illegal, whether or not it has the field. -/
def Obligations.OutOfRangeOperandsAreAnsweredIllegal : Prop :=
  ∀ s : State,
    (∀ b raw, s.cfg.numBtn ≤ b.toNat → AnswersIllegal (.btnUpd b raw) s) ∧
    (∀ e count, s.cfg.numQei ≤ e.toNat → AnswersIllegal (.qeiTick e count) s) ∧
    (∀ q clk dt, s.cfg.numQdec ≤ q.toNat → AnswersIllegal (.qdecSmp q clk dt) s) ∧
    (∀ q, s.cfg.numQdec ≤ q.toNat → AnswersIllegal (.qdecTick q) s) ∧
    (∀ stage x, 6 ≤ stage.toNat → AnswersIllegal (.envShape stage x) s) ∧
    (∀ stage offset vel, 6 ≤ stage.toNat → AnswersIllegal (.envEdur stage offset vel) s ∧
      AnswersIllegal (.envEamp stage offset vel) s ∧ AnswersIllegal (.envEbend stage offset vel) s) ∧
    (∀ addr, (∀ v, ¬ CsrReads s addr.toNat v) → AnswersIllegal (.csrRd addr) s) ∧
    (∀ addr data, (∀ u v, ¬ CsrWrites s data addr.toNat u v) → AnswersIllegal (.csrWr addr data) s) ∧
    (∀ lane raw, ¬ AnswersIllegal (.debUpd lane raw) s) ∧
    (∀ stage x offset vel, stage.toNat < 6 → ¬ AnswersIllegal (.envShape stage x) s ∧
      ¬ AnswersIllegal (.envEdur stage offset vel) s ∧ ¬ AnswersIllegal (.envEamp stage offset vel) s ∧
      ¬ AnswersIllegal (.envEbend stage offset vel) s)

/-! ### Reset and the invariants -/

/-- 10_state.md R36: every element of state after reset, for every configuration. -/
def Obligations.ResetGivesEveryElementItsValue : Prop :=
  ∀ c : Config, let s := State.resetWith c
    (∀ lane : Fin 32, s.lanes[lane].sr < 2 ^ c.debK[lane] ∧
      (∀ i, i < c.debK[lane] → s.lanes[lane].sr.testBit i = c.debInit[lane]) ∧
      s.lanes[lane].conf = c.debInit[lane]) ∧
    (∀ (i : Nat) (h : i < 16), s.keyMask.getLsbD i = c.debInit[i]) ∧
    (∀ b : Fin 16, s.btnPull[b] = false) ∧ (∀ e : Fin 8, s.qei[e] = ⟨false, 0⟩) ∧
    (∀ q : Fin 8, s.qdec[q].inv = false ∧ s.qdec[q].acc = false ∧ s.qdec[q].init = false ∧ s.qdec[q].prev = 0 ∧
      s.qdec[q].count = 0 ∧ s.qdec[q].vel = 0 ∧ s.qdec[q].tdec = 0 ∧ s.qdec[q].temit = 0) ∧
    s.msCount = 0 ∧
    s.env.delayDur = 0 ∧ s.env.attackDur = 0 ∧ s.env.holdDur = 0 ∧ s.env.decayDur = 0 ∧ s.env.releaseDur = 0 ∧
    s.env.attackBend = 0 ∧ s.env.decayBend = 0 ∧ s.env.releaseBend = 0 ∧ s.env.sustainAmp = 0 ∧
    (∀ v : Fin 16, s.voices[v] = .idle) ∧ (∀ slot, Memory.read s.ring slot = none) ∧
    s.wptr = 0 ∧ s.rptr = 0 ∧ s.wgSync = 0 ∧ s.rgSync = 0 ∧ s.underrun = 0 ∧ s.urShadow = 0 ∧
    (∀ h offset, s.hwByte h offset = none)

/-- 70_reset_and_hazards.md R270: the reset strobe gives every element of the spec's state its reset value. That the
inputs still to come, the samples supplied and the model's draw counter stay is the model's choice (log 2, log 4). -/
def Obligations.ResetStrobeRestoresResetValues : Prop :=
  ∀ (s : State) (rest : List Input), s.pending = .rst :: rest →
    step s = .next { State.resetWith s.cfg with pending := rest, oscIn := s.oscIn, oscDraws := s.oscDraws }

/-- The invariants of 10_state.md R37 hold after reset of every legal block, whatever inputs and samples wait, and the
reference configuration is legal. -/
def Obligations.InvariantHoldsAtReset : Prop :=
  Config.reference.Legal ∧ ∀ c : Config, c.Legal → ∀ (inputs : List Input) (samples : List (Vector (BitVec 16) 16)),
    Invariants { State.resetWith c with pending := inputs, oscIn := samples }

/-- 10_state.md R37: every step keeps the invariants, whatever input it serves. -/
def Obligations.EveryStepKeepsTheInvariant : Prop := ∀ s t : State, Invariants s → step s = .next t → Invariants t

/-- 60_exceptions.md R254: no operation and no input stops the block; every step from a state that meets the invariants
answers a next state. -/
def Obligations.NoStepStops : Prop := ∀ s : State, Invariants s → ∃ t, step s = .next t

/-- From reset of any legal block, with any inputs in any interleaving and any samples, a run of any length goes on and
ends in a state that meets the invariants. -/
def Obligations.EveryRunFromResetGoesOn : Prop :=
  ∀ c : Config, c.Legal → ∀ (inputs : List Input) (samples : List (Vector (BitVec 16) 16)) (k : Nat),
    ∃ t, Sys2Proof.core.run k { State.resetWith c with pending := inputs, oscIn := samples } = .next t ∧ Invariants t

/-- 10_state.md R10: each part of the state is written by its own agent's operations only, and no operation changes the
build parameters or the inputs still to come. -/
def Obligations.OnlyTheOwningAgentWritesAState : Prop :=
  ∀ (i : Instr) (s t : State), exec i s = .next t →
    (i.agent ≠ .ctl → CtlSame s t) ∧ (i.agent ≠ .smp → SmpSame s t) ∧ (i.agent ≠ .bus → BusSame s t) ∧
    (i.agent ≠ .syncw → t.wgSync = s.wgSync) ∧ (i.agent ≠ .syncr → t.rgSync = s.rgSync) ∧
    (i.agent ≠ .syncu → t.urShadow = s.urShadow) ∧ t.cfg = s.cfg ∧ t.pending = s.pending

/-- 60_exceptions.md R243: CTL operations share no state with the other domains but the underrun shadow; two states that
agree on the CTL domain and the shadow give the same CTL state and the same response. -/
def Obligations.ControlOperationsSeeOnlyTheControlDomain : Prop :=
  ∀ (i : Instr) (s1 s2 : State), i.agent = .ctl → s2.cfg = s1.cfg → CtlSame s1 s2 → s2.urShadow = s1.urShadow →
    ∃ t1 t2, exec i s1 = .next t1 ∧ exec i s2 = .next t2 ∧ CtlSame t1 t2 ∧ t2.out = t1.out

/-! ### SYS -/

/-- 45_system.md R231. -/
def Obligations.NopChangesNothing : Prop :=
  ∀ s : State, EncodedAs .nop 0x00 0 0 0 0 ∧
    ∃ t, exec .nop s = .next t ∧ t = { s with out := t.out } ∧ MemorySame s t ∧ Responded t .ctl 0x00 0 0

/-- 45_system.md R233: the 32-bit read value of an existing register, ILLEGAL for a reserved address, and no side
effect. -/
def Obligations.CsrReadAnswersTheRegister : Prop :=
  ∀ (s : State) (addr : BitVec 16), EncodedAs (.csrRd addr) 0x01 0 addr 0 0 ∧
    (∀ v, CsrReads s addr.toNat v →
      ∃ t, exec (.csrRd addr) s = .next t ∧ t = { s with out := t.out } ∧ MemorySame s t ∧ Responded t .ctl 0x01 0 v) ∧
    ((∀ v, ¬ CsrReads s addr.toNat v) → AnswersIllegal (.csrRd addr) s)

/-- 45_system.md R234: the legal value is stored in a writable register and answered; ILLEGAL for a reserved or
read-only address. -/
def Obligations.CsrWriteStoresTheLegalValue : Prop :=
  ∀ (s : State) (addr : BitVec 16) (data : Word), EncodedAs (.csrWr addr data) 0x02 0 addr 0 data ∧
    (∀ u v, CsrWrites s data addr.toNat u v →
      ∃ t, exec (.csrWr addr data) s = .next t ∧ t = { u with out := t.out } ∧ MemorySame s t ∧
        Responded t .ctl 0x01 0 v) ∧
    ((∀ u v, ¬ CsrWrites s data addr.toNat u v) → AnswersIllegal (.csrWr addr data) s)

/-- 10_state.md R34: a read after a write returns the value the write answered, which is the legal value. -/
def Obligations.CsrReadAfterWriteReturnsWhatWasStored : Prop :=
  ∀ (s u : State) (addr : BitVec 16) (data v : Word), CsrWrites s data addr.toNat u v →
    ∃ t r, exec (.csrWr addr data) s = .next t ∧ exec (.csrRd addr) t = .next r ∧ Responded r .ctl 0x01 0 v

/-- 45_system.md R235. -/
def Obligations.MsTickCountsModulo32Bits : Prop :=
  ∀ s : State, EncodedAs .msTick 0x03 0 0 0 0 ∧
    ∃ t, exec .msTick s = .next t ∧ t = { s with msCount := t.msCount, out := t.out } ∧ MemorySame s t ∧
      t.msCount.toNat = (s.msCount.toNat + 1) % 2 ^ 32 ∧ Responded t .ctl 0x00 0 0

/-! ### DEB -/

/-- 40_debounce.md R101: one sample into one lane, for every depth K of at least 1. -/
def Obligations.DebounceUpdateShiftsAndConfirms : Prop :=
  ∀ (s : State) (lane : BitVec 5) (raw : Bool), let l := laneIdx lane
    1 ≤ s.cfg.debK[l] →
    EncodedAs (.debUpd lane raw) 0x10 (lane.setWidth 8) 0 0 (bit0 raw) ∧ l.val = lane.toNat ∧
    ∃ t new, exec (.debUpd lane raw) s = .next t ∧ t = { s with lanes := s.lanes.set l new, out := t.out } ∧
      MemorySame s t ∧ new.sr < 2 ^ s.cfg.debK[l] ∧ new.sr.testBit 0 = raw ∧
      (∀ i, i + 1 < s.cfg.debK[l] → new.sr.testBit (i + 1) = s.lanes[l].sr.testBit i) ∧
      if (∀ i < s.cfg.debK[l], new.sr.testBit i = true) ∧ s.lanes[l].conf = false then
        new.conf = true ∧ Responded t .ctl 0x01 1 0
      else if (∀ i < s.cfg.debK[l], new.sr.testBit i = false) ∧ s.lanes[l].conf = true then
        new.conf = false ∧ Responded t .ctl 0x01 2 0
      else new.conf = s.lanes[l].conf ∧ Responded t .ctl 0x00 0 0

/-- 40_debounce.md R102 (a): from a lane at its reset value and for any samples, the last sample reports an edge exactly
where it is the last of K identical samples that differ from the level confirmed before it. -/
def Obligations.EdgeExactlyAfterKDifferingSamples : Prop :=
  ∀ (s : State) (lane : BitVec 5) (samples : List Bool) (raw : Bool),
    1 ≤ s.cfg.debK[laneIdx lane] →
    s.lanes[laneIdx lane] = laneAtReset s.cfg.debK[laneIdx lane] s.cfg.debInit[laneIdx lane] →
    ∃ t u, feedLane lane samples s = .next t ∧ exec (.debUpd lane raw) t = .next u ∧
      ((∃ aux, Responded u .ctl 0x01 aux 0) ↔
        s.cfg.debK[laneIdx lane] ≤ samples.length + 1 ∧
        (∀ x ∈ (raw :: samples.reverse).take s.cfg.debK[laneIdx lane], x = raw) ∧
        t.lanes[laneIdx lane].conf = !raw)

/-- 40_debounce.md R104: BTN.UPD has the state change of DEB.UPD on lane 16 + b, and names the edge by the pull policy.
The table of R105 by which it names the edge is the spec's own convention, "[from general knowledge, not in source]". -/
def Obligations.ButtonUpdateNamesTheEdgeByPolarity : Prop :=
  ∀ (s : State) (b : BitVec 4) (raw : Bool),
    EncodedAs (.btnUpd b raw) 0x11 (b.setWidth 8) 0 0 (bit0 raw) ∧
    (s.cfg.numBtn ≤ b.toNat → AnswersIllegal (.btnUpd b raw) s) ∧
    (b.toNat < s.cfg.numBtn → ∃ t u, exec (.debUpd (BitVec.ofNat 5 (16 + b.toNat)) raw) s = .next t ∧ exec (.btnUpd b raw) s = .next u ∧
      u = { t with out := u.out } ∧ MemorySame s u ∧
      (Responded t .ctl 0x00 0 0 ∧ Responded u .ctl 0x00 0 0 ∨
       Responded t .ctl 0x01 1 0 ∧ Responded u .ctl 0x01 (if s.btnPull[buttonIdx b] then 2 else 1) 0 ∨
       Responded t .ctl 0x01 2 0 ∧ Responded u .ctl 0x01 (if s.btnPull[buttonIdx b] then 1 else 2) 0))

/-- 40_debounce.md R106: the changed bits of two masks, and the event sequence low bit first. -/
def Obligations.MaskDifferenceClassifiesChangedBits : Prop :=
  ∀ (s : State) (old new : BitVec 16),
    EncodedAs (.maskDiff old new) 0x13 0 0 (BitVec.ofNat 32 old.toNat) (BitVec.ofNat 32 new.toNat) ∧
    (∃ t v, exec (.maskDiff old new) s = .next t ∧ t = { s with out := t.out } ∧ MemorySame s t ∧
      Responded t .ctl (if old = new then 0x00 else 0x01) (BitVec.ofNat 24 new.toNat) v ∧
      (∀ i < 16, v.getLsbD i = (new.getLsbD i && !old.getLsbD i)) ∧
      (∀ i < 16, v.getLsbD (16 + i) = (old.getLsbD i && !new.getLsbD i))) ∧
    (∀ i, (i, Edge.rising) ∈ maskEvents old new ↔ i < 16 ∧ old.getLsbD i = false ∧ new.getLsbD i = true) ∧
    (∀ i, (i, Edge.falling) ∈ maskEvents old new ↔ i < 16 ∧ old.getLsbD i = true ∧ new.getLsbD i = false) ∧
    ((maskEvents old new).map Prod.fst).Pairwise (· < ·)

/-- 40_debounce.md R107: the state change of DEB.UPD on each key lane, the new mask, and the response of MASK.DIFF from
the old mask to the new one. -/
def Obligations.KeyScanSamplesEveryKeyLane : Prop :=
  ∀ (s : State) (raw16 : BitVec 16), EncodedAs (.keyScan raw16) 0x12 0 raw16 0 0 ∧
    ∃ t u, exec (.keyScan raw16) s = .next t ∧
      t = { s with lanes := t.lanes, keyMask := t.keyMask, out := t.out } ∧ MemorySame s t ∧
      (∀ (i : Nat) (h : i < 16), ∃ d, exec (.debUpd (BitVec.ofNat 5 i) (raw16.getLsbD i)) s = .next d ∧
        t.lanes[i] = d.lanes[i]) ∧
      (∀ (i : Nat) (h : i < 32), 16 ≤ i → t.lanes[i] = s.lanes[i]) ∧
      (∀ (i : Nat) (h : i < 16), t.keyMask.getLsbD i = t.lanes[i].conf) ∧
      exec (.maskDiff s.keyMask t.keyMask) s = .next u ∧ t.out = u.out

/-- 40_debounce.md R107, corner case: where the mask agrees with the confirmed levels before the scan, a bit of the mask
changes exactly where its lane reports an edge. -/
def Obligations.KeyMaskChangesExactlyOnLaneEdges : Prop :=
  ∀ (s : State) (raw16 : BitVec 16), (∀ (i : Nat) (h : i < 16), s.keyMask.getLsbD i = s.lanes[i].conf) →
    ∃ t, exec (.keyScan raw16) s = .next t ∧
      (∀ (i : Nat) (h : i < 16), t.keyMask.getLsbD i = t.lanes[i].conf) ∧
      ∀ i < 16, ∃ d, exec (.debUpd (BitVec.ofNat 5 i) (raw16.getLsbD i)) s = .next d ∧
        (s.keyMask.getLsbD i = false ∧ t.keyMask.getLsbD i = true ↔ Responded d .ctl 0x01 1 0) ∧
        (s.keyMask.getLsbD i = true ∧ t.keyMask.getLsbD i = false ↔ Responded d .ctl 0x01 2 0)

/-! ### ROT -/

/-- 41_rotary.md R121, R122: the wrapped signed difference, the threshold, the halving toward zero and the direction. -/
def Obligations.QeiTickReportsHalfTheDifference : Prop :=
  ∀ (s : State) (e : BitVec 3) (count : BitVec 16),
    let d := s.qei[decoderIdx e]
    let diff := Int.bmod ((count.toNat : Int) - d.prev.toNat) (2 ^ 16)
    EncodedAs (.qeiTick e count) 0x20 (e.setWidth 8) count 0 0 ∧ -32768 ≤ diff ∧ diff ≤ 32767 ∧
    (s.cfg.numQei ≤ e.toNat → AnswersIllegal (.qeiTick e count) s) ∧
    (e.toNat < s.cfg.numQei → ∃ t, exec (.qeiTick e count) s = .next t ∧ MemorySame s t ∧
      if -2 < diff ∧ diff < 2 then t = { s with out := t.out } ∧ Responded t .ctl 0x00 0 0
      else t = { s with qei := s.qei.set (decoderIdx e) ⟨d.inv, count⟩, out := t.out } ∧
        ∃ v, Responded t .ctl 0x01 0 v ∧ v.toInt = (if d.inv then -(diff.tdiv 2) else diff.tdiv 2) ∧ v ≠ 0)

/-- 41_rotary.md R126: whole decay periods, the velocity floored at 0, the time moved by whole periods. -/
def Obligations.VelocityDecaysByWholePeriods : Prop :=
  ∀ (c : Config) (ms : Word) (d : Qdec),
    let n := (Int.emod ((ms.toNat : Int) - d.tdec.toNat) (2 ^ 32)).toNat / c.velocityDecFrequency
    let r := decayed c ms d
    r = { d with vel := r.vel, tdec := r.tdec } ∧
    (n = 0 → r = d) ∧
    (r.vel.toNat : Int) = max 0 ((d.vel.toNat : Int) - n * c.velDec) ∧
    r.tdec.toNat = (d.tdec.toNat + n * c.velocityDecFrequency) % 2 ^ 32

/-- 41_rotary.md R125: one sample of the two lines. A turn is a move to the next or the previous place of the cycle
00, 10, 11, 01; the opposite place is invalid. Which moves are clockwise, counterclockwise and invalid is the table of
R124, which the spec marks "[from general knowledge, not in source]" and calls "this spec's choice". -/
def Obligations.QdecSampleCountsTransitions : Prop :=
  ∀ (s : State) (q : BitVec 3) (clk dt : Bool),
    let d := s.qdec[decoderIdx q]
    let d1 := if d.acc then decayed s.cfg s.msCount d else d
    let new : BitVec 2 := BitVec.ofNat 2 (2 * clk.toNat + dt.toNat)
    EncodedAs (.qdecSmp q clk dt) 0x21 (q.setWidth 8) 0 0 (BitVec.ofNat 32 (2 * clk.toNat + dt.toNat)) ∧
    (s.cfg.numQdec ≤ q.toNat → AnswersIllegal (.qdecSmp q clk dt) s) ∧
    (q.toNat < s.cfg.numQdec → ∃ t r, exec (.qdecSmp q clk dt) s = .next t ∧
      t = { s with qdec := s.qdec.set (decoderIdx q) r, out := t.out } ∧ MemorySame s t ∧
      r = { d1 with init := true, prev := new, count := r.count, vel := r.vel } ∧
      if d1.init = false ∨ cyclePos new = cyclePos d1.prev then
        r.count = d1.count ∧ r.vel = d1.vel ∧ Responded t .ctl 0x00 0 0
      else if cyclePos new = (cyclePos d1.prev + 2) % 4 then
        r.count = d1.count ∧ r.vel = d1.vel ∧ Responded t .ctl 0x14 0 0
      else
        r.vel.toNat = (if d.acc then min 65536 (d1.vel.toNat + s.cfg.velInc) else d1.vel.toNat) ∧
        if cyclePos new = (cyclePos d1.prev + 1) % 4 then
          r.count.toInt = Int.bmod (d1.count.toInt + 1) (2 ^ 32) ∧ Responded t .ctl 0x01 1 0
        else r.count.toInt = Int.bmod (d1.count.toInt - 1) (2 ^ 32) ∧ Responded t .ctl 0x01 2 0)

/-- 41_rotary.md R127: one control tick, in standard and in accelerated mode. -/
def Obligations.QdecTickReportsTheAccumulatedDelta : Prop :=
  ∀ (s : State) (q : BitVec 3),
    let d := s.qdec[decoderIdx q]
    let d1 := decayed s.cfg s.msCount d
    let elapsed := (Int.emod ((s.msCount.toNat : Int) - d.temit.toNat) (2 ^ 32)).toNat
    EncodedAs (.qdecTick q) 0x22 (q.setWidth 8) 0 0 0 ∧
    (s.cfg.numQdec ≤ q.toNat → AnswersIllegal (.qdecTick q) s) ∧
    (q.toNat < s.cfg.numQdec → ∃ t r, exec (.qdecTick q) s = .next t ∧
      t = { s with qdec := s.qdec.set (decoderIdx q) r, out := t.out } ∧ MemorySame s t ∧
      if d.acc = false then
        r = { d with count := 0 } ∧
        if d.count = 0 then Responded t .ctl 0x00 0 0 else Responded t .ctl 0x01 0 (signedBy d.inv d.count)
      else if s.cfg.updateFrequency < elapsed ∧ d.count ≠ 0 then
        r = { d1 with count := 0, temit := s.msCount } ∧
        Responded t .ctl 0x01 (BitVec.ofNat 24 d1.vel.toNat) (signedBy d.inv d.count)
      else r = d1 ∧ Responded t .ctl 0x00 0 0)

/-- 41_rotary.md R129: a zero net delta is never reported as a change, by either decoder in either mode. -/
def Obligations.ZeroDeltaIsNeverReported : Prop :=
  ∀ (s : State),
    (∀ e count, e.toNat < s.cfg.numQei → ∃ t, exec (.qeiTick e count) s = .next t ∧
      ∀ aux v, Responded t .ctl 0x01 aux v → v ≠ 0) ∧
    (∀ q, q.toNat < s.cfg.numQdec → ∃ t, exec (.qdecTick q) s = .next t ∧
      ∀ aux v, Responded t .ctl 0x01 aux v → v ≠ 0)

/-! ### ENV -/

/-- 42_envelope.md R151, R152, R153: every entry of the table is the integer nearest to `2^20 * 2^(-i/64)`, the table
falls strictly from `2^20` to `2^19`; the exponential interpolates between its entries and is halved once per octave; `g`
is its complement at the exponent scaled by 1890969 (`IsCurveEntry`, `interpolatedExp` and `shaperG` of Safety.lean are
written apart from the machine). The exponential is non-increasing; `g` starts at 0, is non-decreasing in both arguments,
and is large enough to divide by on the exponential branch. -/
def Obligations.ShaperExponentialIsMonotone : Prop :=
  (∀ i ≤ 64, IsCurveEntry i (lutRead i)) ∧ lutRead 0 = 2 ^ 20 ∧ lutRead 64 = 2 ^ 19 ∧
  (∀ i < 64, lutRead (i + 1) < lutRead i) ∧
  (∀ p, exp2neg p = interpolatedExp lutRead p) ∧ (∀ ab z, curveG ab z = shaperG lutRead ab z) ∧
  exp2neg 0 = 2 ^ 20 ∧ (∀ p q, p ≤ q → exp2neg q ≤ exp2neg p) ∧ (∀ p, 21 * 65536 ≤ p → exp2neg p = 0) ∧
  (∀ ab, curveG ab 0 = 0) ∧ (∀ ab z z', z ≤ z' → curveG ab z ≤ curveG ab z') ∧
  (∀ ab ab' z, ab ≤ ab' → curveG ab z ≤ curveG ab' z) ∧ (∀ ab z, curveG ab z ≤ 2 ^ 20) ∧
  (∀ ab, 656 ≤ ab → 190000 ≤ curveG ab 65536)

/-- 42_envelope.md R154 with the clamping of 30_encoding.md R74: the operands, the three branches and the response. `g` is
that of R151 to R153 as Safety.lean writes it, over the model's table, whose entries
`Obligations.ShaperExponentialIsMonotone` fixes. -/
def Obligations.EnvCurveAnswersTheShaper : Prop :=
  ∀ (s : State) (x bend : Word),
    let xc := clampedTo (-65536) 65536 x
    let bc := clampedTo (-65536) 65536 bend
    let ab := bc.natAbs
    let ax := xc.natAbs
    let den := shaperG lutRead ab 65536
    let f : Int :=
      if bc < 0 then ((shaperG lutRead ab ax * 65536 + den / 2) / den : Nat)
      else 65536 - ((shaperG lutRead ab (65536 - ax) * 65536 + den / 2) / den : Nat)
    EncodedAs (.envCurve x bend) 0x30 0 0 x bend ∧
    ∃ t, exec (.envCurve x bend) s = .next t ∧ t = { s with out := t.out } ∧ MemorySame s t ∧
      ∃ v, Responded t .ctl 0x01 0 v ∧
        v.toInt = if ax * 100 < 65536 then 0 else if ab * 100 < 65536 then xc else xc.sign * min (max f 0) 65536

/-- 42_envelope.md R161 (a), (b), (d), (e), (f), (g): dead zone, linear branch, exact ends, odd symmetry, bound. -/
def Obligations.CurveHasTheStatedShape : Prop :=
  ∀ x b : Int, -65536 ≤ x → x ≤ 65536 → -65536 ≤ b → b ≤ 65536 →
    (-655 ≤ x → x ≤ 655 → curveY x b = 0) ∧
    ((x ≤ -656 ∨ 656 ≤ x) → -655 ≤ b → b ≤ 655 → curveY x b = x) ∧
    curveY 65536 b = 65536 ∧ curveY (-65536) b = -65536 ∧
    curveY (-x) b = -curveY x b ∧ -65536 ≤ curveY x b ∧ curveY x b ≤ 65536

/-- 42_envelope.md R161 (c): the curve is non-decreasing in `x` for a fixed bend. -/
def Obligations.CurveIsMonotoneInX : Prop :=
  ∀ x x' b : Int, -65536 ≤ x → x ≤ x' → x' ≤ 65536 → -65536 ≤ b → b ≤ 65536 → curveY x b ≤ curveY x' b

/-- 42_envelope.md R155: ENV.SHAPE answers as ENV.CURVE with the stage's bend, or with bend 0 where the stage has none. -/
def Obligations.EnvShapeUsesTheStageBend : Prop :=
  ∀ (s : State) (stage : BitVec 3) (x : Word),
    EncodedAs (.envShape stage x) 0x31 (stage.setWidth 8) 0 x 0 ∧
    (6 ≤ stage.toNat → AnswersIllegal (.envShape stage x) s) ∧
    (stage.toNat < 6 → ∃ t u, exec (.envShape stage x) s = .next t ∧
      exec (.envCurve x (BitVec.ofInt 32 (
        if stage = 1 then s.env.attackBend.toInt else if stage = 3 then s.env.decayBend.toInt
        else if stage = 5 then s.env.releaseBend.toInt else 0))) s = .next u ∧
      t = u ∧ t = { s with out := t.out } ∧ MemorySame s t)

/-- 42_envelope.md R157: the step from the order of magnitude of the duration, the minimum unit step, the clamp. -/
def Obligations.EnvDurationEditSteps : Prop :=
  ∀ (s : State) (stage : BitVec 3) (offset vel : Word),
    EncodedAs (.envEdur stage offset vel) 0x32 (stage.setWidth 8) 0 offset vel ∧
    (6 ≤ stage.toNat → AnswersIllegal (.envEdur stage offset vel) s) ∧
    (∀ (cur new : BitVec 14) (e : Env), StageDur s.env new stage.toNat cur e →
      new = BitVec.ofInt 14
        (min (max (cur.toNat + durStepOf cur.toNat offset.toInt (min vel.toNat 65536)) 0) 10000) →
      ∃ t, exec (.envEdur stage offset vel) s = .next t ∧ t = { s with env := e, out := t.out } ∧ MemorySame s t ∧
        Responded t .ctl (if new = cur then 0x00 else 0x01) 0 (BitVec.ofNat 32 new.toNat))

/-- 42_envelope.md R158: the amplitude step with its minimum, and the clamp. -/
def Obligations.EnvAmplitudeEditSteps : Prop :=
  ∀ (s : State) (offset vel : Word),
    let rounded : Int := ((offset.toInt.natAbs * min vel.toNat 65536 * 3277 + 32768) / 65536 : Nat)
    let mag : Int := if offset.toInt = 0 then rounded else max rounded 655
    let new : BitVec 17 := BitVec.ofInt 17 (min (max (s.env.sustainAmp.toNat + offset.toInt.sign * mag) 0) 65536)
    (∀ stage : BitVec 3, EncodedAs (.envEamp stage offset vel) 0x33 (stage.setWidth 8) 0 offset vel ∧
      (6 ≤ stage.toNat → AnswersIllegal (.envEamp stage offset vel) s)) ∧
    ∃ t, exec (.envEamp 4 offset vel) s = .next t ∧
      t = { s with env := { s.env with sustainAmp := new }, out := t.out } ∧ MemorySame s t ∧
      Responded t .ctl (if new = s.env.sustainAmp then 0x00 else 0x01) 0 (BitVec.ofNat 32 new.toNat)

/-- 42_envelope.md R159: the bend step, without a minimum, and the clamp. -/
def Obligations.EnvBendEditSteps : Prop :=
  ∀ (s : State) (stage : BitVec 3) (offset vel : Word),
    EncodedAs (.envEbend stage offset vel) 0x34 (stage.setWidth 8) 0 offset vel ∧
    (6 ≤ stage.toNat → AnswersIllegal (.envEbend stage offset vel) s) ∧
    (∀ (cur new : BitVec 18) (e : Env), StageBend s.env new stage.toNat cur e →
      new = BitVec.ofInt 18
        (min (max (cur.toInt + nearestQ16 (offset.toInt * (min vel.toNat 65536 : Nat) * 6554)) (-65536)) 65536) →
      ∃ t, exec (.envEbend stage offset vel) s = .next t ∧ t = { s with env := e, out := t.out } ∧ MemorySame s t ∧
        Responded t .ctl (if new = cur then 0x00 else 0x01) 0 (BitVec.ofInt 32 new.toInt))

/-- 42_envelope.md R160: editing a field a stage does not have changes nothing and responds NONE with value 0 (for the
amplitude this is the spec's own inference, "[derived: from 10_state.md rule R18]"). -/
def Obligations.EditingAnAbsentFieldIsANoOp : Prop :=
  ∀ (s : State) (stage : BitVec 3) (offset vel : Word) (i : Instr),
    i = .envEdur 4 offset vel ∨
    i = .envEbend stage offset vel ∧ (stage = 0 ∨ stage = 2 ∨ stage = 4) ∨
    i = .envEamp stage offset vel ∧ stage.toNat < 6 ∧ stage ≠ 4 →
    ∃ t, exec i s = .next t ∧ t = { s with out := t.out } ∧ MemorySame s t ∧ Responded t .ctl 0x00 0 0

/-! ### SYN -/

/-- 43_synth.md R183: the first idle voice takes the note and its oscillator is told; with none idle the note is
dropped. -/
def Obligations.NoteOnTakesTheFirstIdleVoice : Prop :=
  ∀ (s : State) (note : BitVec 7),
    EncodedAs (.synNoteon note) 0x40 (note.setWidth 8) 0 0 0 ∧
    ∃ t, exec (.synNoteon note) s = .next t ∧ t = { s with voices := t.voices, out := t.out } ∧ MemorySame s t ∧
      ((∃ v : Fin 16, v.val < s.cfg.numVoices ∧ s.voices[v] = .idle ∧ (∀ w : Fin 16, w < v → s.voices[w] ≠ .idle) ∧
          t.voices = s.voices.set v (.sounding note) ∧
          RespondedWith t .smp 0x01 (BitVec.ofNat 24 v.val) 0 [.set v.val note]) ∨
       ((∀ w : Fin 16, w.val < s.cfg.numVoices → s.voices[w] ≠ .idle) ∧ t.voices = s.voices ∧
          Responded t .smp 0x10 0 0))

/-- 43_synth.md R184: the first voice sounding the note becomes idle; with none it is a no-op. -/
def Obligations.NoteOffSilencesTheFirstMatch : Prop :=
  ∀ (s : State) (note : BitVec 7),
    EncodedAs (.synNoteoff note) 0x41 (note.setWidth 8) 0 0 0 ∧
    ∃ t, exec (.synNoteoff note) s = .next t ∧ t = { s with voices := t.voices, out := t.out } ∧ MemorySame s t ∧
      ((∃ v : Fin 16, v.val < s.cfg.numVoices ∧ s.voices[v] = .sounding note ∧
          (∀ w : Fin 16, w < v → s.voices[w] ≠ .sounding note) ∧
          t.voices = s.voices.set v .idle ∧ Responded t .smp 0x01 (BitVec.ofNat 24 v.val) 0) ∨
       ((∀ w : Fin 16, w.val < s.cfg.numVoices → s.voices[w] ≠ .sounding note) ∧ t.voices = s.voices ∧
          Responded t .smp 0x11 0 0))

/-- 43_synth.md R185, R186: every sounding voice is pulled, the exact sum of sample times gain is saturated to 32 bits,
pushed on both channels and answered; the samples are whatever the oscillator port answers. Where the samples come from
and how they are used up (`oscSamples`, and the clause `oscIn := s.oscIn.tail, oscDraws := s.oscDraws + 1`) is the model's
choice, DESIGN CHOICE of log 4. -/
def Obligations.SynTickMixesAndPushes : Prop :=
  ∀ s : State,
    let sounding := (List.range s.cfg.numVoices).filter fun v =>
      decide (∃ n, s.voices[v]? = some (.sounding n))
    let sum : Int := (sounding.map fun v => (s.oscSamples v).toInt * (s.cfg.voiceGainQ16 : Int)).sum
    EncodedAs .synTick 0x42 0 0 0 0 ∧
    ∃ t m, exec .synTick s = .next t ∧ m.toInt = min (max sum (-2 ^ 31)) (2 ^ 31 - 1) ∧ HwSame s t ∧
      t = { s with
        ring := t.ring, wptr := t.wptr, oscIn := s.oscIn.tail, oscDraws := s.oscDraws + 1, out := t.out } ∧
      RespondedWith t .smp (if s.occSeen = s.cfg.ringN then 0x12 else 0x01) 0 m (sounding.map .pull) ∧
      ∃ u, exec (.ringPush m m) s = .next u ∧ t.ring = u.ring ∧ t.wptr = u.wptr

/-- 43_synth.md R180: a voice starts to sound only by SYN.NOTEON and falls idle only by SYN.NOTEOFF; there is no other
transition. -/
def Obligations.VoicesChangeOnlyByNoteOnAndNoteOff : Prop :=
  ∀ (i : Instr) (s t : State), exec i s = .next t → ∀ v : Fin 16,
    t.voices[v] = s.voices[v] ∨
    (∃ n, i = .synNoteon n ∧ s.voices[v] = .idle ∧ t.voices[v] = .sounding n) ∨
    (∃ n, i = .synNoteoff n ∧ s.voices[v] = .sounding n ∧ t.voices[v] = .idle)

/-- 43_synth.md R187, first property: on an idle pool the k-th of NUM_VOICES notes takes voice k - 1, and one note more is
dropped and changes no voice. -/
def Obligations.OneNoteMoreThanVoicesIsDropped : Prop :=
  ∀ (s : State) (notes : List (BitVec 7)) (extra : BitVec 7), s.cfg.numVoices ≤ 16 →
    (∀ v : Fin 16, s.voices[v] = .idle) → notes.length = s.cfg.numVoices →
    ∃ t u, playNotes notes s = .next t ∧ exec (.synNoteon extra) t = .next u ∧
      (∀ (v : Nat) (h : v < notes.length) (h' : v < 16), t.voices[v] = .sounding notes[v]) ∧
      u.voices = t.voices ∧ Responded u .smp 0x10 0 0

/-! ### RING -/

/-- 44_ring.md R201: a push into a ring the producer sees full changes nothing; another writes the slot of the write
pointer, and no other, and moves the pointer by one. -/
def Obligations.PushWritesOneSlotOrDrops : Prop :=
  ∀ (s : State) (l r : Word), EncodedAs (.ringPush l r) 0x50 0 0 l r ∧
    ∃ t, exec (.ringPush l r) s = .next t ∧ t = { s with ring := t.ring, wptr := t.wptr, out := t.out } ∧ HwSame s t ∧
      if wrap s.cfg.ptrWidth ((s.wptr : Int) - ungray s.cfg.ptrWidth s.rgSync) = s.cfg.ringN then
        RingSame s t ∧ t.wptr = s.wptr ∧ Responded t .smp 0x12 0 0
      else
        t.wptr = (s.wptr + 1) % (2 * s.cfg.ringN) ∧
        Memory.read t.ring (s.wptr % s.cfg.ringN) = some ⟨l, r⟩ ∧
        (∀ slot, slot ≠ s.wptr % s.cfg.ringN → Memory.read t.ring slot = Memory.read s.ring slot) ∧
        Responded t .smp 0x01 0 0

/-- 44_ring.md R204, 20_memory.md R43, R45: a drain moves the frames the consumer sees, up to a half, into the frame slots
of the half, writes no other byte, moves the read pointer, and counts and answers the deficit. The slots it reads must
have been written: 10_state.md R37 (d), which every run from reset keeps. -/
def Obligations.DrainFillsTheHalf : Prop :=
  ∀ (s : State) (h : Bool),
    let avail := wrap s.cfg.ptrWidth ((ungray s.cfg.ptrWidth s.wgSync : Int) - s.rptr)
    let n := min avail s.cfg.halfFrames
    let deficit := s.cfg.halfFrames - n
    (∀ j < n, (Memory.read s.ring ((s.rptr + j) % s.cfg.ringN)).isSome) →
    EncodedAs (.ringDrain h) 0x51 (if h then 1 else 0) 0 0 0 ∧
    ∃ t, exec (.ringDrain h) s = .next t ∧
      t = { s with rptr := t.rptr, underrun := t.underrun, hwbuf0 := t.hwbuf0, hwbuf1 := t.hwbuf1, out := t.out } ∧
      RingSame s t ∧ t.rptr = wrap s.cfg.ptrWidth (s.rptr + n) ∧
      (∀ j < n, ∃ f, Memory.read s.ring ((s.rptr + j) % s.cfg.ringN) = some f ∧ HoldsFrame (t.half h) j f) ∧
      (∀ offset, 8 * n ≤ offset → t.hwByte h offset = s.hwByte h offset) ∧
      (∀ offset, t.hwByte (!h) offset = s.hwByte (!h) offset) ∧
      (if deficit = 0 then t.underrun = s.underrun ∧ Responded t .bus 0x01 (BitVec.ofNat 24 n) 0
       else t.underrun.toNat = min (2 ^ 32 - 1) (s.underrun.toNat + deficit) ∧
        Responded t .bus 0x13 (BitVec.ofNat 24 n) (BitVec.ofNat 32 deficit))

/-- 10_state.md R36, 93_implementation_defined.md P11, as log 6 reads them (DEDUCED): a drain that is asked to read a ring
slot without a value is a fault of the model, which names the first such slot it comes to, and only then does an
operation stop. -/
def Obligations.OnlyReadingAnUnwrittenSlotStops : Prop :=
  (∀ (i : Instr) (s : State),
    (∃ t, exec i s = .next t) ∨
    ∃ h j, i = .ringDrain h ∧ j < min s.avail s.cfg.halfFrames ∧
      Memory.read s.ring ((s.rptr + j) % s.cfg.ringN) = none ∧
      exec i s = .fault (.ringSlotUnwritten ((s.rptr + j) % s.cfg.ringN))) ∧
  (∀ (s : State) (h : Bool) (j : Nat), j < min s.avail s.cfg.halfFrames →
    Memory.read s.ring ((s.rptr + j) % s.cfg.ringN) = none →
    (∀ k < j, (Memory.read s.ring ((s.rptr + k) % s.cfg.ringN)).isSome) →
    exec (.ringDrain h) s = .fault (.ringSlotUnwritten ((s.rptr + j) % s.cfg.ringN)))

/-- 44_ring.md R205: only RING.DRAIN moves the underrun counter, by the deficit, saturating; no operation lowers it. -/
def Obligations.OnlyDrainMovesTheUnderrunCounter : Prop :=
  ∀ (i : Instr) (s t : State), exec i s = .next t →
    s.underrun.toNat ≤ t.underrun.toNat ∧ ((∀ h, i ≠ .ringDrain h) → t.underrun = s.underrun) ∧
    (∀ h, i = .ringDrain h → t.underrun.toNat =
      min (2 ^ 32 - 1) (s.underrun.toNat + (s.cfg.halfFrames - min s.avail s.cfg.halfFrames)))

/-- 10_state.md R28: the value of `UNDERRUN` is never above the counter and never falls in a step other than a reset. -/
def Obligations.UnderrunRegisterNeverFalls : Prop :=
  ∀ s t : State, Invariants s → step s = .next t → (∀ rest, s.pending ≠ .rst :: rest) →
    s.urShadow.toNat ≤ t.urShadow.toNat ∧ t.urShadow.toNat ≤ t.underrun.toNat

/-- 44_ring.md R202: `ungray_W` undoes `gray_W`; consecutive counts, also at the wrap of the W-bit count, have codes
that differ in exactly one bit; and the full test on counts is the test that the codes differ in their two top bits. -/
def Obligations.ConsecutiveCountsDifferInOneGrayBit : Prop :=
  ∀ w b : Nat, 2 ≤ w → b < 2 ^ w →
    gray b < 2 ^ w ∧ ungray w (gray b) = b ∧ (∃ k < w, gray b ^^^ gray ((b + 1) % 2 ^ w) = 2 ^ k) ∧
    ∀ a : Nat, a < 2 ^ w →
      (wrap w ((a : Int) - (b : Int)) = 2 ^ (w - 1) ↔ gray a = gray b ^^^ 2 ^ (w - 1) ^^^ 2 ^ (w - 2))

/-- 44_ring.md R208: an enabled RING.SYNCW moves the consumer's copy of the write pointer forward by `adv`, and by the
whole lag catches it up. -/
def Obligations.SyncWriteMovesTheConsumersCopy : Prop :=
  ∀ (s : State) (adv : Word), s.wptr < 2 * s.cfg.ringN →
    EncodedAs (.ringSyncw adv) 0x58 0 0 0 adv ∧
    let lag := wrap s.cfg.ptrWidth ((s.wptr : Int) - s.wSeen)
    (adv.toNat ≤ lag → ∃ t, exec (.ringSyncw adv) s = .next t ∧
      t = { s with wgSync := t.wgSync, out := ⟨none, []⟩ } ∧ MemorySame s t ∧
      t.wSeen = (s.wSeen + adv.toNat) % (2 * s.cfg.ringN) ∧ t.wgSync = gray t.wSeen ∧
      (adv.toNat = lag → t.wSeen = s.wptr))

/-- 44_ring.md R209, likewise for RING.SYNCR and the producer's copy of the read pointer. -/
def Obligations.SyncReadMovesTheProducersCopy : Prop :=
  ∀ (s : State) (adv : Word), s.rptr < 2 * s.cfg.ringN →
    EncodedAs (.ringSyncr adv) 0x59 0 0 0 adv ∧
    let lag := wrap s.cfg.ptrWidth ((s.rptr : Int) - s.rSeen)
    (adv.toNat ≤ lag → ∃ t, exec (.ringSyncr adv) s = .next t ∧
      t = { s with rgSync := t.rgSync, out := ⟨none, []⟩ } ∧ MemorySame s t ∧
      t.rSeen = (s.rSeen + adv.toNat) % (2 * s.cfg.ringN) ∧ t.rgSync = gray t.rSeen ∧
      (adv.toNat = lag → t.rSeen = s.rptr))

/-- The model's choice (log 8), no rule of the spec: a synchroniser step that 44_ring.md R208 and R209 do not enable does
not happen; the state stays and nothing is put out. -/
def Obligations.SynchroniserStepsNotEnabledDoNotHappen : Prop :=
  ∀ (s : State) (adv : Word),
    (wrap s.cfg.ptrWidth ((s.wptr : Int) - s.wSeen) < adv.toNat →
      exec (.ringSyncw adv) s = .next { s with out := ⟨none, []⟩ }) ∧
    (wrap s.cfg.ptrWidth ((s.rptr : Int) - s.rSeen) < adv.toNat →
      exec (.ringSyncr adv) s = .next { s with out := ⟨none, []⟩ })

/-- 44_ring.md R210. -/
def Obligations.SyncUnderrunDeliversTheCounter : Prop :=
  ∀ s : State, EncodedAs .ringSyncu 0x5A 0 0 0 0 ∧
    ∃ t, exec .ringSyncu s = .next t ∧ t = { s with urShadow := s.underrun, out := ⟨none, []⟩ } ∧ MemorySame s t

/-- 20_memory.md R47: the ring is a first-in first-out queue. An accepted push appends its frame, SYN.TICK appends the
mix it answers on both channels where the producer sees room (43_synth.md R186), a drain takes the oldest frames in order
into the frame slots of the half, and every other operation leaves the queue alone. -/
def Obligations.RingIsAFirstInFirstOutQueue : Prop :=
  ∀ s : State, Invariants s →
    (queue s).length = s.occ ∧
    (∀ l r, ∃ t, exec (.ringPush l r) s = .next t ∧
      queue t = if s.occSeen = s.cfg.ringN then queue s else queue s ++ [⟨l, r⟩]) ∧
    (∃ t m, exec .synTick s = .next t ∧
      RespondedWith t .smp (if s.occSeen = s.cfg.ringN then 0x12 else 0x01) 0 m t.out.osc ∧
      queue t = if s.occSeen = s.cfg.ringN then queue s else queue s ++ [⟨m, m⟩]) ∧
    (∀ h, ∃ t, exec (.ringDrain h) s = .next t ∧
      queue t = (queue s).drop (min s.avail s.cfg.halfFrames) ∧
      ∀ (j : Nat) (hj : j < (queue s).length), j < min s.avail s.cfg.halfFrames →
        HoldsFrame (t.half h) j (queue s)[j]) ∧
    (∀ i t, exec i s = .next t → (∀ l r, i ≠ .ringPush l r) → (∀ h, i ≠ .ringDrain h) → i ≠ .synTick →
      queue t = queue s)

/-- 20_memory.md R51: where the two copies are up to date the ring is the document's atomic queue: a push is dropped
exactly where the queue holds RING_N frames, and a drain moves the whole queue up to a half. -/
def Obligations.CaughtUpRingIsTheAtomicQueue : Prop :=
  ∀ s : State, Invariants s →
    (s.rSeen = s.rptr → ∀ l r, ∃ t, exec (.ringPush l r) s = .next t ∧
      queue t = if (queue s).length = s.cfg.ringN then queue s else queue s ++ [⟨l, r⟩]) ∧
    (s.wSeen = s.wptr → ∀ h, ∃ t, exec (.ringDrain h) s = .next t ∧
      queue t = (queue s).drop s.cfg.halfFrames ∧
      t.underrun.toNat = min (2 ^ 32 - 1) (s.underrun.toNat + (s.cfg.halfFrames - (queue s).length)))

/-- 44_ring.md R207, first property: on an empty ring RING_N frames are all retained in order, and one frame more is
dropped and changes nothing. -/
def Obligations.OneFrameMoreThanCapacityIsDropped : Prop :=
  ∀ (s : State) (frames : List Frame) (extra : Frame), Invariants s → s.occSeen = 0 → frames.length = s.cfg.ringN →
    ∃ t u, pushFrames frames s = .next t ∧ exec (.ringPush extra.l extra.r) t = .next u ∧
      queue t = frames ∧ u = { t with out := u.out } ∧ MemorySame t u ∧ queue u = frames ∧ Responded u .smp 0x12 0 0
end

