-- ==== Sys2Proof/Machine/Schedule.lean ====
section
/-! DEFINITION. Infinite runs of the block and the fairness of its three synchronisers (44_ring.md R211): what
20_memory.md R46 (5) rests on. The fairness is an assumption on a run, not part of a step, and no number of steps is in
it. -/

namespace Sys2Proof.Machine

/-- What the outside gives the block at one moment: an input, or none while the block waits, and the samples the
oscillators would answer then. -/
structure Moment where
  input : Option Input
  samples : Vector (BitVec 16) 16
  deriving DecidableEq, Repr

/-- The state with what one moment gives it, and nothing else, at its ports. -/
def State.facing (s : State) (m : Moment) : State := { s with pending := m.input.toList, oscIn := [m.samples] }

/-- What the block serves at moment `k` of a run. -/
def servedAt (moments : Nat → Moment) (states : Nat → State) (k : Nat) : Service :=
  ((states k).facing (moments k)).service

/-- An infinite run: the state at each moment is the step from the one before it, whatever the agents' interleaving
(10_state.md R11). -/
def IsRun (moments : Nat → Moment) (states : Nat → State) : Prop :=
  ∀ k, step ((states k).facing (moments k)) = .next (states (k + 1))

/-- Weak fairness: what is enabled from some moment on without a break is taken at that moment or later. -/
def WeaklyFair (enabled taken : Nat → Prop) : Prop := ∀ k, (∀ j, k ≤ j → enabled j) → ∃ j, k ≤ j ∧ taken j

/-- An enabled RING.SYNCW that delivers something is taken at moment `k` (44_ring.md R208). -/
def SyncwTaken (moments : Nat → Moment) (states : Nat → State) (k : Nat) : Prop :=
  ∃ adv, servedAt moments states k = .run (.ringSyncw adv) ∧ 0 < advOperand adv ∧ advOperand adv ≤ (states k).wLag

/-- An enabled RING.SYNCR that delivers something is taken at moment `k` (44_ring.md R209). -/
def SyncrTaken (moments : Nat → Moment) (states : Nat → State) (k : Nat) : Prop :=
  ∃ adv, servedAt moments states k = .run (.ringSyncr adv) ∧ 0 < advOperand adv ∧ advOperand adv ≤ (states k).rLag

/-- RING.SYNCU is taken at moment `k` (44_ring.md R210). -/
def SyncuTaken (moments : Nat → Moment) (states : Nat → State) (k : Nat) : Prop :=
  servedAt moments states k = .run .ringSyncu

/-- A run in which each synchroniser is weakly fair (44_ring.md R211): a lag, or a shadow that is behind, does not persist
with its step never taken. -/
structure FairRun (moments : Nat → Moment) (states : Nat → State) : Prop where
  run : IsRun moments states
  syncw : WeaklyFair (fun k => 0 < (states k).wLag) (SyncwTaken moments states)
  syncr : WeaklyFair (fun k => 0 < (states k).rLag) (SyncrTaken moments states)
  syncu : WeaklyFair (fun k => (states k).urShadow ≠ (states k).underrun) (SyncuTaken moments states)

/-- How far the consumer's copy of the write pointer moves forward at moment `k`. -/
def wDelivered (states : Nat → State) (k : Nat) : Nat :=
  ptrDist (states k).cfg (states (k + 1)).wSeen (states k).wSeen

/-- How far the producer's copy of the read pointer moves forward at moment `k`. -/
def rDelivered (states : Nat → State) (k : Nat) : Nat :=
  ptrDist (states k).cfg (states (k + 1)).rSeen (states k).rSeen

/-- What is delivered in the `n` moments from moment `k`, all told. -/
def totalFrom (delivered : Nat → Nat) (k : Nat) : Nat → Nat
  | 0 => 0
  | n + 1 => totalFrom delivered k n + delivered (k + n)

/-- The reset strobe is served in one of the `n` moments from moment `k`. -/
def ResetWithin (moments : Nat → Moment) (states : Nat → State) (k n : Nat) : Prop :=
  ∃ j, k ≤ j ∧ j < k + n ∧ servedAt moments states j = .reset

end Sys2Proof.Machine
end

