-- ==== Sys2Proof/Laws/State.lean ====
section
/-! SUPPORT. The fields of a state after each named update. -/

namespace Sys2Proof.Machine

variable (s : State)

/-! ### `respond` -/

@[simp] theorem State.respond_cfg (a : Agent) (w : RespWord) (osc : List OscEvent) :
    (s.respond a w osc).cfg = s.cfg := rfl
@[simp] theorem State.respond_lanes (a : Agent) (w : RespWord) (osc : List OscEvent) :
    (s.respond a w osc).lanes = s.lanes := rfl
@[simp] theorem State.respond_keyMask (a : Agent) (w : RespWord) (osc : List OscEvent) :
    (s.respond a w osc).keyMask = s.keyMask := rfl
@[simp] theorem State.respond_btnPull (a : Agent) (w : RespWord) (osc : List OscEvent) :
    (s.respond a w osc).btnPull = s.btnPull := rfl
@[simp] theorem State.respond_qei (a : Agent) (w : RespWord) (osc : List OscEvent) :
    (s.respond a w osc).qei = s.qei := rfl
@[simp] theorem State.respond_qdec (a : Agent) (w : RespWord) (osc : List OscEvent) :
    (s.respond a w osc).qdec = s.qdec := rfl
@[simp] theorem State.respond_msCount (a : Agent) (w : RespWord) (osc : List OscEvent) :
    (s.respond a w osc).msCount = s.msCount := rfl
@[simp] theorem State.respond_env (a : Agent) (w : RespWord) (osc : List OscEvent) :
    (s.respond a w osc).env = s.env := rfl
@[simp] theorem State.respond_voices (a : Agent) (w : RespWord) (osc : List OscEvent) :
    (s.respond a w osc).voices = s.voices := rfl
@[simp] theorem State.respond_ring (a : Agent) (w : RespWord) (osc : List OscEvent) :
    (s.respond a w osc).ring = s.ring := rfl
@[simp] theorem State.respond_wptr (a : Agent) (w : RespWord) (osc : List OscEvent) :
    (s.respond a w osc).wptr = s.wptr := rfl
@[simp] theorem State.respond_rptr (a : Agent) (w : RespWord) (osc : List OscEvent) :
    (s.respond a w osc).rptr = s.rptr := rfl
@[simp] theorem State.respond_wgSync (a : Agent) (w : RespWord) (osc : List OscEvent) :
    (s.respond a w osc).wgSync = s.wgSync := rfl
@[simp] theorem State.respond_rgSync (a : Agent) (w : RespWord) (osc : List OscEvent) :
    (s.respond a w osc).rgSync = s.rgSync := rfl
@[simp] theorem State.respond_underrun (a : Agent) (w : RespWord) (osc : List OscEvent) :
    (s.respond a w osc).underrun = s.underrun := rfl
@[simp] theorem State.respond_urShadow (a : Agent) (w : RespWord) (osc : List OscEvent) :
    (s.respond a w osc).urShadow = s.urShadow := rfl
@[simp] theorem State.respond_hwbuf0 (a : Agent) (w : RespWord) (osc : List OscEvent) :
    (s.respond a w osc).hwbuf0 = s.hwbuf0 := rfl
@[simp] theorem State.respond_hwbuf1 (a : Agent) (w : RespWord) (osc : List OscEvent) :
    (s.respond a w osc).hwbuf1 = s.hwbuf1 := rfl
@[simp] theorem State.respond_pending (a : Agent) (w : RespWord) (osc : List OscEvent) :
    (s.respond a w osc).pending = s.pending := rfl
@[simp] theorem State.respond_oscIn (a : Agent) (w : RespWord) (osc : List OscEvent) :
    (s.respond a w osc).oscIn = s.oscIn := rfl
@[simp] theorem State.respond_oscDraws (a : Agent) (w : RespWord) (osc : List OscEvent) :
    (s.respond a w osc).oscDraws = s.oscDraws := rfl
@[simp] theorem State.respond_out (a : Agent) (w : RespWord) (osc : List OscEvent) :
    (s.respond a w osc).out = ⟨some (a, w), osc⟩ := rfl

/-! ### `quiet` -/

@[simp] theorem State.quiet_cfg : (s.quiet).cfg = s.cfg := rfl
@[simp] theorem State.quiet_lanes : (s.quiet).lanes = s.lanes := rfl
@[simp] theorem State.quiet_keyMask : (s.quiet).keyMask = s.keyMask := rfl
@[simp] theorem State.quiet_btnPull : (s.quiet).btnPull = s.btnPull := rfl
@[simp] theorem State.quiet_qei : (s.quiet).qei = s.qei := rfl
@[simp] theorem State.quiet_qdec : (s.quiet).qdec = s.qdec := rfl
@[simp] theorem State.quiet_msCount : (s.quiet).msCount = s.msCount := rfl
@[simp] theorem State.quiet_env : (s.quiet).env = s.env := rfl
@[simp] theorem State.quiet_voices : (s.quiet).voices = s.voices := rfl
@[simp] theorem State.quiet_ring : (s.quiet).ring = s.ring := rfl
@[simp] theorem State.quiet_wptr : (s.quiet).wptr = s.wptr := rfl
@[simp] theorem State.quiet_rptr : (s.quiet).rptr = s.rptr := rfl
@[simp] theorem State.quiet_wgSync : (s.quiet).wgSync = s.wgSync := rfl
@[simp] theorem State.quiet_rgSync : (s.quiet).rgSync = s.rgSync := rfl
@[simp] theorem State.quiet_underrun : (s.quiet).underrun = s.underrun := rfl
@[simp] theorem State.quiet_urShadow : (s.quiet).urShadow = s.urShadow := rfl
@[simp] theorem State.quiet_hwbuf0 : (s.quiet).hwbuf0 = s.hwbuf0 := rfl
@[simp] theorem State.quiet_hwbuf1 : (s.quiet).hwbuf1 = s.hwbuf1 := rfl
@[simp] theorem State.quiet_pending : (s.quiet).pending = s.pending := rfl
@[simp] theorem State.quiet_oscIn : (s.quiet).oscIn = s.oscIn := rfl
@[simp] theorem State.quiet_oscDraws : (s.quiet).oscDraws = s.oscDraws := rfl
@[simp] theorem State.quiet_out : (s.quiet).out = ⟨none, []⟩ := rfl

/-! ### `taken` -/

@[simp] theorem State.taken_cfg : (s.taken).cfg = s.cfg := rfl
@[simp] theorem State.taken_lanes : (s.taken).lanes = s.lanes := rfl
@[simp] theorem State.taken_keyMask : (s.taken).keyMask = s.keyMask := rfl
@[simp] theorem State.taken_btnPull : (s.taken).btnPull = s.btnPull := rfl
@[simp] theorem State.taken_qei : (s.taken).qei = s.qei := rfl
@[simp] theorem State.taken_qdec : (s.taken).qdec = s.qdec := rfl
@[simp] theorem State.taken_msCount : (s.taken).msCount = s.msCount := rfl
@[simp] theorem State.taken_env : (s.taken).env = s.env := rfl
@[simp] theorem State.taken_voices : (s.taken).voices = s.voices := rfl
@[simp] theorem State.taken_ring : (s.taken).ring = s.ring := rfl
@[simp] theorem State.taken_wptr : (s.taken).wptr = s.wptr := rfl
@[simp] theorem State.taken_rptr : (s.taken).rptr = s.rptr := rfl
@[simp] theorem State.taken_wgSync : (s.taken).wgSync = s.wgSync := rfl
@[simp] theorem State.taken_rgSync : (s.taken).rgSync = s.rgSync := rfl
@[simp] theorem State.taken_underrun : (s.taken).underrun = s.underrun := rfl
@[simp] theorem State.taken_urShadow : (s.taken).urShadow = s.urShadow := rfl
@[simp] theorem State.taken_hwbuf0 : (s.taken).hwbuf0 = s.hwbuf0 := rfl
@[simp] theorem State.taken_hwbuf1 : (s.taken).hwbuf1 = s.hwbuf1 := rfl
@[simp] theorem State.taken_pending : (s.taken).pending = s.pending.tail := rfl
@[simp] theorem State.taken_oscIn : (s.taken).oscIn = s.oscIn := rfl
@[simp] theorem State.taken_oscDraws : (s.taken).oscDraws = s.oscDraws := rfl
@[simp] theorem State.taken_out : (s.taken).out = s.out := rfl

/-! ### `oscTaken` -/

@[simp] theorem State.oscTaken_cfg : (s.oscTaken).cfg = s.cfg := rfl
@[simp] theorem State.oscTaken_lanes : (s.oscTaken).lanes = s.lanes := rfl
@[simp] theorem State.oscTaken_keyMask : (s.oscTaken).keyMask = s.keyMask := rfl
@[simp] theorem State.oscTaken_btnPull : (s.oscTaken).btnPull = s.btnPull := rfl
@[simp] theorem State.oscTaken_qei : (s.oscTaken).qei = s.qei := rfl
@[simp] theorem State.oscTaken_qdec : (s.oscTaken).qdec = s.qdec := rfl
@[simp] theorem State.oscTaken_msCount : (s.oscTaken).msCount = s.msCount := rfl
@[simp] theorem State.oscTaken_env : (s.oscTaken).env = s.env := rfl
@[simp] theorem State.oscTaken_voices : (s.oscTaken).voices = s.voices := rfl
@[simp] theorem State.oscTaken_ring : (s.oscTaken).ring = s.ring := rfl
@[simp] theorem State.oscTaken_wptr : (s.oscTaken).wptr = s.wptr := rfl
@[simp] theorem State.oscTaken_rptr : (s.oscTaken).rptr = s.rptr := rfl
@[simp] theorem State.oscTaken_wgSync : (s.oscTaken).wgSync = s.wgSync := rfl
@[simp] theorem State.oscTaken_rgSync : (s.oscTaken).rgSync = s.rgSync := rfl
@[simp] theorem State.oscTaken_underrun : (s.oscTaken).underrun = s.underrun := rfl
@[simp] theorem State.oscTaken_urShadow : (s.oscTaken).urShadow = s.urShadow := rfl
@[simp] theorem State.oscTaken_hwbuf0 : (s.oscTaken).hwbuf0 = s.hwbuf0 := rfl
@[simp] theorem State.oscTaken_hwbuf1 : (s.oscTaken).hwbuf1 = s.hwbuf1 := rfl
@[simp] theorem State.oscTaken_pending : (s.oscTaken).pending = s.pending := rfl
@[simp] theorem State.oscTaken_oscIn : (s.oscTaken).oscIn = s.oscIn.tail := rfl
@[simp] theorem State.oscTaken_oscDraws : (s.oscTaken).oscDraws = s.oscDraws + 1 := rfl
@[simp] theorem State.oscTaken_out : (s.oscTaken).out = s.out := rfl

/-! ### `sampleLane` -/

@[simp] theorem State.sampleLane_cfg (lane : Fin 32) (raw : Bool) : (s.sampleLane lane raw).cfg = s.cfg := rfl
@[simp] theorem State.sampleLane_lanes (lane : Fin 32) (raw : Bool) :
    (s.sampleLane lane raw).lanes = s.lanes.set lane (laneSample s.cfg.debK[lane] s.lanes[lane] raw).1 := rfl
@[simp] theorem State.sampleLane_keyMask (lane : Fin 32) (raw : Bool) :
    (s.sampleLane lane raw).keyMask = s.keyMask := rfl
@[simp] theorem State.sampleLane_btnPull (lane : Fin 32) (raw : Bool) :
    (s.sampleLane lane raw).btnPull = s.btnPull := rfl
@[simp] theorem State.sampleLane_qei (lane : Fin 32) (raw : Bool) : (s.sampleLane lane raw).qei = s.qei := rfl
@[simp] theorem State.sampleLane_qdec (lane : Fin 32) (raw : Bool) : (s.sampleLane lane raw).qdec = s.qdec := rfl
@[simp] theorem State.sampleLane_msCount (lane : Fin 32) (raw : Bool) :
    (s.sampleLane lane raw).msCount = s.msCount := rfl
@[simp] theorem State.sampleLane_env (lane : Fin 32) (raw : Bool) : (s.sampleLane lane raw).env = s.env := rfl
@[simp] theorem State.sampleLane_voices (lane : Fin 32) (raw : Bool) :
    (s.sampleLane lane raw).voices = s.voices := rfl
@[simp] theorem State.sampleLane_ring (lane : Fin 32) (raw : Bool) : (s.sampleLane lane raw).ring = s.ring := rfl
@[simp] theorem State.sampleLane_wptr (lane : Fin 32) (raw : Bool) : (s.sampleLane lane raw).wptr = s.wptr := rfl
@[simp] theorem State.sampleLane_rptr (lane : Fin 32) (raw : Bool) : (s.sampleLane lane raw).rptr = s.rptr := rfl
@[simp] theorem State.sampleLane_wgSync (lane : Fin 32) (raw : Bool) :
    (s.sampleLane lane raw).wgSync = s.wgSync := rfl
@[simp] theorem State.sampleLane_rgSync (lane : Fin 32) (raw : Bool) :
    (s.sampleLane lane raw).rgSync = s.rgSync := rfl
@[simp] theorem State.sampleLane_underrun (lane : Fin 32) (raw : Bool) :
    (s.sampleLane lane raw).underrun = s.underrun := rfl
@[simp] theorem State.sampleLane_urShadow (lane : Fin 32) (raw : Bool) :
    (s.sampleLane lane raw).urShadow = s.urShadow := rfl
@[simp] theorem State.sampleLane_hwbuf0 (lane : Fin 32) (raw : Bool) :
    (s.sampleLane lane raw).hwbuf0 = s.hwbuf0 := rfl
@[simp] theorem State.sampleLane_hwbuf1 (lane : Fin 32) (raw : Bool) :
    (s.sampleLane lane raw).hwbuf1 = s.hwbuf1 := rfl
@[simp] theorem State.sampleLane_pending (lane : Fin 32) (raw : Bool) :
    (s.sampleLane lane raw).pending = s.pending := rfl
@[simp] theorem State.sampleLane_oscIn (lane : Fin 32) (raw : Bool) : (s.sampleLane lane raw).oscIn = s.oscIn := rfl
@[simp] theorem State.sampleLane_oscDraws (lane : Fin 32) (raw : Bool) :
    (s.sampleLane lane raw).oscDraws = s.oscDraws := rfl
@[simp] theorem State.sampleLane_out (lane : Fin 32) (raw : Bool) : (s.sampleLane lane raw).out = s.out := rfl

/-! ### `scanLanes` -/

@[simp] theorem State.scanLanes_cfg (raw16 : BitVec 16) : (s.scanLanes raw16).cfg = s.cfg := rfl
@[simp] theorem State.scanLanes_lanes (raw16 : BitVec 16) :
    (s.scanLanes raw16).lanes = s.lanes.mapIdx fun i l =>
      if i < 16 then (laneSample (s.cfg.debK.getD i 0) l (raw16.getLsbD i)).1 else l := rfl
@[simp] theorem State.scanLanes_keyMask (raw16 : BitVec 16) : (s.scanLanes raw16).keyMask = s.keyMask := rfl
@[simp] theorem State.scanLanes_btnPull (raw16 : BitVec 16) : (s.scanLanes raw16).btnPull = s.btnPull := rfl
@[simp] theorem State.scanLanes_qei (raw16 : BitVec 16) : (s.scanLanes raw16).qei = s.qei := rfl
@[simp] theorem State.scanLanes_qdec (raw16 : BitVec 16) : (s.scanLanes raw16).qdec = s.qdec := rfl
@[simp] theorem State.scanLanes_msCount (raw16 : BitVec 16) : (s.scanLanes raw16).msCount = s.msCount := rfl
@[simp] theorem State.scanLanes_env (raw16 : BitVec 16) : (s.scanLanes raw16).env = s.env := rfl
@[simp] theorem State.scanLanes_voices (raw16 : BitVec 16) : (s.scanLanes raw16).voices = s.voices := rfl
@[simp] theorem State.scanLanes_ring (raw16 : BitVec 16) : (s.scanLanes raw16).ring = s.ring := rfl
@[simp] theorem State.scanLanes_wptr (raw16 : BitVec 16) : (s.scanLanes raw16).wptr = s.wptr := rfl
@[simp] theorem State.scanLanes_rptr (raw16 : BitVec 16) : (s.scanLanes raw16).rptr = s.rptr := rfl
@[simp] theorem State.scanLanes_wgSync (raw16 : BitVec 16) : (s.scanLanes raw16).wgSync = s.wgSync := rfl
@[simp] theorem State.scanLanes_rgSync (raw16 : BitVec 16) : (s.scanLanes raw16).rgSync = s.rgSync := rfl
@[simp] theorem State.scanLanes_underrun (raw16 : BitVec 16) : (s.scanLanes raw16).underrun = s.underrun := rfl
@[simp] theorem State.scanLanes_urShadow (raw16 : BitVec 16) : (s.scanLanes raw16).urShadow = s.urShadow := rfl
@[simp] theorem State.scanLanes_hwbuf0 (raw16 : BitVec 16) : (s.scanLanes raw16).hwbuf0 = s.hwbuf0 := rfl
@[simp] theorem State.scanLanes_hwbuf1 (raw16 : BitVec 16) : (s.scanLanes raw16).hwbuf1 = s.hwbuf1 := rfl
@[simp] theorem State.scanLanes_pending (raw16 : BitVec 16) : (s.scanLanes raw16).pending = s.pending := rfl
@[simp] theorem State.scanLanes_oscIn (raw16 : BitVec 16) : (s.scanLanes raw16).oscIn = s.oscIn := rfl
@[simp] theorem State.scanLanes_oscDraws (raw16 : BitVec 16) : (s.scanLanes raw16).oscDraws = s.oscDraws := rfl
@[simp] theorem State.scanLanes_out (raw16 : BitVec 16) : (s.scanLanes raw16).out = s.out := rfl

/-! ### `setVoice` -/

@[simp] theorem State.setVoice_cfg (v : Nat) (x : Voice) : (s.setVoice v x).cfg = s.cfg := rfl
@[simp] theorem State.setVoice_lanes (v : Nat) (x : Voice) : (s.setVoice v x).lanes = s.lanes := rfl
@[simp] theorem State.setVoice_keyMask (v : Nat) (x : Voice) : (s.setVoice v x).keyMask = s.keyMask := rfl
@[simp] theorem State.setVoice_btnPull (v : Nat) (x : Voice) : (s.setVoice v x).btnPull = s.btnPull := rfl
@[simp] theorem State.setVoice_qei (v : Nat) (x : Voice) : (s.setVoice v x).qei = s.qei := rfl
@[simp] theorem State.setVoice_qdec (v : Nat) (x : Voice) : (s.setVoice v x).qdec = s.qdec := rfl
@[simp] theorem State.setVoice_msCount (v : Nat) (x : Voice) : (s.setVoice v x).msCount = s.msCount := rfl
@[simp] theorem State.setVoice_env (v : Nat) (x : Voice) : (s.setVoice v x).env = s.env := rfl
@[simp] theorem State.setVoice_voices (v : Nat) (x : Voice) :
    (s.setVoice v x).voices = s.voices.setIfInBounds v x := rfl
@[simp] theorem State.setVoice_ring (v : Nat) (x : Voice) : (s.setVoice v x).ring = s.ring := rfl
@[simp] theorem State.setVoice_wptr (v : Nat) (x : Voice) : (s.setVoice v x).wptr = s.wptr := rfl
@[simp] theorem State.setVoice_rptr (v : Nat) (x : Voice) : (s.setVoice v x).rptr = s.rptr := rfl
@[simp] theorem State.setVoice_wgSync (v : Nat) (x : Voice) : (s.setVoice v x).wgSync = s.wgSync := rfl
@[simp] theorem State.setVoice_rgSync (v : Nat) (x : Voice) : (s.setVoice v x).rgSync = s.rgSync := rfl
@[simp] theorem State.setVoice_underrun (v : Nat) (x : Voice) : (s.setVoice v x).underrun = s.underrun := rfl
@[simp] theorem State.setVoice_urShadow (v : Nat) (x : Voice) : (s.setVoice v x).urShadow = s.urShadow := rfl
@[simp] theorem State.setVoice_hwbuf0 (v : Nat) (x : Voice) : (s.setVoice v x).hwbuf0 = s.hwbuf0 := rfl
@[simp] theorem State.setVoice_hwbuf1 (v : Nat) (x : Voice) : (s.setVoice v x).hwbuf1 = s.hwbuf1 := rfl
@[simp] theorem State.setVoice_pending (v : Nat) (x : Voice) : (s.setVoice v x).pending = s.pending := rfl
@[simp] theorem State.setVoice_oscIn (v : Nat) (x : Voice) : (s.setVoice v x).oscIn = s.oscIn := rfl
@[simp] theorem State.setVoice_oscDraws (v : Nat) (x : Voice) : (s.setVoice v x).oscDraws = s.oscDraws := rfl
@[simp] theorem State.setVoice_out (v : Nat) (x : Voice) : (s.setVoice v x).out = s.out := rfl

/-! ### `present` -/

@[simp] theorem State.present_cfg (w : OpWord) : (s.present w).cfg = s.cfg := rfl
@[simp] theorem State.present_lanes (w : OpWord) : (s.present w).lanes = s.lanes := rfl
@[simp] theorem State.present_keyMask (w : OpWord) : (s.present w).keyMask = s.keyMask := rfl
@[simp] theorem State.present_btnPull (w : OpWord) : (s.present w).btnPull = s.btnPull := rfl
@[simp] theorem State.present_qei (w : OpWord) : (s.present w).qei = s.qei := rfl
@[simp] theorem State.present_qdec (w : OpWord) : (s.present w).qdec = s.qdec := rfl
@[simp] theorem State.present_msCount (w : OpWord) : (s.present w).msCount = s.msCount := rfl
@[simp] theorem State.present_env (w : OpWord) : (s.present w).env = s.env := rfl
@[simp] theorem State.present_voices (w : OpWord) : (s.present w).voices = s.voices := rfl
@[simp] theorem State.present_ring (w : OpWord) : (s.present w).ring = s.ring := rfl
@[simp] theorem State.present_wptr (w : OpWord) : (s.present w).wptr = s.wptr := rfl
@[simp] theorem State.present_rptr (w : OpWord) : (s.present w).rptr = s.rptr := rfl
@[simp] theorem State.present_wgSync (w : OpWord) : (s.present w).wgSync = s.wgSync := rfl
@[simp] theorem State.present_rgSync (w : OpWord) : (s.present w).rgSync = s.rgSync := rfl
@[simp] theorem State.present_underrun (w : OpWord) : (s.present w).underrun = s.underrun := rfl
@[simp] theorem State.present_urShadow (w : OpWord) : (s.present w).urShadow = s.urShadow := rfl
@[simp] theorem State.present_hwbuf0 (w : OpWord) : (s.present w).hwbuf0 = s.hwbuf0 := rfl
@[simp] theorem State.present_hwbuf1 (w : OpWord) : (s.present w).hwbuf1 = s.hwbuf1 := rfl
@[simp] theorem State.present_pending (w : OpWord) :
    (s.present w).pending = .request (homeAgent w) w :: s.pending := rfl
@[simp] theorem State.present_oscIn (w : OpWord) : (s.present w).oscIn = s.oscIn := rfl
@[simp] theorem State.present_oscDraws (w : OpWord) : (s.present w).oscDraws = s.oscDraws := rfl
@[simp] theorem State.present_out (w : OpWord) : (s.present w).out = s.out := rfl

/-! ### `facing` -/

@[simp] theorem State.facing_cfg (m : Moment) : (s.facing m).cfg = s.cfg := rfl
@[simp] theorem State.facing_lanes (m : Moment) : (s.facing m).lanes = s.lanes := rfl
@[simp] theorem State.facing_keyMask (m : Moment) : (s.facing m).keyMask = s.keyMask := rfl
@[simp] theorem State.facing_btnPull (m : Moment) : (s.facing m).btnPull = s.btnPull := rfl
@[simp] theorem State.facing_qei (m : Moment) : (s.facing m).qei = s.qei := rfl
@[simp] theorem State.facing_qdec (m : Moment) : (s.facing m).qdec = s.qdec := rfl
@[simp] theorem State.facing_msCount (m : Moment) : (s.facing m).msCount = s.msCount := rfl
@[simp] theorem State.facing_env (m : Moment) : (s.facing m).env = s.env := rfl
@[simp] theorem State.facing_voices (m : Moment) : (s.facing m).voices = s.voices := rfl
@[simp] theorem State.facing_ring (m : Moment) : (s.facing m).ring = s.ring := rfl
@[simp] theorem State.facing_wptr (m : Moment) : (s.facing m).wptr = s.wptr := rfl
@[simp] theorem State.facing_rptr (m : Moment) : (s.facing m).rptr = s.rptr := rfl
@[simp] theorem State.facing_wgSync (m : Moment) : (s.facing m).wgSync = s.wgSync := rfl
@[simp] theorem State.facing_rgSync (m : Moment) : (s.facing m).rgSync = s.rgSync := rfl
@[simp] theorem State.facing_underrun (m : Moment) : (s.facing m).underrun = s.underrun := rfl
@[simp] theorem State.facing_urShadow (m : Moment) : (s.facing m).urShadow = s.urShadow := rfl
@[simp] theorem State.facing_hwbuf0 (m : Moment) : (s.facing m).hwbuf0 = s.hwbuf0 := rfl
@[simp] theorem State.facing_hwbuf1 (m : Moment) : (s.facing m).hwbuf1 = s.hwbuf1 := rfl
@[simp] theorem State.facing_pending (m : Moment) : (s.facing m).pending = m.input.toList := rfl
@[simp] theorem State.facing_oscIn (m : Moment) : (s.facing m).oscIn = [m.samples] := rfl
@[simp] theorem State.facing_oscDraws (m : Moment) : (s.facing m).oscDraws = s.oscDraws := rfl
@[simp] theorem State.facing_out (m : Moment) : (s.facing m).out = s.out := rfl

/-! ### `push` -/

@[simp] theorem State.push_cfg (f : Frame) : (s.push f).cfg = s.cfg := by unfold State.push; split <;> rfl
@[simp] theorem State.push_lanes (f : Frame) : (s.push f).lanes = s.lanes := by unfold State.push; split <;> rfl
@[simp] theorem State.push_keyMask (f : Frame) : (s.push f).keyMask = s.keyMask := by unfold State.push; split <;> rfl
@[simp] theorem State.push_btnPull (f : Frame) : (s.push f).btnPull = s.btnPull := by unfold State.push; split <;> rfl
@[simp] theorem State.push_qei (f : Frame) : (s.push f).qei = s.qei := by unfold State.push; split <;> rfl
@[simp] theorem State.push_qdec (f : Frame) : (s.push f).qdec = s.qdec := by unfold State.push; split <;> rfl
@[simp] theorem State.push_msCount (f : Frame) : (s.push f).msCount = s.msCount := by unfold State.push; split <;> rfl
@[simp] theorem State.push_env (f : Frame) : (s.push f).env = s.env := by unfold State.push; split <;> rfl
@[simp] theorem State.push_voices (f : Frame) : (s.push f).voices = s.voices := by unfold State.push; split <;> rfl
@[simp] theorem State.push_rptr (f : Frame) : (s.push f).rptr = s.rptr := by unfold State.push; split <;> rfl
@[simp] theorem State.push_wgSync (f : Frame) : (s.push f).wgSync = s.wgSync := by unfold State.push; split <;> rfl
@[simp] theorem State.push_rgSync (f : Frame) : (s.push f).rgSync = s.rgSync := by unfold State.push; split <;> rfl
@[simp] theorem State.push_underrun (f : Frame) : (s.push f).underrun = s.underrun := by unfold State.push; split <;> rfl
@[simp] theorem State.push_urShadow (f : Frame) : (s.push f).urShadow = s.urShadow := by unfold State.push; split <;> rfl
@[simp] theorem State.push_hwbuf0 (f : Frame) : (s.push f).hwbuf0 = s.hwbuf0 := by unfold State.push; split <;> rfl
@[simp] theorem State.push_hwbuf1 (f : Frame) : (s.push f).hwbuf1 = s.hwbuf1 := by unfold State.push; split <;> rfl
@[simp] theorem State.push_pending (f : Frame) : (s.push f).pending = s.pending := by unfold State.push; split <;> rfl
@[simp] theorem State.push_oscIn (f : Frame) : (s.push f).oscIn = s.oscIn := by unfold State.push; split <;> rfl
@[simp] theorem State.push_oscDraws (f : Frame) : (s.push f).oscDraws = s.oscDraws := by unfold State.push; split <;> rfl
@[simp] theorem State.push_out (f : Frame) : (s.push f).out = s.out := by unfold State.push; split <;> rfl

theorem State.push_of_full (f : Frame) (h : s.pushFull = true) : s.push f = s := by simp [State.push, h]

theorem State.push_of_room (f : Frame) (h : s.pushFull = false) :
    s.push f = { s with
      ring := Memory.write s.ring (slotOf s.cfg s.wptr) f
      wptr := ptrAdd s.cfg s.wptr 1 } := by simp [State.push, h]

/-! ### `setHalf` -/

@[simp] theorem State.setHalf_cfg (h : Bool) (m : List Host.Cell) : (s.setHalf h m).cfg = s.cfg := by cases h <;> rfl
@[simp] theorem State.setHalf_lanes (h : Bool) (m : List Host.Cell) : (s.setHalf h m).lanes = s.lanes := by cases h <;> rfl
@[simp] theorem State.setHalf_keyMask (h : Bool) (m : List Host.Cell) : (s.setHalf h m).keyMask = s.keyMask := by cases h <;> rfl
@[simp] theorem State.setHalf_btnPull (h : Bool) (m : List Host.Cell) : (s.setHalf h m).btnPull = s.btnPull := by cases h <;> rfl
@[simp] theorem State.setHalf_qei (h : Bool) (m : List Host.Cell) : (s.setHalf h m).qei = s.qei := by cases h <;> rfl
@[simp] theorem State.setHalf_qdec (h : Bool) (m : List Host.Cell) : (s.setHalf h m).qdec = s.qdec := by cases h <;> rfl
@[simp] theorem State.setHalf_msCount (h : Bool) (m : List Host.Cell) : (s.setHalf h m).msCount = s.msCount := by cases h <;> rfl
@[simp] theorem State.setHalf_env (h : Bool) (m : List Host.Cell) : (s.setHalf h m).env = s.env := by cases h <;> rfl
@[simp] theorem State.setHalf_voices (h : Bool) (m : List Host.Cell) : (s.setHalf h m).voices = s.voices := by cases h <;> rfl
@[simp] theorem State.setHalf_ring (h : Bool) (m : List Host.Cell) : (s.setHalf h m).ring = s.ring := by cases h <;> rfl
@[simp] theorem State.setHalf_wptr (h : Bool) (m : List Host.Cell) : (s.setHalf h m).wptr = s.wptr := by cases h <;> rfl
@[simp] theorem State.setHalf_rptr (h : Bool) (m : List Host.Cell) : (s.setHalf h m).rptr = s.rptr := by cases h <;> rfl
@[simp] theorem State.setHalf_wgSync (h : Bool) (m : List Host.Cell) : (s.setHalf h m).wgSync = s.wgSync := by cases h <;> rfl
@[simp] theorem State.setHalf_rgSync (h : Bool) (m : List Host.Cell) : (s.setHalf h m).rgSync = s.rgSync := by cases h <;> rfl
@[simp] theorem State.setHalf_underrun (h : Bool) (m : List Host.Cell) : (s.setHalf h m).underrun = s.underrun := by cases h <;> rfl
@[simp] theorem State.setHalf_urShadow (h : Bool) (m : List Host.Cell) : (s.setHalf h m).urShadow = s.urShadow := by cases h <;> rfl
@[simp] theorem State.setHalf_pending (h : Bool) (m : List Host.Cell) : (s.setHalf h m).pending = s.pending := by cases h <;> rfl
@[simp] theorem State.setHalf_oscIn (h : Bool) (m : List Host.Cell) : (s.setHalf h m).oscIn = s.oscIn := by cases h <;> rfl
@[simp] theorem State.setHalf_oscDraws (h : Bool) (m : List Host.Cell) : (s.setHalf h m).oscDraws = s.oscDraws := by cases h <;> rfl
@[simp] theorem State.setHalf_out (h : Bool) (m : List Host.Cell) : (s.setHalf h m).out = s.out := by cases h <;> rfl

@[simp] theorem State.setHalf_half_same (h : Bool) (m : List Host.Cell) : (s.setHalf h m).half h = m := by cases h <;> rfl

theorem State.setHalf_half_other (h g : Bool) (m : List Host.Cell) (hne : g ≠ h) :
    (s.setHalf h m).half g = s.half g := by cases h <;> cases g <;> simp_all [State.setHalf, State.half]

/-! ### `writeCsr` -/

@[simp] theorem State.writeCsr_cfg (d : Word) (r : Csr) : (s.writeCsr d r).cfg = s.cfg := by cases r <;> rfl
@[simp] theorem State.writeCsr_lanes (d : Word) (r : Csr) : (s.writeCsr d r).lanes = s.lanes := by cases r <;> rfl
@[simp] theorem State.writeCsr_keyMask (d : Word) (r : Csr) : (s.writeCsr d r).keyMask = s.keyMask := by cases r <;> rfl
@[simp] theorem State.writeCsr_msCount (d : Word) (r : Csr) : (s.writeCsr d r).msCount = s.msCount := by cases r <;> rfl
@[simp] theorem State.writeCsr_voices (d : Word) (r : Csr) : (s.writeCsr d r).voices = s.voices := by cases r <;> rfl
@[simp] theorem State.writeCsr_ring (d : Word) (r : Csr) : (s.writeCsr d r).ring = s.ring := by cases r <;> rfl
@[simp] theorem State.writeCsr_wptr (d : Word) (r : Csr) : (s.writeCsr d r).wptr = s.wptr := by cases r <;> rfl
@[simp] theorem State.writeCsr_rptr (d : Word) (r : Csr) : (s.writeCsr d r).rptr = s.rptr := by cases r <;> rfl
@[simp] theorem State.writeCsr_wgSync (d : Word) (r : Csr) : (s.writeCsr d r).wgSync = s.wgSync := by cases r <;> rfl
@[simp] theorem State.writeCsr_rgSync (d : Word) (r : Csr) : (s.writeCsr d r).rgSync = s.rgSync := by cases r <;> rfl
@[simp] theorem State.writeCsr_underrun (d : Word) (r : Csr) : (s.writeCsr d r).underrun = s.underrun := by cases r <;> rfl
@[simp] theorem State.writeCsr_urShadow (d : Word) (r : Csr) : (s.writeCsr d r).urShadow = s.urShadow := by cases r <;> rfl
@[simp] theorem State.writeCsr_hwbuf0 (d : Word) (r : Csr) : (s.writeCsr d r).hwbuf0 = s.hwbuf0 := by cases r <;> rfl
@[simp] theorem State.writeCsr_hwbuf1 (d : Word) (r : Csr) : (s.writeCsr d r).hwbuf1 = s.hwbuf1 := by cases r <;> rfl
@[simp] theorem State.writeCsr_pending (d : Word) (r : Csr) : (s.writeCsr d r).pending = s.pending := by cases r <;> rfl
@[simp] theorem State.writeCsr_oscIn (d : Word) (r : Csr) : (s.writeCsr d r).oscIn = s.oscIn := by cases r <;> rfl
@[simp] theorem State.writeCsr_oscDraws (d : Word) (r : Csr) : (s.writeCsr d r).oscDraws = s.oscDraws := by cases r <;> rfl
@[simp] theorem State.writeCsr_out (d : Word) (r : Csr) : (s.writeCsr d r).out = s.out := by cases r <;> rfl

/-! ### `afterRst` -/

@[simp] theorem State.afterRst_cfg : s.afterRst.cfg = s.cfg := by
  simp only [State.afterRst, State.resetWith]
@[simp] theorem State.afterRst_lanes : s.afterRst.lanes = (State.resetWith s.cfg).lanes := rfl
@[simp] theorem State.afterRst_keyMask : s.afterRst.keyMask = (State.resetWith s.cfg).keyMask := rfl
@[simp] theorem State.afterRst_btnPull : s.afterRst.btnPull = (State.resetWith s.cfg).btnPull := rfl
@[simp] theorem State.afterRst_qei : s.afterRst.qei = (State.resetWith s.cfg).qei := rfl
@[simp] theorem State.afterRst_qdec : s.afterRst.qdec = (State.resetWith s.cfg).qdec := rfl
@[simp] theorem State.afterRst_msCount : s.afterRst.msCount = (State.resetWith s.cfg).msCount := rfl
@[simp] theorem State.afterRst_env : s.afterRst.env = (State.resetWith s.cfg).env := rfl
@[simp] theorem State.afterRst_voices : s.afterRst.voices = (State.resetWith s.cfg).voices := rfl
@[simp] theorem State.afterRst_ring : s.afterRst.ring = (State.resetWith s.cfg).ring := rfl
@[simp] theorem State.afterRst_wptr : s.afterRst.wptr = (State.resetWith s.cfg).wptr := rfl
@[simp] theorem State.afterRst_rptr : s.afterRst.rptr = (State.resetWith s.cfg).rptr := rfl
@[simp] theorem State.afterRst_wgSync : s.afterRst.wgSync = (State.resetWith s.cfg).wgSync := rfl
@[simp] theorem State.afterRst_rgSync : s.afterRst.rgSync = (State.resetWith s.cfg).rgSync := rfl
@[simp] theorem State.afterRst_underrun : s.afterRst.underrun = (State.resetWith s.cfg).underrun := rfl
@[simp] theorem State.afterRst_urShadow : s.afterRst.urShadow = (State.resetWith s.cfg).urShadow := rfl
@[simp] theorem State.afterRst_hwbuf0 : s.afterRst.hwbuf0 = (State.resetWith s.cfg).hwbuf0 := rfl
@[simp] theorem State.afterRst_hwbuf1 : s.afterRst.hwbuf1 = (State.resetWith s.cfg).hwbuf1 := rfl
@[simp] theorem State.afterRst_pending : s.afterRst.pending = s.pending := by
  simp only [State.afterRst, State.resetWith]
@[simp] theorem State.afterRst_oscIn : s.afterRst.oscIn = s.oscIn := by
  simp only [State.afterRst, State.resetWith]
@[simp] theorem State.afterRst_oscDraws : s.afterRst.oscDraws = s.oscDraws := by
  simp only [State.afterRst, State.resetWith]
@[simp] theorem State.afterRst_out : s.afterRst.out = (State.resetWith s.cfg).out := rfl

end Sys2Proof.Machine
end

