-- ==== Sys2Proof/Laws/Store.lean ====
section
/-! SUPPORT. The laws of the sparse memories: what a write makes an index read as, and that writes keep the canonical
form and the index bound. -/

namespace Sys2Proof.Machine

variable {α : Type}

/-- Reading after a write, at any index. -/
theorem Memory.read_write (m : Memory α) (a : Nat) (y : α) (b : Nat) :
    Memory.read (Memory.write m a y) b = if b = a then some y else Memory.read m b := by
  induction m with
  | nil => simp only [Memory.write, Memory.read]
  | cons e m ih =>
    obtain ⟨i, x⟩ := e
    simp only [Memory.write]
    split
    · simp only [Memory.read]
    · split
      · rename_i h; subst h; simp only [Memory.read]; split <;> simp_all
      · simp only [Memory.read, ih]; split <;> split <;> simp_all

@[simp] theorem Memory.read_write_same (m : Memory α) (a : Nat) (y : α) :
    Memory.read (Memory.write m a y) a = some y := by simp [Memory.read_write]

theorem Memory.read_write_other (m : Memory α) (a : Nat) (y : α) (b : Nat) (h : b ≠ a) :
    Memory.read (Memory.write m a y) b = Memory.read m b := by simp [Memory.read_write, h]

theorem Memory.above_mono {lo lo' : Nat} (m : Memory α) (h : lo ≤ lo') (hm : Memory.above lo' m = true) :
    Memory.above lo m = true := by
  induction m with
  | nil => rfl
  | cons e m ih =>
    simp only [Memory.above, Bool.and_eq_true, decide_eq_true_eq] at *
    exact ⟨by omega, ih hm.2⟩

theorem Memory.above_write (m : Memory α) (lo a : Nat) (y : α) (hm : Memory.above lo m = true) (ha : lo < a) :
    Memory.above lo (Memory.write m a y) = true := by
  induction m with
  | nil => simp [Memory.write, Memory.above, ha]
  | cons e m ih =>
    simp only [Memory.write]
    split
    · simp_all [Memory.above]
    · split <;> simp_all [Memory.above]

/-- A write keeps the canonical form. -/
theorem Memory.wf_write (m : Memory α) (a : Nat) (y : α) (hm : Memory.wf m = true) :
    Memory.wf (Memory.write m a y) = true := by
  induction m with
  | nil => rfl
  | cons e m ih =>
    obtain ⟨i, x⟩ := e
    simp only [Memory.wf, Bool.and_eq_true] at hm
    simp only [Memory.write]
    split
    · rename_i h
      simp only [Memory.wf, Memory.above, Bool.and_eq_true, decide_eq_true_eq]
      exact ⟨⟨h, Memory.above_mono m (by omega) hm.1⟩, hm.1, hm.2⟩
    · split
      · rename_i h; subst h
        simp only [Memory.wf, Bool.and_eq_true]
        exact hm
      · simp only [Memory.wf, Bool.and_eq_true]
        exact ⟨Memory.above_write m i a y hm.1 (by omega), ih hm.2⟩

/-- A write below a bound keeps every index below it. -/
theorem Memory.below_write (m : Memory α) (hi a : Nat) (y : α) (hm : Memory.below hi m = true) (ha : a < hi) :
    Memory.below hi (Memory.write m a y) = true := by
  induction m with
  | nil => simp [Memory.write, Memory.below, ha]
  | cons e m ih =>
    simp only [Memory.write]
    split
    · simp_all [Memory.below]
    · split <;> simp_all [Memory.below]

/-- An index outside the bound has no value. -/
theorem Memory.read_of_below (m : Memory α) (hi a : Nat) (hm : Memory.below hi m = true) (ha : hi ≤ a) :
    Memory.read m a = none := by
  induction m with
  | nil => rfl
  | cons e m ih =>
    simp only [Memory.below, Bool.and_eq_true, decide_eq_true_eq] at hm
    simp only [Memory.read]
    rw [if_neg (by omega)]
    exact ih hm.2

/-- Every index of a memory above `lo` reads as nothing up to `lo`. -/
theorem Memory.read_of_above (m : Memory α) (lo a : Nat) (hm : Memory.above lo m = true) (ha : a ≤ lo) :
    Memory.read m a = none := by
  induction m with
  | nil => rfl
  | cons e m ih =>
    simp only [Memory.above, Bool.and_eq_true, decide_eq_true_eq] at hm
    simp only [Memory.read]
    rw [if_neg (by omega)]
    exact ih hm.2

/-- Memories in canonical form that read alike are the same list. -/
theorem Memory.eq_of_read_eq {m n : Memory α} (hm : Memory.wf m = true) (hn : Memory.wf n = true)
    (h : ∀ a, Memory.read m a = Memory.read n a) : m = n := by
  induction m generalizing n with
  | nil =>
    cases n with
    | nil => rfl
    | cons e n => have := h e.1; simp [Memory.read] at this
  | cons e m ih =>
    obtain ⟨i, x⟩ := e
    simp only [Memory.wf, Bool.and_eq_true] at hm
    cases n with
    | nil => have := h i; simp [Memory.read] at this
    | cons e' n =>
      obtain ⟨j, y⟩ := e'
      simp only [Memory.wf, Bool.and_eq_true] at hn
      have hij : i = j := by
        rcases Nat.lt_trichotomy i j with hlt | heq | hgt
        · have := h i
          simp [Memory.read, Nat.ne_of_lt hlt, Memory.read_of_above n j i hn.1 (by omega)] at this
        · exact heq
        · have := h j
          simp [Memory.read, Nat.ne_of_lt hgt, Memory.read_of_above m i j hm.1 (by omega)] at this
      subst hij
      have hxy : x = y := by have := h i; simpa [Memory.read] using this
      subst hxy
      have : m = n := ih hm.2 hn.2 fun a => by
        by_cases ha : a = i
        · subst ha; rw [Memory.read_of_above m a a hm.1 le_rfl, Memory.read_of_above n a a hn.1 le_rfl]
        · have := h a; simpa [Memory.read, ha] using this
      rw [this]

end Sys2Proof.Machine
end

