-- ==== Sys2Proof/Laws/Ops.lean ====
section
/-! SUPPORT. One lemma per shared operation: what it can do. Pointer arithmetic, the gray code, the debounce lane, the
hardware buffer and the copy loop of a drain, serving an input. -/

namespace Sys2Proof.Machine

/-! ### Pointers -/

theorem two_pow_ptrWidth (c : Config) : 2 ^ c.ptrWidth = 2 * c.ringN := by
  simp only [Config.ptrWidth, Config.ringN, Nat.pow_succ]; omega

theorem ringN_pos (c : Config) : 0 < c.ringN := Nat.two_pow_pos _

theorem wrap_natCast (n p : Nat) : wrap n (p : Int) = p % 2 ^ n := by
  simp only [wrap]; exact_mod_cast rfl

theorem wrap_lt (n : Nat) (v : Int) : wrap n v < 2 ^ n := by
  have h : (0 : Int) < ((2 ^ n : Nat) : Int) := by exact_mod_cast Nat.two_pow_pos n
  have := Int.emod_lt_of_pos v h
  have := Int.emod_nonneg v (ne_of_gt h)
  simp only [wrap]; omega

theorem ptrAdd_eq (c : Config) (p n : Nat) : ptrAdd c p n = (p + n) % (2 * c.ringN) := by
  simp only [ptrAdd, ← two_pow_ptrWidth, ← wrap_natCast]; norm_num

theorem ptrAdd_lt (c : Config) (p n : Nat) : ptrAdd c p n < 2 * c.ringN := by
  rw [ptrAdd_eq]; exact Nat.mod_lt _ (by have := ringN_pos c; omega)

/-- The wrapped difference of two pointers in range. -/
theorem ptrDist_eq (c : Config) {p q : Nat} (hp : p < 2 * c.ringN) (hq : q < 2 * c.ringN) :
    ptrDist c p q = if q ≤ p then p - q else p + 2 * c.ringN - q := by
  simp only [ptrDist, wrap, two_pow_ptrWidth]
  split
  · rw [Int.emod_eq_of_lt (by omega) (by omega)]; omega
  · rw [← Int.add_emod_right, Int.emod_eq_of_lt (by omega) (by omega)]; omega

theorem ptrDist_lt (c : Config) (p q : Nat) : ptrDist c p q < 2 * c.ringN := by
  simp only [ptrDist, ← two_pow_ptrWidth]; exact wrap_lt _ _

/-- A pointer advanced within range, without a division. -/
theorem ptrAdd_cases (c : Config) {p n : Nat} (hp : p < 2 * c.ringN) (hn : n ≤ 2 * c.ringN) :
    ptrAdd c p n = if p + n < 2 * c.ringN then p + n else p + n - 2 * c.ringN := by
  rw [ptrAdd_eq]
  split
  · exact Nat.mod_eq_of_lt (by assumption)
  · rw [Nat.mod_eq_sub_mod (by omega), Nat.mod_eq_of_lt (by omega)]

/-- The wrapped difference of two pointers in range, in the form `omega` takes. -/
theorem ptrDist_or (c : Config) {p q : Nat} (hp : p < 2 * c.ringN) (hq : q < 2 * c.ringN) :
    q ≤ p ∧ ptrDist c p q + q = p ∨ p < q ∧ ptrDist c p q + q = p + 2 * c.ringN := by
  rw [ptrDist_eq c hp hq]; split_ifs <;> omega

/-- A pointer advanced within range, in the form `omega` takes. -/
theorem ptrAdd_or (c : Config) {p n : Nat} (hp : p < 2 * c.ringN) (hn : n ≤ 2 * c.ringN) :
    ptrAdd c p n = p + n ∧ p + n < 2 * c.ringN ∨ ptrAdd c p n + 2 * c.ringN = p + n := by
  rw [ptrAdd_cases c hp hn]; split_ifs <;> omega

/-- The slots of a pointer and of the same pointer wrapped are one. -/
theorem slotOf_mod (c : Config) (p : Nat) : slotOf c (p % (2 * c.ringN)) = slotOf c p := by
  simp only [slotOf, Nat.mod_mul_left_mod]

theorem slotOf_lt (c : Config) (p : Nat) : slotOf c p < c.ringN := Nat.mod_lt _ (ringN_pos c)

/-! ### The gray code -/

theorem gray_lt {w b : Nat} (h : b < 2 ^ w) : gray b < 2 ^ w :=
  Nat.xor_lt_two_pow h (by rw [Nat.shiftRight_eq_div_pow]; omega)

theorem gray_shiftRight (b : Nat) : gray b >>> 1 = gray (b >>> 1) := by
  simp only [gray, Nat.shiftRight_xor_distrib]

theorem gray_mod_two (b : Nat) : gray b % 2 = (b >>> 1) % 2 ^^^ b % 2 := by
  simp only [gray]
  rw [show (2 : Nat) = 2 ^ 1 by rfl, Nat.xor_mod_two_pow, Nat.xor_comm]

/-- `ungray_W` is the inverse of `gray_W` (00_scope.md R8). -/
theorem ungray_gray {w b : Nat} (h : b < 2 ^ w) : ungray w (gray b) = b := by
  induction w generalizing b with
  | zero => simp only [ungray]; omega
  | succ w ih =>
    have hb : b >>> 1 < 2 ^ w := by rw [Nat.shiftRight_eq_div_pow]; rw [Nat.pow_succ] at h; omega
    simp only [ungray, gray_shiftRight, ih hb, gray_mod_two]
    rw [← Nat.xor_assoc, Nat.xor_self, Nat.zero_xor, Nat.shiftRight_eq_div_pow]
    omega

/-- The gray code of an exclusive or. -/
theorem gray_xor (a b : Nat) : gray (a ^^^ b) = gray a ^^^ gray b := by
  simp only [gray, Nat.shiftRight_xor_distrib]
  apply Nat.eq_of_testBit_eq
  intro i
  simp only [Nat.testBit_xor]
  cases a.testBit i <;> cases b.testBit i <;> simp

theorem ungray_lt (w g : Nat) : ungray w g < 2 ^ w := by
  induction w generalizing g with
  | zero => simp [ungray]
  | succ w ih =>
    have h1 := ih (g >>> 1)
    have h2 : (ungray w (g >>> 1) % 2) ^^^ (g % 2) < 2 ^ 1 :=
      Nat.xor_lt_two_pow (Nat.mod_lt _ (by omega)) (Nat.mod_lt _ (by omega))
    simp only [ungray, Nat.pow_succ]; omega

theorem wSeen_lt (s : State) : s.wSeen < 2 * s.cfg.ringN := by
  rw [← two_pow_ptrWidth]; exact ungray_lt _ _

theorem rSeen_lt (s : State) : s.rSeen < 2 * s.cfg.ringN := by
  rw [← two_pow_ptrWidth]; exact ungray_lt _ _

/-! ### The debounce lane -/

/-- The register of a lane after one sample. -/
theorem laneSample_sr (k : Nat) (l : Lane) (raw : Bool) :
    (laneSample k l raw).1.sr = (2 * l.sr + raw.toNat) % 2 ^ k := by
  have : (l.sr <<< 1) ||| raw.toNat = 2 * l.sr + raw.toNat := by
    rw [← Nat.shiftLeft_add_eq_or_of_lt (by cases raw <;> decide), Nat.shiftLeft_eq]; omega
  simp only [laneSample]
  split
  · simp [this]
  · split <;> simp [this]

theorem laneSample_sr_lt (k : Nat) (l : Lane) (raw : Bool) : (laneSample k l raw).1.sr < 2 ^ k := by
  rw [laneSample_sr]; exact Nat.mod_lt _ (Nat.two_pow_pos _)

/-- The bits of a lane's register after one sample: the sample, then the bits it held before. -/
theorem laneSample_testBit (k : Nat) (l : Lane) (raw : Bool) (i : Nat) :
    (laneSample k l raw).1.sr.testBit i = (decide (i < k) && if i = 0 then raw else l.sr.testBit (i - 1)) := by
  rw [laneSample_sr, Nat.testBit_mod_two_pow]
  congr 1
  cases i with
  | zero => cases raw <;> simp [Nat.testBit_zero]
  | succ i => simp only [Nat.testBit_succ]; simp; congr 1; cases raw <;> simp; omega

/-- A register of `k` bits holds all ones. -/
theorem eq_ones_iff {k x : Nat} (hx : x < 2 ^ k) : x = 2 ^ k - 1 ↔ ∀ i < k, x.testBit i = true := by
  constructor
  · rintro rfl i hi; simp [Nat.testBit_two_pow_sub_one, hi]
  · intro h
    apply Nat.eq_of_testBit_eq
    intro i
    rw [Nat.testBit_two_pow_sub_one]
    by_cases hi : i < k
    · simp [hi, h i hi]
    · simp only [hi, decide_false]
      exact Nat.testBit_lt_two_pow (lt_of_lt_of_le hx (Nat.pow_le_pow_right (by omega) (by omega)))

/-- A register of `k` bits holds all zeros. -/
theorem eq_zero_iff {k x : Nat} (hx : x < 2 ^ k) : x = 0 ↔ ∀ i < k, x.testBit i = false := by
  constructor
  · rintro rfl i _; simp
  · intro h
    apply Nat.eq_of_testBit_eq
    intro i
    rw [Nat.zero_testBit]
    by_cases hi : i < k
    · exact h i hi
    · exact Nat.testBit_lt_two_pow (lt_of_lt_of_le hx (Nat.pow_le_pow_right (by omega) (by omega)))

/-- Everything one sample can do to a lane (40_debounce.md R101). -/
theorem laneSample_cases (k : Nat) (l : Lane) (raw : Bool) :
    (∃ sr, laneSample k l raw = (⟨sr, true⟩, some .rising) ∧ sr = 2 ^ k - 1 ∧ l.conf = false) ∨
    (∃ sr, laneSample k l raw = (⟨sr, false⟩, some .falling) ∧ sr = 0 ∧ l.conf = true) ∨
    (∃ sr, laneSample k l raw = (⟨sr, l.conf⟩, none) ∧ ¬ (sr = 2 ^ k - 1 ∧ l.conf = false) ∧
      ¬ (sr = 0 ∧ l.conf = true)) := by
  simp only [laneSample]
  split
  · rename_i h; exact .inl ⟨_, rfl, h⟩
  · rename_i h
    split
    · rename_i h'; exact .inr (.inl ⟨_, rfl, h'⟩)
    · rename_i h'; exact .inr (.inr ⟨_, rfl, h, h'⟩)

/-! ### Pushing -/

/-- Everything a push can do (44_ring.md R201). -/
theorem push_cases (s : State) (f : Frame) :
    s.occSeen = s.cfg.ringN ∧ s.push f = s ∨
    s.occSeen ≠ s.cfg.ringN ∧ s.push f =
      { s with ring := Memory.write s.ring (slotOf s.cfg s.wptr) f, wptr := ptrAdd s.cfg s.wptr 1 } := by
  simp only [State.push, State.pushFull, decide_eq_true_eq]
  split
  · exact .inl ⟨by assumption, rfl⟩
  · exact .inr ⟨by assumption, rfl⟩

/-! ### The hardware buffer -/

/-- One byte after a word is written. -/
theorem read_hwWrite (m : List Host.Cell) (w : Nat) (v : BitVec 16) (b : Nat) :
    Memory.read (hwWrite m w v) b =
      if b = 2 * w + 1 then some (v.extractLsb' 8 8) else if b = 2 * w then some (v.extractLsb' 0 8)
      else Memory.read m b := by
  simp only [hwWrite, Memory.read_write]

/-- A byte outside word `w` is not touched by a word written there. -/
theorem read_hwWrite_other (m : List Host.Cell) {w : Nat} (v : BitVec 16) {b : Nat}
    (h : b < 2 * w ∨ 2 * w + 2 ≤ b) : Memory.read (hwWrite m w v) b = Memory.read m b := by
  rw [read_hwWrite]; split_ifs <;> first | rfl | omega

/-- One word after a word is written. -/
theorem hwRead_hwWrite (m : List Host.Cell) (w : Nat) (v : BitVec 16) (x : Nat) :
    hwRead (hwWrite m w v) x = if x = w then some v else hwRead m x := by
  simp only [hwRead, read_hwWrite]
  by_cases h : x = w
  · subst h
    simp only [show ¬ (2 * x = 2 * x + 1) by omega, if_false, if_true]
    congr 1
    apply BitVec.eq_of_getLsbD_eq
    intro i hi
    simp only [BitVec.getLsbD_append, BitVec.getLsbD_extractLsb']
    split
    · rename_i h8; simp [h8]
    · rw [show 8 + (i - 8) = i by omega]; simp [show i - 8 < 8 by omega]
  · simp [h, show ¬ (2 * x = 2 * w + 1) by omega, show ¬ (2 * x = 2 * w) by omega,
      show ¬ (2 * x + 1 = 2 * w) by omega]

theorem wf_hwWrite {m : List Host.Cell} (h : Memory.wf m = true) (w : Nat) (v : BitVec 16) :
    Memory.wf (hwWrite m w v) = true := Memory.wf_write _ _ _ (Memory.wf_write _ _ _ h)

theorem below_hwWrite {m : List Host.Cell} {hi : Nat} (h : Memory.below hi m = true) (w : Nat) (v : BitVec 16)
    (hw : 2 * w + 1 < hi) : Memory.below hi (hwWrite m w v) = true :=
  Memory.below_write _ _ _ _ (Memory.below_write _ _ _ _ h (by omega)) hw

theorem wf_hwWriteFrame {m : List Host.Cell} (h : Memory.wf m = true) (j : Nat) (f : Frame) :
    Memory.wf (hwWriteFrame m j f) = true := wf_hwWrite (wf_hwWrite (wf_hwWrite (wf_hwWrite h _ _) _ _) _ _) _ _

theorem below_hwWriteFrame {m : List Host.Cell} {hi : Nat} (h : Memory.below hi m = true) (j : Nat) (f : Frame)
    (hj : 8 * j + 7 < hi) : Memory.below hi (hwWriteFrame m j f) = true :=
  below_hwWrite (below_hwWrite (below_hwWrite (below_hwWrite h _ _ (by omega)) _ _ (by omega)) _ _ (by omega)) _ _
    (by omega)

/-- A byte outside frame slot `j` is not touched by a frame written there. -/
theorem read_hwWriteFrame_other (m : List Host.Cell) (j : Nat) (f : Frame) (b : Nat)
    (h : b < 8 * j ∨ 8 * j + 8 ≤ b) : Memory.read (hwWriteFrame m j f) b = Memory.read m b := by
  have word : ∀ (m' : List Host.Cell) (v : BitVec 16) (i : Nat), i < 4 →
      Memory.read (hwWrite m' (4 * j + i) v) b = Memory.read m' b :=
    fun m' v i hi => read_hwWrite_other m' v (by omega)
  exact (word _ _ 3 (by decide)).trans ((word _ _ 2 (by decide)).trans ((word _ _ 1 (by decide)).trans
    (word m _ 0 (by decide))))

/-- A word of a half after a frame is written (20_memory.md R43). -/
theorem hwRead_hwWriteFrame (m : List Host.Cell) (j : Nat) (f : Frame) (x : Nat) :
    hwRead (hwWriteFrame m j f) x =
      if x = 4 * j + 3 then some (lowHalf f.r) else if x = 4 * j + 2 then some (highHalf f.r)
      else if x = 4 * j + 1 then some (lowHalf f.l) else if x = 4 * j then some (highHalf f.l)
      else hwRead m x := by
  simp only [hwWriteFrame, hwRead_hwWrite]

/-- A word outside frame slot `j` reads as before. -/
theorem hwRead_hwWriteFrame_other (m : List Host.Cell) (j : Nat) (f : Frame) {x : Nat}
    (h : x < 4 * j ∨ 4 * j + 4 ≤ x) : hwRead (hwWriteFrame m j f) x = hwRead m x := by
  simp only [hwRead, read_hwWriteFrame_other m j f (2 * x) (by omega),
    read_hwWriteFrame_other m j f (2 * x + 1) (by omega)]

/-- The four words of a frame just written (20_memory.md R43). -/
theorem hwRead_hwWriteFrame_self (m : List Host.Cell) (j : Nat) (f : Frame) :
    hwRead (hwWriteFrame m j f) (4 * j) = some (highHalf f.l) ∧
    hwRead (hwWriteFrame m j f) (4 * j + 1) = some (lowHalf f.l) ∧
    hwRead (hwWriteFrame m j f) (4 * j + 2) = some (highHalf f.r) ∧
    hwRead (hwWriteFrame m j f) (4 * j + 3) = some (lowHalf f.r) := by
  simp [hwRead_hwWriteFrame]

/-! ### The copy loop of a drain -/

/-- Everything the copy loop can do (44_ring.md R204): it reads every slot it is asked for or stops at a slot without a
value; the slots it fills hold the frames read, and no other byte changes. -/
theorem drainFrames_ok {c : Config} {ring : Memory Frame} {rptr : Nat} {m m' : List Host.Cell} {n : Nat}
    (h : drainFrames c ring rptr m n = .ok m') :
    (∀ j < n, ∃ f, Memory.read ring (slotOf c (rptr + j)) = some f ∧
      hwRead m' (4 * j) = some (highHalf f.l) ∧ hwRead m' (4 * j + 1) = some (lowHalf f.l) ∧
      hwRead m' (4 * j + 2) = some (highHalf f.r) ∧ hwRead m' (4 * j + 3) = some (lowHalf f.r)) ∧
    (∀ b, 8 * n ≤ b → Memory.read m' b = Memory.read m b) := by
  induction n generalizing m' with
  | zero => simp only [drainFrames, Except.ok.injEq] at h; subst h; exact ⟨fun j hj => by omega, fun _ _ => rfl⟩
  | succ n ih =>
    simp only [drainFrames] at h
    split at h
    · cases h
    · rename_i m1 h1
      split at h
      · cases h
      · rename_i f hf
        simp only [Except.ok.injEq] at h
        subst h
        obtain ⟨ih1, ih2⟩ := ih h1
        refine ⟨fun j hj => ?_, fun b hb => ?_⟩
        · rcases Nat.lt_succ_iff_lt_or_eq.mp hj with hlt | heq
          · obtain ⟨g, hg, words⟩ := ih1 j hlt
            refine ⟨g, hg, ?_⟩
            iterate 4 rw [hwRead_hwWriteFrame_other m1 n f (by omega)]
            exact words
          · exact ⟨f, heq ▸ hf, heq ▸ hwRead_hwWriteFrame_self m1 n f⟩
        · rw [read_hwWriteFrame_other _ _ _ _ (by omega), ih2 b (by omega)]

/-- The copy loop completes where every slot it is asked for has a value. -/
theorem drainFrames_completes {c : Config} {ring : Memory Frame} {rptr : Nat} (m : List Host.Cell) {n : Nat}
    (h : ∀ j < n, (Memory.read ring (slotOf c (rptr + j))).isSome) :
    ∃ m', drainFrames c ring rptr m n = .ok m' := by
  induction n with
  | zero => exact ⟨m, rfl⟩
  | succ n ih =>
    obtain ⟨m1, h1⟩ := ih fun j hj => h j (by omega)
    obtain ⟨f, hf⟩ := Option.isSome_iff_exists.mp (h n (by omega))
    exact ⟨hwWriteFrame m1 n f, by simp only [drainFrames, h1, hf]⟩

/-- The copy loop stops at the first slot without a value (10_state.md R36, log 6). -/
theorem drainFrames_stops {c : Config} {ring : Memory Frame} {rptr : Nat} (m : List Host.Cell) {j n : Nat} (hj : j < n)
    (hnone : Memory.read ring (slotOf c (rptr + j)) = none)
    (hbefore : ∀ k < j, (Memory.read ring (slotOf c (rptr + k))).isSome) :
    drainFrames c ring rptr m n = .error (.ringSlotUnwritten (slotOf c (rptr + j))) := by
  induction n, hj using Nat.le_induction with
  | base =>
    obtain ⟨m', h⟩ := drainFrames_completes m hbefore
    simp only [drainFrames, h, hnone]
  | succ n _ ih => simp only [drainFrames, ih]

/-- The copy loop keeps the canonical form and the bound of a half. -/
theorem drainFrames_form {c : Config} {ring : Memory Frame} {rptr hi : Nat} {m m' : List Host.Cell} {n : Nat}
    (h : drainFrames c ring rptr m n = .ok m') (hwf : Memory.wf m = true) (hb : Memory.below hi m = true)
    (hn : 8 * n ≤ hi) : Memory.wf m' = true ∧ Memory.below hi m' = true := by
  induction n generalizing m' with
  | zero => simp only [drainFrames, Except.ok.injEq] at h; subst h; exact ⟨hwf, hb⟩
  | succ n ih =>
    simp only [drainFrames] at h
    split at h
    · cases h
    · rename_i m1 h1
      split at h
      · cases h
      · rename_i f hf
        simp only [Except.ok.injEq] at h
        subst h
        obtain ⟨i1, i2⟩ := ih h1 (by omega)
        exact ⟨wf_hwWriteFrame i1 _ _, below_hwWriteFrame i2 _ _ (by omega)⟩

/-! ### Serving an input -/

/-- A request is admitted exactly where its word is read as an operation of the agent that presents it (30_encoding.md
R71, R75). -/
theorem accept_eq_some {a : Agent} {w : OpWord} {i : Instr} :
    accept a w = some i ↔ decode w = .ok i ∧ i.agent = a := by
  unfold accept
  split
  · rename_i e h; simp [h]
  · rename_i j h
    split
    · rename_i ha; simp only [h, Option.some.injEq, Except.ok.injEq]; constructor
      · rintro rfl; exact ⟨rfl, ha⟩
      · exact fun h => h.1
    · rename_i ha; simp only [h, Except.ok.injEq]; constructor
      · intro h; cases h
      · rintro ⟨rfl, h⟩; exact absurd h ha

/-- Everything a state can serve (10_state.md R11). -/
theorem service_cases (s : State) :
    s.service = .idle ∧ s.pending = [] ∨
    s.service = .reset ∧ (∃ rest, s.pending = .rst :: rest) ∨
    (∃ a w rest, s.service = .reject a ∧ s.pending = .request a w :: rest ∧ accept a w = none) ∨
    (∃ a w rest i, s.service = .run i ∧ s.pending = .request a w :: rest ∧ decode w = .ok i ∧ i.agent = a) := by
  unfold State.service
  rcases h : s.pending with _ | ⟨_ | _, rest⟩
  · exact .inl ⟨rfl, rfl⟩
  · rename_i a w
    rcases ha : accept a w with _ | i
    · exact .inr (.inr (.inl ⟨a, w, rest, by simp only [ha], rfl, ha⟩))
    · exact .inr (.inr (.inr ⟨a, w, rest, i, by simp only [ha], rfl, accept_eq_some.mp ha⟩))
  · exact .inr (.inl ⟨rfl, rest, rfl⟩)

/-- Responding is a next state. -/
theorem reply_eq (a : Agent) (st : Status) (aux : BitVec 24) (v : Word) (s : State) :
    reply a st aux v s = .next (s.respond a (respWord st aux v) []) := rfl

end Sys2Proof.Machine
end

