-- ==== Sys2Proof/Laws/Families.lean ====
section
/-! SUPPORT. What the helpers of the families can do: the register map, masks of levels, the clamps and roundings, the
decay, the voice search. -/

namespace Sys2Proof.Machine

/-! ### The register map (10_state.md R25) -/

theorem arrayReg_eq_some {n count i : Nat} {mk : Fin n → Csr} {r : Csr} :
    arrayReg count i mk = some r ↔ ∃ h : i < n, i < count ∧ r = mk ⟨i, h⟩ := by
  unfold arrayReg
  split
  · split <;> simp_all [eq_comm]
  · simp_all

theorem envRegAt_eq_some {n : Nat} {e : EnvReg} (h : envRegAt n = some e) :
    n = 0 ∧ e = .delayDur ∨ n = 1 ∧ e = .attackDur ∨ n = 2 ∧ e = .attackBend ∨ n = 3 ∧ e = .holdDur ∨
    n = 4 ∧ e = .decayDur ∨ n = 5 ∧ e = .decayBend ∨ n = 6 ∧ e = .sustainAmp ∨ n = 7 ∧ e = .releaseDur ∨
    n = 8 ∧ e = .releaseBend := by
  unfold envRegAt at h
  split at h <;> simp_all

/-- The registers there are, each with its address (10_state.md R25). -/
inductive CsrPlace (c : Config) (addr : Nat) : Csr → Prop
  | id : addr = 0 → CsrPlace c addr .id
  | msCount : addr = 1 → CsrPlace c addr .msCount
  | underrun : addr = 2 → CsrPlace c addr .underrun
  | keyMask : addr = 3 → CsrPlace c addr .keyMask
  | btnCfg (b : Fin 16) : b.val < c.numBtn → addr = 0x10 + b.val → CsrPlace c addr (.btnCfg b)
  | qeiCfg (e : Fin 8) : e.val < c.numQei → addr = 0x20 + e.val → CsrPlace c addr (.qeiCfg e)
  | qeiPrev (e : Fin 8) : e.val < c.numQei → addr = 0x28 + e.val → CsrPlace c addr (.qeiPrev e)
  | qdecCfg (q : Fin 8) : q.val < c.numQdec → addr = 0x30 + q.val → CsrPlace c addr (.qdecCfg q)
  | qdecVel (q : Fin 8) : q.val < c.numQdec → addr = 0x38 + q.val → CsrPlace c addr (.qdecVel q)
  | env (e : EnvReg) : 0x40 ≤ addr → envRegAt (addr - 0x40) = some e → CsrPlace c addr (.env e)

/-- A register found in the map stands at its place. -/
theorem csrPlace_of_csrAt {c : Config} {addr : BitVec 16} {r : Csr} (h : csrAt c addr = some r) :
    CsrPlace c addr.toNat r := by
  have array : ∀ {n count i : Nat} {mk : Fin n → Csr}, arrayReg count i mk = some r →
      (∀ b : Fin n, b.val < count → b.val = i → CsrPlace c addr.toNat (mk b)) → CsrPlace c addr.toNat r := by
    intro n count i mk hr place
    obtain ⟨h1, h2, rfl⟩ := arrayReg_eq_some.mp hr
    exact place ⟨i, h1⟩ h2 rfl
  unfold csrAt at h
  dsimp only at h
  split_ifs at h
  · cases h; exact .id (by assumption)
  · cases h; exact .msCount (by assumption)
  · cases h; exact .underrun (by assumption)
  · cases h; exact .keyMask (by assumption)
  · exact array h fun b hb e => .btnCfg b hb (by omega)
  · exact array h fun b hb e => .qeiCfg b hb (by omega)
  · exact array h fun b hb e => .qeiPrev b hb (by omega)
  · exact array h fun b hb e => .qdecCfg b hb (by omega)
  · exact array h fun b hb e => .qdecVel b hb (by omega)
  · obtain ⟨e, he, rfl⟩ := Option.map_eq_some_iff.mp h
    exact .env e (by omega) he

/-- A register write touches no memory. -/
theorem State.writeCsr_memory (s : State) (data : Word) (r : Csr) :
    (s.writeCsr data r).ring = s.ring ∧ (s.writeCsr data r).hwbuf0 = s.hwbuf0 ∧
      (s.writeCsr data r).hwbuf1 = s.hwbuf1 := by
  cases r <;> exact ⟨rfl, rfl, rfl⟩

/-! ### Masks, clamps, roundings -/

/-- Bit `i` of the value made of `f 0` up to `f (n - 1)`. -/
theorem getLsbD_maskBits (f : Nat → Bool) (n i : Nat) : (maskBits f n).getLsbD i = (decide (i < n) && f i) := by
  induction n with
  | zero => simp [maskBits]
  | succ n ih =>
    simp only [maskBits, BitVec.getLsbD_cons, ih]
    by_cases h : i = n
    · subst h; simp
    · simp only [h, if_false]
      congr 1
      exact decide_eq_decide.mpr (by omega)

/-- Lane `i` after a key scan (40_debounce.md R107). -/
theorem State.scanLanes_getElem (s : State) (raw16 : BitVec 16) (i : Nat) (h : i < 32) :
    (s.scanLanes raw16).lanes[i] =
      if i < 16 then (laneSample s.cfg.debK[i] s.lanes[i] (raw16.getLsbD i)).1 else s.lanes[i] := by
  have hk : s.cfg.debK.getD i 0 = s.cfg.debK[i] := by
    change (s.cfg.debK.toArray.getD i 0) = _
    simp [Array.getD, h]
  simp only [State.scanLanes, Vector.getElem_mapIdx, hk]

/-- Bit `i` of the confirmed levels of the key lanes (40_debounce.md R107). -/
theorem State.keyLevels_getLsbD (s : State) (i : Nat) (h : i < 16) : s.keyLevels.getLsbD i = s.lanes[i].conf := by
  have hl : s.lanes.getD i ⟨0, false⟩ = s.lanes[i] := by
    change (s.lanes.toArray.getD i ⟨0, false⟩) = _
    simp [Array.getD, show i < 32 by omega]
  simp only [State.keyLevels, getLsbD_maskBits, h, decide_true, Bool.true_and, hl]

/-- A clamped value lies in its range. -/
theorem clamp_range (v : Int) {lo hi : Int} (h : lo ≤ hi) : lo ≤ clamp v lo hi ∧ clamp v lo hi ≤ hi := by
  unfold clamp; omega

theorem sgn_eq_sign (v : Int) : sgn v = v.sign := by
  unfold sgn
  split
  · rw [Int.sign_eq_neg_one_of_neg (by assumption)]
  · split
    · subst_vars; rfl
    · rw [Int.sign_eq_one_of_pos (by omega)]

/-- `round_q16` as a division (00_scope.md R9). -/
theorem roundQ16_eq (n : Int) : roundQ16 n = n.sign * (((n.natAbs + 32768) / 65536 : Nat) : Int) := by
  simp only [roundQ16, sgn_eq_sign, Nat.shiftRight_eq_div_pow, Nat.reducePow]

/-- `tdiv2` is division by two toward zero (00_scope.md R8). -/
theorem tdiv2_eq (v : Int) : tdiv2 v = v.tdiv 2 := by
  simp only [tdiv2, sgn_eq_sign, Nat.shiftRight_eq_div_pow]
  rw [pow_one]
  rcases le_total 0 v with h | h
  · obtain ⟨n, rfl⟩ := Int.eq_ofNat_of_zero_le h
    rcases Nat.eq_zero_or_pos n with rfl | hn
    · rfl
    · rw [Int.sign_eq_one_of_pos (by omega), Int.natAbs_natCast, one_mul]; rfl
  · obtain ⟨n, hn⟩ := Int.eq_ofNat_of_zero_le (show 0 ≤ -v by omega)
    obtain rfl : v = -(n : Int) := by omega
    rcases Nat.eq_zero_or_pos n with rfl | hn
    · rfl
    · rw [Int.sign_eq_neg_one_of_neg (by omega), Int.natAbs_neg, Int.natAbs_natCast, Int.neg_tdiv, neg_one_mul]; rfl

/-- A register of 14 bits holds a duration. -/
theorem toNat_ofInt_dur {x : Int} (h0 : 0 ≤ x) (h1 : x ≤ 10000) : ((BitVec.ofInt 14 x).toNat : Int) = x := by
  obtain ⟨n, rfl⟩ := Int.eq_ofNat_of_zero_le h0
  simp; omega

/-- A register of 17 bits holds an amplitude. -/
theorem toNat_ofInt_amp {x : Int} (h0 : 0 ≤ x) (h1 : x ≤ 65536) : ((BitVec.ofInt 17 x).toNat : Int) = x := by
  obtain ⟨n, rfl⟩ := Int.eq_ofNat_of_zero_le h0
  simp; omega

/-- A register of 18 signed bits holds a bend. -/
theorem toInt_ofInt_bend {x : Int} (h0 : -65536 ≤ x) (h1 : x ≤ 65536) : (BitVec.ofInt 18 x).toInt = x := by
  rw [BitVec.toInt_ofInt, Int.bmod_eq_of_le] <;> norm_num <;> omega

/-! ### The decay (41_rotary.md R126) -/

/-- A decay writes the velocity and its time only. -/
theorem decayed_frame (c : Config) (ms : Word) (d : Qdec) :
    decayed c ms d = { d with vel := (decayed c ms d).vel, tdec := (decayed c ms d).tdec } := by
  simp only [decayed]; split <;> rfl

/-- A decay does not raise the velocity. -/
theorem decayed_vel_le (c : Config) (ms : Word) (d : Qdec) : (decayed c ms d).vel.toNat ≤ d.vel.toNat := by
  simp only [decayed]
  split
  · simp only [BitVec.toNat_ofNat]; exact (Nat.mod_le _ _).trans (by omega)
  · exact le_rfl

/-! ### The voice search (43_synth.md R180) -/

/-- The voice found exists, has the condition, and no lower voice has it. -/
theorem State.firstVoice_eq_some {s : State} {x : Voice} {v : Nat} (h : s.firstVoice x = some v) :
    v < s.cfg.numVoices ∧ s.voices[v]? = some x ∧ ∀ w < v, s.voices[w]? ≠ some x := by
  unfold State.firstVoice at h
  rw [List.find?_range_eq_some] at h
  obtain ⟨h1, h2, h3⟩ := h
  simp only [List.mem_range] at h2
  refine ⟨h2, by simpa [State.voiceAt, h2] using h1, fun w hw => ?_⟩
  have := h3 w hw
  simpa [State.voiceAt, show w < s.cfg.numVoices by omega] using this

/-- No voice is found: no voice that exists has the condition. -/
theorem State.firstVoice_eq_none {s : State} {x : Voice} (h : s.firstVoice x = none) :
    ∀ v < s.cfg.numVoices, s.voices[v]? ≠ some x := by
  unfold State.firstVoice at h
  rw [List.find?_range_eq_none] at h
  intro v hv
  simpa [State.voiceAt, hv] using h v hv

end Sys2Proof.Machine
end

