-- ==== Sys2Proof/Laws/Fields.lean ====
section
/-! SUPPORT. The fields of an operation word and of a response word, and the shared check of the decoder. -/

namespace Sys2Proof

variable (op idx : BitVec 8) (imm : BitVec 16) (a b : Word)

@[simp] theorem opcodeField_opWord : opcodeField (opWord op idx imm a b) = op := by
  apply BitVec.eq_of_getLsbD_eq
  intro i hi
  simp only [opcodeField, opWord, BitVec.getLsbD_extractLsb', BitVec.getLsbD_append, hi]
  simp [show ¬ (88 + i < 32) by omega, show ¬ (88 + i - 32 < 32) by omega, show ¬ (88 + i - 32 - 32 < 16) by omega,
    show ¬ (88 + i - 32 - 32 - 16 < 8) by omega, show 88 + i - 32 - 32 - 16 - 8 = i by omega]

@[simp] theorem idxField_opWord : idxField (opWord op idx imm a b) = idx := by
  apply BitVec.eq_of_getLsbD_eq
  intro i hi
  simp only [idxField, opWord, BitVec.getLsbD_extractLsb', BitVec.getLsbD_append, hi]
  simp [show ¬ (80 + i < 32) by omega, show ¬ (80 + i - 32 < 32) by omega, show ¬ (80 + i - 32 - 32 < 16) by omega,
    show 80 + i - 32 - 32 - 16 = i by omega, hi]

@[simp] theorem immField_opWord : immField (opWord op idx imm a b) = imm := by
  apply BitVec.eq_of_getLsbD_eq
  intro i hi
  simp only [immField, opWord, BitVec.getLsbD_extractLsb', BitVec.getLsbD_append, hi]
  simp [show ¬ (64 + i < 32) by omega, show ¬ (64 + i - 32 < 32) by omega, show 64 + i - 32 - 32 = i by omega, hi]

@[simp] theorem aField_opWord : aField (opWord op idx imm a b) = a := by
  apply BitVec.eq_of_getLsbD_eq
  intro i hi
  simp only [aField, opWord, BitVec.getLsbD_extractLsb', BitVec.getLsbD_append, hi]
  simp [show ¬ (32 + i < 32) by omega, show 32 + i - 32 = i by omega, hi]

@[simp] theorem bField_opWord : bField (opWord op idx imm a b) = b := by
  apply BitVec.eq_of_getLsbD_eq
  intro i hi
  simp only [bField, opWord, BitVec.getLsbD_extractLsb', BitVec.getLsbD_append, hi]
  simp [hi]

/-- A word is its five fields, one after another. -/
theorem opWord_fields (w : OpWord) :
    opWord (opcodeField w) (idxField w) (immField w) (aField w) (bField w) = w := by
  apply BitVec.eq_of_getLsbD_eq
  intro i hi
  simp only [opWord, opcodeField, idxField, immField, aField, bField, BitVec.getLsbD_append, BitVec.getLsbD_extractLsb']
  split_ifs with h1 h2 h3 h4
  · simp [h1]
  · simp only [h2, decide_true, Bool.true_and]; congr 1; omega
  · simp only [h3, decide_true, Bool.true_and]; congr 1; omega
  · simp only [h4, decide_true, Bool.true_and]; congr 1; omega
  · rw [decide_eq_true (by omega : i - 32 - 32 - 16 - 8 < 8), Bool.true_and]; congr 1; omega

/-- What `legalWord` can answer: the operation, exactly where the four must-be-zero parts are zero. -/
theorem legalWord_ok {idxHi : BitVec 8} {immHi : BitVec 16} {aHi bHi : Word} {i j : Instr} :
    legalWord idxHi immHi aHi bHi i = .ok j ↔ idxHi = 0 ∧ immHi = 0 ∧ aHi = 0 ∧ bHi = 0 ∧ i = j := by
  unfold legalWord
  split_ifs <;> simp_all

end Sys2Proof

namespace Sys2Proof.Machine

variable (st : Status) (aux : BitVec 24) (v : Word)

@[simp] theorem statusField_respWord : statusField (respWord st aux v) = st.code := by
  apply BitVec.eq_of_getLsbD_eq
  intro i hi
  simp only [statusField, respWord, BitVec.getLsbD_extractLsb', BitVec.getLsbD_append, hi]
  simp [show ¬ (56 + i < 32) by omega, show ¬ (56 + i - 32 < 24) by omega, show 56 + i - 32 - 24 = i by omega]

@[simp] theorem auxField_respWord : auxField (respWord st aux v) = aux := by
  apply BitVec.eq_of_getLsbD_eq
  intro i hi
  simp only [auxField, respWord, BitVec.getLsbD_extractLsb', BitVec.getLsbD_append, hi]
  simp [show ¬ (32 + i < 32) by omega, show 32 + i - 32 = i by omega, hi]

@[simp] theorem valueField_respWord : valueField (respWord st aux v) = v := by
  apply BitVec.eq_of_getLsbD_eq
  intro i hi
  simp only [valueField, respWord, BitVec.getLsbD_extractLsb', BitVec.getLsbD_append, hi]
  simp [hi]

end Sys2Proof.Machine
end

