-- ==== Sys2Proof/Laws/PerInstr.lean ====
section
/-! SUPPORT. Families of lemmas with one lemma per operation. `EncodeHead`: the word of an operation carries its opcode,
and an agent finds its own operation by that word (30_encoding.md R71, R72). -/

namespace Sys2Proof.Laws.EncodeHead

/-- The opcode field of the operation's word, and the agent that presents such a word. -/
def Statement (i : Instr) : Prop := opcodeField (encode i) = i.opcode ∧ homeAgent (encode i) = i.agent

/-- Which agent presents a word depends on its opcode only. -/
theorem homeAgent_opWord (op idx : BitVec 8) (imm : BitVec 16) (a b : Word) :
    homeAgent (opWord op idx imm a b) = homeAgent (opWord op 0 0 0 0) := by
  simp only [homeAgent, opcodeField_opWord]

theorem nop : Statement .nop :=
  ⟨opcodeField_opWord .., (homeAgent_opWord ..).trans
    (by decide : homeAgent (opWord 0x00 0 0 0 0) = .ctl)⟩

theorem csrRd (addr : BitVec 16) : Statement (.csrRd addr) :=
  ⟨opcodeField_opWord .., (homeAgent_opWord ..).trans
    (by decide : homeAgent (opWord 0x01 0 0 0 0) = .ctl)⟩

theorem csrWr (addr : BitVec 16) (data : Word) : Statement (.csrWr addr data) :=
  ⟨opcodeField_opWord .., (homeAgent_opWord ..).trans
    (by decide : homeAgent (opWord 0x02 0 0 0 0) = .ctl)⟩

theorem msTick : Statement .msTick :=
  ⟨opcodeField_opWord .., (homeAgent_opWord ..).trans
    (by decide : homeAgent (opWord 0x03 0 0 0 0) = .ctl)⟩

theorem debUpd (lane : BitVec 5) (raw : Bool) : Statement (.debUpd lane raw) :=
  ⟨opcodeField_opWord .., (homeAgent_opWord ..).trans
    (by decide : homeAgent (opWord 0x10 0 0 0 0) = .ctl)⟩

theorem btnUpd (b : BitVec 4) (raw : Bool) : Statement (.btnUpd b raw) :=
  ⟨opcodeField_opWord .., (homeAgent_opWord ..).trans
    (by decide : homeAgent (opWord 0x11 0 0 0 0) = .ctl)⟩

theorem keyScan (raw16 : BitVec 16) : Statement (.keyScan raw16) :=
  ⟨opcodeField_opWord .., (homeAgent_opWord ..).trans
    (by decide : homeAgent (opWord 0x12 0 0 0 0) = .ctl)⟩

theorem maskDiff (old new : BitVec 16) : Statement (.maskDiff old new) :=
  ⟨opcodeField_opWord .., (homeAgent_opWord ..).trans
    (by decide : homeAgent (opWord 0x13 0 0 0 0) = .ctl)⟩

theorem qeiTick (e : BitVec 3) (count : BitVec 16) : Statement (.qeiTick e count) :=
  ⟨opcodeField_opWord .., (homeAgent_opWord ..).trans
    (by decide : homeAgent (opWord 0x20 0 0 0 0) = .ctl)⟩

theorem qdecSmp (q : BitVec 3) (clk dt : Bool) : Statement (.qdecSmp q clk dt) :=
  ⟨opcodeField_opWord .., (homeAgent_opWord ..).trans
    (by decide : homeAgent (opWord 0x21 0 0 0 0) = .ctl)⟩

theorem qdecTick (q : BitVec 3) : Statement (.qdecTick q) :=
  ⟨opcodeField_opWord .., (homeAgent_opWord ..).trans
    (by decide : homeAgent (opWord 0x22 0 0 0 0) = .ctl)⟩

theorem envCurve (x bend : Word) : Statement (.envCurve x bend) :=
  ⟨opcodeField_opWord .., (homeAgent_opWord ..).trans
    (by decide : homeAgent (opWord 0x30 0 0 0 0) = .ctl)⟩

theorem envShape (stage : BitVec 3) (x : Word) : Statement (.envShape stage x) :=
  ⟨opcodeField_opWord .., (homeAgent_opWord ..).trans
    (by decide : homeAgent (opWord 0x31 0 0 0 0) = .ctl)⟩

theorem envEdur (stage : BitVec 3) (offset vel : Word) : Statement (.envEdur stage offset vel) :=
  ⟨opcodeField_opWord .., (homeAgent_opWord ..).trans
    (by decide : homeAgent (opWord 0x32 0 0 0 0) = .ctl)⟩

theorem envEamp (stage : BitVec 3) (offset vel : Word) : Statement (.envEamp stage offset vel) :=
  ⟨opcodeField_opWord .., (homeAgent_opWord ..).trans
    (by decide : homeAgent (opWord 0x33 0 0 0 0) = .ctl)⟩

theorem envEbend (stage : BitVec 3) (offset vel : Word) : Statement (.envEbend stage offset vel) :=
  ⟨opcodeField_opWord .., (homeAgent_opWord ..).trans
    (by decide : homeAgent (opWord 0x34 0 0 0 0) = .ctl)⟩

theorem synNoteon (note : BitVec 7) : Statement (.synNoteon note) :=
  ⟨opcodeField_opWord .., (homeAgent_opWord ..).trans
    (by decide : homeAgent (opWord 0x40 0 0 0 0) = .smp)⟩

theorem synNoteoff (note : BitVec 7) : Statement (.synNoteoff note) :=
  ⟨opcodeField_opWord .., (homeAgent_opWord ..).trans
    (by decide : homeAgent (opWord 0x41 0 0 0 0) = .smp)⟩

theorem synTick : Statement .synTick :=
  ⟨opcodeField_opWord .., (homeAgent_opWord ..).trans
    (by decide : homeAgent (opWord 0x42 0 0 0 0) = .smp)⟩

theorem ringPush (l r : Word) : Statement (.ringPush l r) :=
  ⟨opcodeField_opWord .., (homeAgent_opWord ..).trans
    (by decide : homeAgent (opWord 0x50 0 0 0 0) = .smp)⟩

theorem ringDrain (h : Bool) : Statement (.ringDrain h) :=
  ⟨opcodeField_opWord .., (homeAgent_opWord ..).trans
    (by decide : homeAgent (opWord 0x51 0 0 0 0) = .bus)⟩

theorem ringSyncw (adv : Word) : Statement (.ringSyncw adv) :=
  ⟨opcodeField_opWord .., (homeAgent_opWord ..).trans
    (by decide : homeAgent (opWord 0x58 0 0 0 0) = .syncw)⟩

theorem ringSyncr (adv : Word) : Statement (.ringSyncr adv) :=
  ⟨opcodeField_opWord .., (homeAgent_opWord ..).trans
    (by decide : homeAgent (opWord 0x59 0 0 0 0) = .syncr)⟩

theorem ringSyncu : Statement .ringSyncu :=
  ⟨opcodeField_opWord .., (homeAgent_opWord ..).trans
    (by decide : homeAgent (opWord 0x5A 0 0 0 0) = .syncu)⟩

end Sys2Proof.Laws.EncodeHead
end

