-- ==== Sys2Proof/Laws/Schedule.lean ====
section
/-! SUPPORT. What a step can do to the ring's pointers and the underrun counter, and what a fair run delivers: 20_memory.md
R46 (5) from the fairness of 44_ring.md R211. -/

namespace Sys2Proof.Machine

open Sys2Proof.Safety

/-! ### The pointers after an operation -/

/-- The pointers of the ring, their copies, and the underrun counter with its shadow. -/
structure Pointers where
  wptr : Nat
  rptr : Nat
  wgSync : Nat
  rgSync : Nat
  underrun : Word
  urShadow : Word

/-- The pointers of a state. -/
def State.pointers (s : State) : Pointers := ⟨s.wptr, s.rptr, s.wgSync, s.rgSync, s.underrun, s.urShadow⟩

/-- Everything an operation can do to the pointers (44_ring.md R201, R204, R208 to R210). -/
inductive PointerMove (s : State) : Instr → Pointers → Prop
  | stay (i : Instr) : PointerMove s i s.pointers
  | push (i : Instr) : s.occSeen ≠ s.cfg.ringN → PointerMove s i { s.pointers with wptr := ptrAdd s.cfg s.wptr 1 }
  | drain (h : Bool) (u : Word) : s.underrun.toNat ≤ u.toNat → PointerMove s (.ringDrain h)
      { s.pointers with rptr := ptrAdd s.cfg s.rptr s.drainCount, underrun := u }
  | syncw (adv : Word) : advOperand adv ≤ s.wLag → PointerMove s (.ringSyncw adv)
      { s.pointers with wgSync := gray (ptrAdd s.cfg s.wSeen (advOperand adv)) }
  | syncr (adv : Word) : advOperand adv ≤ s.rLag → PointerMove s (.ringSyncr adv)
      { s.pointers with rgSync := gray (ptrAdd s.cfg s.rSeen (advOperand adv)) }
  | syncu : PointerMove s .ringSyncu { s.pointers with urShadow := s.underrun }

/-- A push moves the write pointer by one or nothing. -/
theorem push_pointers (s : State) (i : Instr) (f : Frame) :
    (s.push f).cfg = s.cfg ∧ PointerMove s i (s.push f).pointers := by
  rcases push_cases s f with ⟨_, h⟩ | ⟨hf, h⟩ <;> rw [h]
  · exact ⟨rfl, .stay i⟩
  · exact ⟨rfl, .push i hf⟩

/-- The saturating counter does not fall (44_ring.md R205). -/
theorem underrunAfter_ge (u : Word) (deficit : Nat) : u.toNat ≤ (underrunAfter u deficit).toNat := by
  have := u.isLt
  simp only [underrunAfter, BitVec.toNat_ofNat]
  rw [Nat.mod_eq_of_lt (by omega)]
  omega

theorem writeCsr_pointers (s : State) (data : Word) (r : Csr) :
    (s.writeCsr data r).cfg = s.cfg ∧ (s.writeCsr data r).pointers = s.pointers := by
  cases r <;> exact ⟨rfl, rfl⟩

/-- An answer from a state with the pointers of `s` leaves them where they are. -/
theorem stay_of_next {s t u : State} {i : Instr}
    (h : (.next u : Host.Outcome State Fault Refusal) = .next t) (hc : u.cfg = s.cfg) (hp : u.pointers = s.pointers) :
    t.cfg = s.cfg ∧ PointerMove s i t.pointers := by
  cases h; exact ⟨hc, hp ▸ .stay i⟩

/-- Where a drain answers, it moves the read pointer by the frames it found and does not lower the counter (44_ring.md
R204). -/
theorem execRingDrain_pointers {s t : State} {half : Bool} (h : execRingDrain half s = .next t) :
    t.cfg = s.cfg ∧ PointerMove s (.ringDrain half) t.pointers := by
  unfold execRingDrain at h
  dsimp only at h
  split at h
  · cases h
  · split at h <;> cases h <;> refine ⟨by cases half <;> rfl, ?_⟩
    · cases half <;> exact .drain _ _ (underrunAfter_ge _ _)
    · cases half <;> exact .drain _ _ le_rfl

/-- Everything an operation can do to the pointers; no operation changes the build parameters. -/
theorem exec_pointers {i : Instr} {s t : State} (h : exec i s = .next t) :
    t.cfg = s.cfg ∧ PointerMove s i t.pointers := by
  cases i with
  | nop => exact stay_of_next h rfl rfl
  | csrRd addr => simp only [exec, execCsrRd] at h; split at h <;> exact stay_of_next h rfl rfl
  | csrWr addr data =>
    simp only [exec, execCsrWr] at h
    split at h
    · exact stay_of_next h rfl rfl
    · split at h
      · exact stay_of_next h rfl rfl
      · exact stay_of_next h (writeCsr_pointers s data _).1 (writeCsr_pointers s data _).2
  | msTick => exact stay_of_next h rfl rfl
  | debUpd lane raw => simp only [exec, execDebUpd] at h; split at h <;> exact stay_of_next h rfl rfl
  | btnUpd b raw =>
    simp only [exec, execBtnUpd] at h
    split at h
    · split at h <;> exact stay_of_next h rfl rfl
    · exact stay_of_next h rfl rfl
  | keyScan raw16 => exact stay_of_next h rfl rfl
  | maskDiff old new => exact stay_of_next h rfl rfl
  | qeiTick e count =>
    simp only [exec, execQeiTick] at h
    split at h
    · split at h <;> exact stay_of_next h rfl rfl
    · exact stay_of_next h rfl rfl
  | qdecSmp q clk dt => simp only [exec, execQdecSmp] at h; split at h <;> exact stay_of_next h rfl rfl
  | qdecTick q => simp only [exec, execQdecTick] at h; split at h <;> exact stay_of_next h rfl rfl
  | envCurve x bend => exact stay_of_next h rfl rfl
  | envShape stage x => simp only [exec, execEnvShape] at h; split at h <;> exact stay_of_next h rfl rfl
  | envEdur stage offset vel =>
    simp only [exec, execEnvEdur] at h
    split at h
    · exact stay_of_next h rfl rfl
    · split at h <;> exact stay_of_next h rfl rfl
  | envEamp stage offset vel => simp only [exec, execEnvEamp] at h; split at h <;> exact stay_of_next h rfl rfl
  | envEbend stage offset vel =>
    simp only [exec, execEnvEbend] at h
    split at h
    · exact stay_of_next h rfl rfl
    · split at h <;> exact stay_of_next h rfl rfl
  | synNoteon note => simp only [exec, execSynNoteon] at h; split at h <;> exact stay_of_next h rfl rfl
  | synNoteoff note => simp only [exec, execSynNoteoff] at h; split at h <;> exact stay_of_next h rfl rfl
  | synTick => cases h; exact push_pointers s .synTick _
  | ringPush l r => cases h; exact push_pointers s (.ringPush l r) _
  | ringDrain half => exact execRingDrain_pointers h
  | ringSyncw adv =>
    simp only [exec, execRingSyncw] at h
    split at h <;> cases h
    · exact ⟨rfl, .syncw adv (by assumption)⟩
    · exact ⟨rfl, .stay _⟩
  | ringSyncr adv =>
    simp only [exec, execRingSyncr] at h
    split at h <;> cases h
    · exact ⟨rfl, .syncr adv (by assumption)⟩
    · exact ⟨rfl, .stay _⟩
  | ringSyncu => cases h; exact ⟨rfl, .syncu⟩

/-- A step that serves no reset strobe does to the pointers what the operation it serves does, or nothing. -/
theorem step_pointers {s t : State} (h : step s = .next t) (hr : s.service ≠ .reset) :
    t.cfg = s.cfg ∧ ∃ i, PointerMove s.taken i t.pointers := by
  rcases service_cases s with ⟨e, _⟩ | ⟨e, _⟩ | ⟨a, _, _, e, _⟩ | ⟨_, _, _, i, e, _⟩
  · simp only [step, e] at h; cases h; exact ⟨rfl, .nop, .stay _⟩
  · exact absurd e hr
  · simp only [step, e] at h; cases h; cases a <;> exact ⟨rfl, .nop, .stay _⟩
  · simp only [step, e] at h; exact ⟨(exec_pointers h).1, i, (exec_pointers h).2⟩

/-! ### The lags after a step -/

/-- The inputs still to come and the samples are in no invariant. -/
theorem withInputs_invariants {s : State} (h : Invariants s) (inputs : List Input)
    (samples : List (Vector (BitVec 16) 16)) : Invariants { s with pending := inputs, oscIn := samples } :=
  { cfg := h.cfg, laneWidth := h.laneWidth, laneHigh := h.laneHigh, laneLow := h.laneLow, velocity := h.velocity
    durations := h.durations, bends := h.bends, amplitude := h.amplitude, pointers := h.pointers
    occupancy := h.occupancy, producerView := h.producerView, consumerView := h.consumerView, written := h.written
    shadow := h.shadow, ringForm := h.ringForm, hwForm := h.hwForm }

/-- A copy moved forward by at most its lag: what is delivered and what is left make up the lag. -/
theorem lag_of_sync (c : Config) {ptr copy adv : Nat} (hp : ptr < 2 * c.ringN) (hc : copy < 2 * c.ringN)
    (ha : adv ≤ ptrDist c ptr copy) :
    let moved := ungray c.ptrWidth (gray (ptrAdd c copy adv))
    ptrDist c moved copy = adv ∧ ptrDist c ptr copy = ptrDist c ptr moved + ptrDist c moved copy := by
  have hd := ptrDist_or c hp hc
  have hlt := ptrAdd_lt c copy adv
  rw [ungray_gray (by rw [two_pow_ptrWidth]; exact hlt)]
  have hm := ptrAdd_or c hc (n := adv) (by omega)
  have h1 := ptrDist_or c hlt hc
  have h2 := ptrDist_or c hp hlt
  constructor <;> omega

/-- A move of the pointers lowers the lag of the write pointer's copy by no more than it delivers. -/
theorem wLag_le_of_move {s : State} {i : Instr} {p : Pointers} (hs : Invariants s) (h : PointerMove s i p) :
    s.wLag ≤ ptrDist s.cfg p.wptr (ungray s.cfg.ptrWidth p.wgSync) +
      ptrDist s.cfg (ungray s.cfg.ptrWidth p.wgSync) s.wSeen := by
  have hp := hs.pointers
  have hw := wSeen_lt s
  cases h with
  | stay => exact Nat.le_add_right _ _
  | push _ hf =>
    have hocc := hs.producerView
    have hav := hs.consumerView
    have hr := rSeen_lt s
    have hnew := ptrAdd_or s.cfg hp.1 (n := 1) (by omega)
    have hlt := ptrAdd_lt s.cfg s.wptr 1
    have d1 := ptrDist_or s.cfg hp.1 hw
    have d2 := ptrDist_or s.cfg hp.1 hr
    have d3 := ptrDist_or s.cfg hp.1 hp.2.1
    have d4 := ptrDist_or s.cfg hw hp.2.1
    have d5 := ptrDist_or s.cfg hlt hw
    change ptrDist s.cfg s.wptr s.wSeen ≤ ptrDist s.cfg (ptrAdd s.cfg s.wptr 1) s.wSeen + _
    simp only [State.occ, State.occSeen, State.avail] at *
    omega
  | drain => exact Nat.le_add_right _ _
  | syncw adv ha =>
    exact le_of_eq (lag_of_sync s.cfg hp.1 hw ha).2
  | syncr => exact Nat.le_add_right _ _
  | syncu => exact Nat.le_add_right _ _

/-- A move of the pointers lowers the lag of the read pointer's copy by no more than it delivers. -/
theorem rLag_le_of_move {s : State} {i : Instr} {p : Pointers} (hs : Invariants s) (h : PointerMove s i p) :
    s.rLag ≤ ptrDist s.cfg p.rptr (ungray s.cfg.ptrWidth p.rgSync) +
      ptrDist s.cfg (ungray s.cfg.ptrWidth p.rgSync) s.rSeen := by
  have hp := hs.pointers
  have hr := rSeen_lt s
  cases h with
  | stay => exact Nat.le_add_right _ _
  | push => exact Nat.le_add_right _ _
  | drain =>
    have hn : s.drainCount ≤ s.avail := Nat.min_le_left _ _
    have hocc := hs.producerView
    have hav := hs.consumerView
    have hnew := ptrAdd_or s.cfg hp.2.1 (n := s.drainCount) (by have := hs.occupancy; omega)
    have hlt := ptrAdd_lt s.cfg s.rptr s.drainCount
    have d1 := ptrDist_or s.cfg hp.2.1 hr
    have d2 := ptrDist_or s.cfg hp.1 hr
    have d3 := ptrDist_or s.cfg hp.1 hp.2.1
    have d5 := ptrDist_or s.cfg hlt hr
    change ptrDist s.cfg s.rptr s.rSeen ≤ ptrDist s.cfg (ptrAdd s.cfg s.rptr s.drainCount) s.rSeen + _
    simp only [State.occ, State.occSeen] at *
    omega
  | syncw => exact Nat.le_add_right _ _
  | syncr adv ha =>
    exact le_of_eq (lag_of_sync s.cfg hp.2.1 hr ha).2
  | syncu => exact Nat.le_add_right _ _

/-- No move of the pointers lowers the underrun counter (44_ring.md R205). -/
theorem underrun_le_of_move {s : State} {i : Instr} {p : Pointers} (h : PointerMove s i p) :
    s.underrun.toNat ≤ p.underrun.toNat := by
  cases h with
  | drain _ u hu => exact hu
  | stay => exact le_rfl
  | push => exact le_rfl
  | syncw => exact le_rfl
  | syncr => exact le_rfl
  | syncu => exact le_rfl

/-! ### What a fair run delivers -/

theorem totalFrom_mono (delivered : Nat → Nat) (k : Nat) {m n : Nat} (h : m ≤ n) :
    totalFrom delivered k m ≤ totalFrom delivered k n := by
  induction n, h using Nat.le_induction with
  | base => exact le_rfl
  | succ n _ ih => exact ih.trans (Nat.le_add_right _ _)

/-- A lag that only its step lowers, by what is delivered, is delivered in the end where the step is weakly fair. -/
theorem delivered_of_weaklyFair {lag delivered : Nat → Nat} {reset taken : Nat → Prop}
    (lag_le : ∀ j, ¬ reset j → lag j ≤ lag (j + 1) + delivered j) (taken_pos : ∀ j, taken j → 0 < delivered j)
    (fair : WeaklyFair (fun j => 0 < lag j) taken) (k : Nat) :
    ∃ n, (∃ j, k ≤ j ∧ j < k + n ∧ reset j) ∨ lag k ≤ totalFrom delivered k n := by
  by_contra! never
  have no_reset : ∀ j, k ≤ j → ¬ reset j := fun j hj => (never (j - k + 1)).1 j hj (by omega)
  have left : ∀ n, lag k ≤ lag (k + n) + totalFrom delivered k n := by
    intro n
    induction n with
    | zero => exact le_rfl
    | succ n ih =>
      have := lag_le (k + n) (no_reset _ (by omega))
      simp only [totalFrom, ← Nat.add_assoc] at *
      omega
  have enabled : ∀ j, k ≤ j → 0 < lag j := by
    intro j hj
    have h1 := left (j - k)
    have h2 := (never (j - k)).2
    rw [Nat.add_sub_cancel' hj] at h1
    omega
  have grows : ∀ b, ∃ n, b ≤ totalFrom delivered k n := by
    intro b
    induction b with
    | zero => exact ⟨0, Nat.zero_le _⟩
    | succ b ih =>
      obtain ⟨n, hn⟩ := ih
      obtain ⟨j, hj, ht⟩ := fair (k + n) fun j hj => enabled j (by omega)
      have h1 := taken_pos j ht
      have h2 := totalFrom_mono delivered k (show n ≤ j - k by omega)
      refine ⟨j - k + 1, ?_⟩
      simp only [totalFrom, Nat.add_sub_cancel' (show k ≤ j by omega)]
      omega
  obtain ⟨n, hn⟩ := grows (lag k)
  exact absurd hn (Nat.not_le.mpr (never n).2)

section
variable {moments : Nat → Moment} {states : Nat → State}

/-- The pointers after a moment of a run in which no reset strobe is served. -/
theorem isRun_pointers (run : IsRun moments states) {k : Nat} (hr : servedAt moments states k ≠ .reset) :
    (states (k + 1)).cfg = (states k).cfg ∧
      ∃ i, PointerMove ((states k).facing (moments k)).taken i (states (k + 1)).pointers :=
  step_pointers (run k) hr

/-- What a taken RING.SYNCW delivers. -/
theorem wDelivered_pos (run : IsRun moments states) (inv : ∀ k, Invariants (states k)) {k : Nat}
    (h : SyncwTaken moments states k) : 0 < wDelivered states k := by
  obtain ⟨adv, served, hpos, hle⟩ := h
  have hk := run k
  simp only [step, show State.service _ = _ from served, exec, execRingSyncw] at hk
  rw [if_pos (by exact hle)] at hk
  have moved := (lag_of_sync (states k).cfg (inv k).pointers.1 (wSeen_lt (states k)) hle).1
  rw [wDelivered, ← Host.Outcome.next.inj hk]
  exact lt_of_lt_of_eq hpos moved.symm

/-- What a taken RING.SYNCR delivers. -/
theorem rDelivered_pos (run : IsRun moments states) (inv : ∀ k, Invariants (states k)) {k : Nat}
    (h : SyncrTaken moments states k) : 0 < rDelivered states k := by
  obtain ⟨adv, served, hpos, hle⟩ := h
  have hk := run k
  simp only [step, show State.service _ = _ from served, exec, execRingSyncr] at hk
  rw [if_pos (by exact hle)] at hk
  have moved := (lag_of_sync (states k).cfg (inv k).pointers.2.1 (rSeen_lt (states k)) hle).1
  rw [rDelivered, ← Host.Outcome.next.inj hk]
  exact lt_of_lt_of_eq hpos moved.symm

/-- 20_memory.md R46 (5), 44_ring.md R211: in a fair run every value of the write pointer reaches the consumer: from any
moment on, unless a reset strobe comes first, the consumer's copy moves forward by the whole lag of that moment. The
invariants hold along every run from reset (`Obligations.EveryStepKeepsTheInvariant`). -/
theorem fairRun_delivers_wptr (fair : FairRun moments states) (inv : ∀ k, Invariants (states k)) (k : Nat) :
    ∃ n, ResetWithin moments states k n ∨ (states k).wLag ≤ totalFrom (wDelivered states) k n := by
  refine delivered_of_weaklyFair (lag := fun j => (states j).wLag) (fun j hr => ?_)
    (fun j => wDelivered_pos fair.run inv) fair.syncw k
  obtain ⟨hc, i, move⟩ := isRun_pointers fair.run hr
  have := wLag_le_of_move (withInputs_invariants (inv j) _ _) move
  simpa only [State.wLag, State.wSeen, wDelivered, hc, State.pointers] using this

/-- 20_memory.md R46 (5), 44_ring.md R211: likewise for the read pointer and the producer. -/
theorem fairRun_delivers_rptr (fair : FairRun moments states) (inv : ∀ k, Invariants (states k)) (k : Nat) :
    ∃ n, ResetWithin moments states k n ∨ (states k).rLag ≤ totalFrom (rDelivered states) k n := by
  refine delivered_of_weaklyFair (lag := fun j => (states j).rLag) (fun j hr => ?_)
    (fun j => rDelivered_pos fair.run inv) fair.syncr k
  obtain ⟨hc, i, move⟩ := isRun_pointers fair.run hr
  have := rLag_le_of_move (withInputs_invariants (inv j) _ _) move
  simpa only [State.rLag, State.rSeen, rDelivered, hc, State.pointers] using this

/-- 44_ring.md R211: in a fair run `UNDERRUN` comes to read at least what the counter is at any moment, unless a reset
strobe comes first. -/
theorem fairRun_delivers_underrun (fair : FairRun moments states) (k : Nat) :
    ∃ n, ResetWithin moments states k n ∨
      (states k).underrun.toNat ≤ (states (k + n)).urShadow.toNat := by
  by_contra! never
  have no_reset : ∀ j, k ≤ j → servedAt moments states j ≠ .reset :=
    fun j hj hr => (never (j - k + 1)).1 ⟨j, hj, by omega, hr⟩
  have grows : ∀ n, (states k).underrun.toNat ≤ (states (k + n)).underrun.toNat := by
    intro n
    induction n with
    | zero => exact le_rfl
    | succ n ih =>
      obtain ⟨_, i, move⟩ := isRun_pointers fair.run (no_reset (k + n) (by omega))
      exact ih.trans (underrun_le_of_move move)
  have behind : ∀ j, k ≤ j → (states j).urShadow ≠ (states j).underrun := by
    intro j hj he
    have h1 := (never (j - k)).2
    have h2 := grows (j - k)
    rw [Nat.add_sub_cancel' hj] at h1 h2
    rw [he] at h1
    omega
  obtain ⟨j, hj, taken⟩ := fair.syncu k behind
  have hj1 := fair.run j
  simp only [step, show State.service _ = _ from taken, exec, execRingSyncu] at hj1
  have h1 := (never (j - k + 1)).2
  have h2 := grows (j - k)
  rw [show k + (j - k + 1) = j + 1 by omega, ← Host.Outcome.next.inj hj1] at h1
  rw [Nat.add_sub_cancel' hj] at h2
  exact absurd h2 (Nat.not_le.mpr h1)

end

end Sys2Proof.Machine
end

