-- ==== Sys2Proof/Machine/Written.lean ====
section
/-! DEFINITION. The written form of operations and responses (30_encoding.md R86), for traces. The samples that a written
`syn.tick` carries are no part of the operation word and are not printed. -/

namespace Sys2Proof.Machine

/-- A one-bit operand in the written form. -/
def writtenBit (b : Bool) : String := if b then "1" else "0"

/-- A mnemonic and its operands, separated by commas (30_encoding.md R86). -/
def writtenOp (mnemonic : String) (operands : List String) : String :=
  mnemonic ++ (if operands.isEmpty then "" else " ") ++ String.intercalate ", " operands

/-- The written form of an operation (30_encoding.md R86); numbers are decimal, signed where R73 reads the field
signed. -/
def writtenInstr : Instr → String
  | .nop => writtenOp "nop" []
  | .csrRd addr => writtenOp "csr.rd" [toString addr.toNat]
  | .csrWr addr data => writtenOp "csr.wr" [toString addr.toNat, toString data.toNat]
  | .msTick => writtenOp "ms.tick" []
  | .debUpd lane raw => writtenOp "deb.upd" [toString lane.toNat, writtenBit raw]
  | .btnUpd b raw => writtenOp "btn.upd" [toString b.toNat, writtenBit raw]
  | .keyScan raw16 => writtenOp "key.scan" [toString raw16.toNat]
  | .maskDiff old new => writtenOp "mask.diff" [toString old.toNat, toString new.toNat]
  | .qeiTick e count => writtenOp "qei.tick" [toString e.toNat, toString count.toNat]
  | .qdecSmp q clk dt => writtenOp "qdec.smp" [toString q.toNat, writtenBit clk, writtenBit dt]
  | .qdecTick q => writtenOp "qdec.tick" [toString q.toNat]
  | .envCurve x bend => writtenOp "env.curve" [toString x.toInt, toString bend.toInt]
  | .envShape stage x => writtenOp "env.shape" [toString stage.toNat, toString x.toInt]
  | .envEdur stage offset vel => writtenOp "env.edur" [toString stage.toNat, toString offset.toInt, toString vel.toNat]
  | .envEamp stage offset vel => writtenOp "env.eamp" [toString stage.toNat, toString offset.toInt, toString vel.toNat]
  | .envEbend stage offset vel => writtenOp "env.ebend" [toString stage.toNat, toString offset.toInt, toString vel.toNat]
  | .synNoteon note => writtenOp "syn.noteon" [toString note.toNat]
  | .synNoteoff note => writtenOp "syn.noteoff" [toString note.toNat]
  | .synTick => writtenOp "syn.tick" []
  | .ringPush l r => writtenOp "ring.push" [toString l.toInt, toString r.toInt]
  | .ringDrain h => writtenOp "ring.drain" [writtenBit h]
  | .ringSyncw adv => writtenOp "ring.syncw" [toString adv.toNat]
  | .ringSyncr adv => writtenOp "ring.syncr" [toString adv.toNat]
  | .ringSyncu => writtenOp "ring.syncu" []

/-- The name of a status (30_encoding.md R84). -/
def statusName : Status → String
  | .none => "NONE"
  | .event => "EVENT"
  | .voiceDropped => "VOICE_DROPPED"
  | .noMatch => "NO_MATCH"
  | .ringFull => "RING_FULL"
  | .underrun => "UNDERRUN"
  | .quadInvalid => "QUAD_INVALID"
  | .illegal => "ILLEGAL"

/-- A response after `=>`: the status, then `aux=` and `value=` where they are not zero (30_encoding.md R86). -/
def writtenResponse (st : Status) (aux : BitVec 24) (value : Word) : String :=
  statusName st
    ++ (if aux = 0 then "" else " aux=" ++ toString aux.toNat)
    ++ (if value = 0 then "" else " value=" ++ toString value.toNat)

end Sys2Proof.Machine
end

