-- ==== Sys2Proof/Tests/Slice0.lean ====
section
/-! SUPPORT. Tests. Expected words are those printed in 95_test_vectors.md, 96_derived_vectors_ctl.md and
97_derived_vectors_audio_sys.md, or read off the encodings of 30_encoding.md R72; each step test starts from the state
the vector's note names. `witness_<Name>` shows states and operands that meet the hypotheses of `Obligations.<Name>`,
each of its clauses at a boundary. -/

namespace Sys2Proof.Tests

open Sys2Proof.Machine Sys2Proof.Safety

/-! ### States and observers -/

/-- The parameters of the RING vectors (`RING_N` 4, `HALF_FRAMES` 2) and of the accelerated vectors
(`VELOCITY_DEC_FREQUENCY` 10, `UPDATE_FREQUENCY` 5, `VEL_INC` 16384, `VEL_DEC` 4096); the rest as the reference. -/
def cfg : Config := { Config.reference with
  ringLog := 2, halfFrames := 2, velocityDecFrequencySet := some 10, updateFrequencySet := some 5,
  velIncSet := some 16384, velDecSet := some 4096 }

/-- The block with those parameters after reset. -/
def zero : State := State.resetWith cfg

/-- The block with two frames in the ring, of which the consumer sees one, and one voice sounding. -/
def mid : State := { zero with
  voices := zero.voices.set 0 (.sounding 69)
  ring := [(0, ⟨0x80000000, 0x7FFFFFFF⟩), (1, ⟨1, 2⟩)]
  wptr := 2
  wgSync := 1 }

/-- The response of a step. -/
def resp : Host.Outcome State Fault Refusal → Option (Agent × RespWord)
  | .next t => t.out.resp
  | .fault _ => none
  | .refused _ => none

/-- One value of the next state. -/
def after {α : Type} (o : Host.Outcome State Fault Refusal) (f : State → α) : Option α :=
  match o with
  | .next t => some (f t)
  | .fault _ => none
  | .refused _ => none

/-! ### Decoding: one word of each row of 30_encoding.md R72, written out from the table -/

theorem test_decode_nop : decode 0x000000000000000000000000 = .ok .nop := by decide
theorem test_decode_csrRd : decode 0x010000460000000000000000 = .ok (.csrRd 0x46) := by decide
theorem test_decode_csrWr : decode 0x020000460000000000011170 = .ok (.csrWr 0x46 70000) := by decide
theorem test_decode_msTick : decode 0x030000000000000000000000 = .ok .msTick := by decide
theorem test_decode_debUpd : decode 0x101F00000000000000000001 = .ok (.debUpd 31 true) := by decide
theorem test_decode_btnUpd : decode 0x110F00000000000000000001 = .ok (.btnUpd 15 true) := by decide
theorem test_decode_keyScan : decode 0x120080010000000000000000 = .ok (.keyScan 0x8001) := by decide
theorem test_decode_maskDiff : decode 0x130000000000800100000003 = .ok (.maskDiff 0x8001 0x0003) := by decide
theorem test_decode_qeiTick : decode 0x200780000000000000000000 = .ok (.qeiTick 7 0x8000) := by decide
theorem test_decode_qdecSmp : decode 0x210100000000000000000002 = .ok (.qdecSmp 1 true false) := by decide
theorem test_decode_qdecTick : decode 0x220100000000000000000000 = .ok (.qdecTick 1) := by decide
theorem test_decode_envCurve : decode 0x3000000000004000FFFF8000 = .ok (.envCurve 0x4000 0xFFFF8000) := by decide
theorem test_decode_envShape : decode 0x310100000000800000000000 = .ok (.envShape 1 0x8000) := by decide
theorem test_decode_envEdur : decode 0x32010000FFFFFFFD00008000 = .ok (.envEdur 1 0xFFFFFFFD 0x8000) := by decide
theorem test_decode_envEamp : decode 0x33040000FFFFFFFF00003333 = .ok (.envEamp 4 0xFFFFFFFF 0x3333) := by decide
theorem test_decode_envEbend : decode 0x34050000FFFFFFFF00010000 = .ok (.envEbend 5 0xFFFFFFFF 0x10000) := by decide
theorem test_decode_synNoteon : decode 0x407F00000000000000000000 = .ok (.synNoteon 127) := by decide
theorem test_decode_synNoteoff : decode 0x413C00000000000000000000 = .ok (.synNoteoff 60) := by decide
theorem test_decode_synTick : decode 0x420000000000000000000000 = .ok .synTick := by decide
theorem test_decode_ringPush : decode 0x5000000000000007FFFFFFF9 = .ok (.ringPush 7 0xFFFFFFF9) := by decide
theorem test_decode_ringDrain : decode 0x510100000000000000000000 = .ok (.ringDrain true) := by decide
theorem test_decode_ringSyncw : decode 0x580000000000000000000400 = .ok (.ringSyncw 1024) := by decide
theorem test_decode_ringSyncr : decode 0x590000000000000000000002 = .ok (.ringSyncr 2) := by decide
theorem test_decode_ringSyncu : decode 0x5A0000000000000000000000 = .ok .ringSyncu := by decide

/-- The illegal words of 97_derived_vectors_audio_sys.md: an unassigned opcode, and each field where it must be zero. -/
theorem test_decode_refuses :
    decode 0x140000000000000000000000 = .error (.unassignedOpcode 0x14) ∧
    decode 0x000000000000000000000001 = .error .bNotZero ∧
    decode 0x420000000000000100000000 = .error .aNotZero ∧
    decode 0x510100010000000000000000 = .error .immNotZero ∧
    decode 0x510200000000000000000000 = .error .idxNotZero := by decide

/-- The host's numbering: bit 0 is the least significant bit of the 96-bit word. -/
theorem test_table_word :
    decodeTableWord 96 0x101F00000000000000000001 = some (.debUpd 31 true) ∧
    decodeTableWord 96 0x140000000000000000000000 = none := by decide

/-- A word placed by `withFetchWord` is the next to run. -/
theorem test_fetch_word : resp (step (State.reset.withFetchWord 96 0x010000000000000000000000)) =
    some (.ctl, 0x0100000050415731) := by decide

/-! ### The range checks of 30_encoding.md R76: an ill-formed term for each -/

theorem test_wf_csrRd : (Instr.csrRd 0x0011).wellFormed Config.reference = false := by decide
theorem test_wf_csrWr_reserved : (Instr.csrWr 0x0049 0).wellFormed Config.reference = false := by decide
theorem test_wf_csrWr_readOnly : (Instr.csrWr 0x0001 5).wellFormed Config.reference = false := by decide
theorem test_wf_btnUpd : (Instr.btnUpd 1 true).wellFormed Config.reference = false := by decide
theorem test_wf_qeiTick : (Instr.qeiTick 1 0).wellFormed Config.reference = false := by decide
theorem test_wf_qdecSmp : (Instr.qdecSmp 2 true true).wellFormed Config.reference = false := by decide
theorem test_wf_qdecTick : (Instr.qdecTick 2).wellFormed Config.reference = false := by decide
theorem test_wf_envShape : (Instr.envShape 6 0).wellFormed Config.reference = false := by decide
theorem test_wf_envEdur : (Instr.envEdur 7 1 1).wellFormed Config.reference = false := by decide
theorem test_wf_envEamp : (Instr.envEamp 6 1 1).wellFormed Config.reference = false := by decide
theorem test_wf_envEbend : (Instr.envEbend 6 1 1).wellFormed Config.reference = false := by decide
theorem test_wf_accepts : (Instr.csrWr 0x0048 0).wellFormed Config.reference = true ∧
    (Instr.qdecTick 1).wellFormed Config.reference = true ∧ (Instr.envShape 5 0).wellFormed Config.reference = true := by
  decide

/-! ### One step of each operation -/

theorem test_nop : resp (exec .nop zero) = some (.ctl, 0x0000000000000000) := by decide

theorem test_csrRd_id : resp (exec (.csrRd 0x0000) zero) = some (.ctl, 0x0100000050415731) := by decide

theorem test_csrRd_reserved : resp (exec (.csrRd 0x003A) zero) = some (.ctl, 0x7F00000000000000) := by decide

theorem test_csrWr_clamps : resp (exec (.csrWr 0x0046 70000) zero) = some (.ctl, 0x0100000000010000) := by decide

theorem test_csrWr_readOnly : resp (exec (.csrWr 0x0001 5) zero) = some (.ctl, 0x7F00000000000000) := by decide

/-- 45_system.md R235: modulo 2^32. -/
theorem test_msTick_wraps : after (exec .msTick { zero with msCount := 0xFFFFFFFF }) (·.msCount) = some 0 := by decide

/-- The third consecutive 1 with `conf` 0, lane 0. -/
theorem test_debUpd_rises : resp (exec (.debUpd 0 true) { zero with lanes := zero.lanes.set 0 ⟨3, false⟩ }) =
    some (.ctl, 0x0100000100000000) := by decide

/-- All ones again with `conf` already 1 is no second edge (90_conflicts.md C1). -/
theorem test_debUpd_no_second_edge :
    resp (exec (.debUpd 0 true) { zero with lanes := zero.lanes.set 0 ⟨3, true⟩ }) = some (.ctl, 0) := by decide

/-- PullUp: the line confirmed high is Up. -/
theorem test_btnUpd_up : resp (exec (.btnUpd 0 true) { zero with lanes := zero.lanes.set 16 ⟨7, false⟩ }) =
    some (.ctl, 0x0100000100000000) := by decide

/-- PullDown: the line confirmed high is Down. -/
theorem test_btnUpd_down :
    resp (exec (.btnUpd 0 true)
      { zero with lanes := zero.lanes.set 16 ⟨7, false⟩, btnPull := zero.btnPull.set 0 true }) =
    some (.ctl, 0x0100000200000000) := by decide

/-- Channel 4 confirmed while channel 0 is held. -/
theorem test_keyScan :
    resp (exec (.keyScan 0x0011)
      { zero with lanes := (zero.lanes.set 0 ⟨7, true⟩).set 4 ⟨3, false⟩, keyMask := 1 }) =
    some (.ctl, 0x0100001100000010) := by decide

theorem test_maskDiff : resp (exec (.maskDiff 0x8001 0x0003) zero) = some (.ctl, 0x0100000380000002) := by decide

/-- The difference -32768 halves to -16384 (41_rotary.md R122 c). -/
theorem test_qeiTick_minimum : resp (exec (.qeiTick 0 32768) zero) = some (.ctl, 0x01000000FFFFC000) := by decide

/-- The difference -3 halves toward zero to -1. -/
theorem test_qeiTick_toward_zero : resp (exec (.qeiTick 0 2) { zero with qei := zero.qei.set 0 ⟨false, 5⟩ }) =
    some (.ctl, 0x01000000FFFFFFFF) := by decide

/-- 01 to 00 is clockwise. -/
theorem test_qdecSmp_cw :
    resp (exec (.qdecSmp 0 false false) { zero with qdec := zero.qdec.set 0 ⟨false, false, true, 1, 0, 0, 0, 0⟩ }) =
    some (.ctl, 0x0100000100000000) := by decide

/-- 10 to 01 changes both lines. -/
theorem test_qdecSmp_invalid :
    resp (exec (.qdecSmp 0 false true) { zero with qdec := zero.qdec.set 0 ⟨false, false, true, 2, 0, 0, 0, 0⟩ }) =
    some (.ctl, 0x1400000000000000) := by decide

/-- Two transitions with `INV` set: 2 * -1. -/
theorem test_qdecTick_inverted :
    resp (exec (.qdecTick 0) { zero with qdec := zero.qdec.set 0 ⟨true, false, true, 3, 2, 0, 0, 0⟩ }) =
    some (.ctl, 0x01000000FFFFFFFE) := by decide

/-- At 35 ms two periods have passed since 10 ms: 20480 - 8192 = 12288. -/
theorem test_qdecTick_decays :
    resp (exec (.qdecTick 0)
      { zero with msCount := 35, qdec := zero.qdec.set 0 ⟨false, true, true, 2, 1, 20480, 10, 20⟩ }) =
    some (.ctl, 0x0100300000000001) := by decide

/-- 42_envelope.md R154's worked example. -/
theorem test_envCurve_concave : resp (exec (.envCurve 32768 0xFFFF0000) zero) =
    some (.ctl, 0x010000000000FFFD) := by decide

theorem test_envCurve_convex : resp (exec (.envCurve 64000 65536) zero) =
    some (.ctl, 0x010000000000A034) := by decide

theorem test_envShape_linear : resp (exec (.envShape 2 32768) zero) = some (.ctl, 0x0100000000008000) := by decide

theorem test_envShape_reserved : resp (exec (.envShape 6 32768) zero) = some (.ctl, 0x7F00000000000000) := by decide

/-- 49 + 2 * 10, the velocity clamped to 65536. -/
theorem test_envEdur_clamped_velocity :
    resp (exec (.envEdur 1 2 0x7FFFFFFF) { zero with env := { zero.env with attackDur := 49 } }) =
    some (.ctl, 0x0100000000000045) := by decide

/-- Sustain has no duration. -/
theorem test_envEdur_absent : resp (exec (.envEdur 4 1 65536) zero) = some (.ctl, 0) := by decide

theorem test_envEamp : resp (exec (.envEamp 4 3 65536) { zero with env := { zero.env with sustainAmp := 3278 } }) =
    some (.ctl, 0x0100000000003335) := by decide

/-- At the floor: NONE. -/
theorem test_envEamp_floor : resp (exec (.envEamp 4 0xFFFFFFFF 0) zero) = some (.ctl, 0) := by decide

theorem test_envEbend : resp (exec (.envEbend 1 0xFFFFFFFD 65536) zero) = some (.ctl, 0x01000000FFFFB332) := by decide

/-- Hold has no bend. -/
theorem test_envEbend_absent : resp (exec (.envEbend 2 1 65536) zero) = some (.ctl, 0) := by decide

/-- The same note again takes a second voice. -/
theorem test_synNoteon_second : resp (exec (.synNoteon 69) mid) = some (.smp, 0x0100000100000000) := by decide

theorem test_synNoteon_dropped :
    resp (exec (.synNoteon 60) { zero with voices := Vector.replicate 16 (.sounding 60) }) =
    some (.smp, 0x1000000000000000) := by decide

theorem test_synNoteoff : after (exec (.synNoteoff 69) mid) (·.voices[0]) = some .idle := by decide

theorem test_synNoteoff_noMatch : resp (exec (.synNoteoff 60) zero) = some (.smp, 0x1100000000000000) := by decide

/-- One voice at sample 100. -/
theorem test_synTick : resp (exec .synTick { mid with oscIn := [Vector.replicate 16 100] }) =
    some (.smp, 0x0100000000190000) := by decide

/-- Sixteen voices at -32768 saturate. -/
theorem test_synTick_saturates :
    resp (exec .synTick { zero with
      voices := Vector.replicate 16 (.sounding 60), oscIn := [Vector.replicate 16 0x8000] }) =
    some (.smp, 0x0100000080000000) := by decide

theorem test_ringPush : after (exec (.ringPush 7 8) mid) (fun t => (t.wptr, Memory.read t.ring 2)) =
    some (3, some ⟨7, 8⟩) := by decide

/-- The producer sees a full ring. -/
theorem test_ringPush_full : resp (exec (.ringPush 7 0xFFFFFFF9) { zero with wptr := 4 }) =
    some (.smp, 0x1200000000000000) := by decide

/-- One frame is seen: 8000 0000 7FFF FFFF in frame slot 0, deficit 1. -/
theorem test_ringDrain :
    after (exec (.ringDrain true) mid) (fun t => (t.out.resp, t.hwbuf1.map Prod.snd, t.rptr, t.underrun)) =
    some (some (.bus, 0x1300000100000001), [0x00, 0x80, 0x00, 0x00, 0xFF, 0x7F, 0xFF, 0xFF], 1, 1) := by decide

/-- The counter saturates. -/
theorem test_ringDrain_saturates :
    after (exec (.ringDrain false) { zero with underrun := 0xFFFFFFFE }) (fun t => (t.out.resp, t.underrun)) =
    some (some (.bus, 0x1300000000000002), 0xFFFFFFFF) := by decide

/-- A partial catch-up: `wg_sync` = gray(2) = 3. -/
theorem test_ringSyncw : after (exec (.ringSyncw 1) mid) (fun t => (t.wgSync, t.out)) = some (3, ⟨none, []⟩) := by decide

theorem test_ringSyncr : after (exec (.ringSyncr 1) { mid with rptr := 1 }) (·.rgSync) = some 1 := by decide

theorem test_ringSyncu : after (exec .ringSyncu { zero with underrun := 6 }) (·.urShadow) = some 6 := by decide

/-! ### The step and reset -/

/-- A word on the wrong port (97_derived_vectors_audio_sys.md). -/
theorem test_wrong_port :
    resp (step { zero with pending := [.request .bus 0x500000000000000100000001] }) =
    some (.bus, 0x7F00000000000000) := by decide

/-- With nothing waiting the block waits. -/
theorem test_idle : after (step zero) (fun t => (t.msCount, t.out)) = some (0, ⟨none, []⟩) := by decide

theorem test_reset_memory_form : Memory.wf State.reset.ring = true ∧ Memory.wf State.reset.hwbuf0 = true ∧
    Memory.wf State.reset.hwbuf1 = true := by decide

/-! ### Witnesses: the hypotheses of the statements are met -/

theorem legal_reference : Config.reference.Legal where
  debK := by decide
  numBtn := by decide
  numQei := by decide
  numQdec := by decide
  numVoices := by decide
  voiceGainQ16 := by decide
  ringLog := by decide
  halfFrames := by decide
  velocityDecFrequency := Nat.le_add_left 1 _
  velInc := Nat.lt_succ_iff.mp Config.openVelInc.isLt
  velDec := Nat.lt_succ_iff.mp Config.openVelDec.isLt

theorem legal_cfg : cfg.Legal where
  debK := by decide
  numBtn := by decide
  numQei := by decide
  numQdec := by decide
  numVoices := by decide
  voiceGainQ16 := by decide
  ringLog := by decide
  halfFrames := by decide
  velocityDecFrequency := by decide
  velInc := by decide
  velDec := by decide

theorem invariants_mid : Invariants mid where
  cfg := legal_cfg
  laneWidth := by decide
  laneHigh := by decide
  laneLow := by decide
  velocity := by decide
  durations := by decide
  bends := by decide
  amplitude := by decide
  pointers := by decide
  occupancy := by decide
  producerView := by decide
  consumerView := by decide
  written := by decide
  shadow := by decide
  ringForm := by decide
  hwForm := by decide

theorem invariants_zero : Invariants zero where
  cfg := legal_cfg
  laneWidth := by decide
  laneHigh := by decide
  laneLow := by decide
  velocity := by decide
  durations := by decide
  bends := by decide
  amplitude := by decide
  pointers := by decide
  occupancy := by decide
  producerView := by decide
  consumerView := by decide
  written := by decide
  shadow := by decide
  ringForm := by decide
  hwForm := by decide

theorem witness_EveryOperationGivesOneResponseWord :
    (∃ t, exec (.ringPush 7 8) mid = .next t ∧ (Instr.ringPush 7 8).agent = .smp) ∧
    (∃ t, exec .ringSyncu mid = .next t ∧ Instr.ringSyncu.agent = .syncu) := ⟨⟨_, rfl, rfl⟩, ⟨_, rfl, rfl⟩⟩

theorem witness_EncodeOfDecodeGivesTheWord :
    decode 0x101F00000000000000000001 = .ok (.debUpd 31 true) := by decide

theorem witness_DecodeAcceptsExactlyTheTableRows :
    (∃ r ∈ opRows, (0x101F00000000000000000001 : OpWord) &&& r.mask = r.pattern) ∧
    ¬ (∃ r ∈ opRows, (0x102000000000000000000001 : OpWord) &&& r.mask = r.pattern) := by decide

theorem witness_StepRunsTheDecodedOperation :
    ({ mid with pending := [.request .bus 0x510100000000000000000000, .rst] } : State).pending =
      .request (Instr.ringDrain true).agent 0x510100000000000000000000 :: [.rst] ∧
    decode 0x510100000000000000000000 = .ok (.ringDrain true) := ⟨rfl, by decide⟩

/-- A legal word on the wrong port, an unassigned opcode, and the opcodes at the ends of the ranges of each agent. -/
theorem witness_WrongPortAndIllegalWordsAreAnsweredIllegal :
    (∀ i, decode 0x500000000000000100000001 = .ok i → i.agent ≠ .bus) ∧
    (∀ i, decode 0x140000000000000000000000 = .ok i → i.agent ≠ .ctl) ∧
    Instr.nop.opcode.toNat ≤ 0x3F ∧ (Instr.envEbend 5 0 0).opcode.toNat ≤ 0x3F ∧
    (Instr.synNoteon 0).opcode.toNat = 0x40 ∧ Instr.synTick.opcode.toNat = 0x42 ∧
    (Instr.ringPush 0 0).opcode.toNat = 0x50 ∧ (Instr.ringDrain true).opcode.toNat = 0x51 ∧
    (Instr.ringSyncw 0).opcode.toNat = 0x58 ∧ (Instr.ringSyncr 0).opcode.toNat = 0x59 ∧
    Instr.ringSyncu.opcode.toNat = 0x5A := by
  refine ⟨?_, ?_, by decide, by decide, rfl, rfl, rfl, rfl, rfl, rfl, rfl⟩
  · intro i h
    rw [show decode 0x500000000000000100000001 = .ok (.ringPush 1 1) by decide] at h
    cases h; decide
  · intro i h
    rw [show decode 0x140000000000000000000000 = .error (.unassignedOpcode 0x14) by decide] at h
    cases h

/-- The reserved addresses next to the last register: 0x0049 is above the map, 0x003A is `QDEC_VEL[2]`. -/
theorem not_csrReads_0x49 (s : State) (v : Word) : ¬ CsrReads s (0x0049 : BitVec 16).toNat v := by
  generalize h : (0x0049 : BitVec 16).toNat = a
  intro hr
  cases hr <;> simp at h <;> omega

theorem not_csrWrites_0x01 (s u : State) (data v : Word) : ¬ CsrWrites s data (0x0001 : BitVec 16).toNat u v := by
  generalize h : (0x0001 : BitVec 16).toNat = a
  intro hr
  cases hr <;> simp at h <;> omega

theorem witness_OutOfRangeOperandsAreAnsweredIllegal :
    zero.cfg.numBtn ≤ (1 : BitVec 4).toNat ∧ zero.cfg.numQei ≤ (1 : BitVec 3).toNat ∧
    zero.cfg.numQdec ≤ (2 : BitVec 3).toNat ∧ 6 ≤ (6 : BitVec 3).toNat ∧ (5 : BitVec 3).toNat < 6 ∧
    (∀ v, ¬ CsrReads zero (0x0049 : BitVec 16).toNat v) ∧
    (∀ u v, ¬ CsrWrites zero 5 (0x0001 : BitVec 16).toNat u v) :=
  ⟨by decide, by decide, by decide, by decide, by decide, not_csrReads_0x49 zero, fun u => not_csrWrites_0x01 zero u 5⟩

theorem witness_ResetStrobeRestoresResetValues :
    ({ mid with pending := [.rst, .rst] } : State).pending = .rst :: [.rst] := rfl

theorem witness_InvariantHoldsAtReset : cfg.Legal := legal_cfg

theorem witness_EveryStepKeepsTheInvariant : Invariants mid ∧ ∃ t, step mid = .next t := ⟨invariants_mid, _, rfl⟩

theorem witness_NoStepStops : Invariants mid := invariants_mid

theorem witness_EveryRunFromResetGoesOn : Config.reference.Legal := legal_reference

theorem witness_OnlyTheOwningAgentWritesAState :
    (∃ t, exec (.ringDrain true) mid = .next t ∧ (Instr.ringDrain true).agent ≠ .ctl ∧
      (Instr.ringDrain true).agent ≠ .smp ∧ (Instr.ringDrain true).agent ≠ .syncw ∧
      (Instr.ringDrain true).agent ≠ .syncr ∧ (Instr.ringDrain true).agent ≠ .syncu) ∧
    (∃ t, exec .msTick mid = .next t ∧ Instr.msTick.agent ≠ .bus) :=
  ⟨⟨_, rfl, by decide⟩, ⟨_, rfl, by decide⟩⟩

/-- Two states that differ outside the CTL domain. -/
theorem witness_ControlOperationsSeeOnlyTheControlDomain :
    (Instr.csrRd 2).agent = .ctl ∧ mid.cfg = zero.cfg ∧ CtlSame zero mid ∧ mid.urShadow = zero.urShadow ∧
      mid.wptr ≠ zero.wptr := ⟨rfl, rfl, ⟨rfl, rfl, rfl, rfl, rfl, rfl, rfl⟩, rfl, by decide⟩

/-- The first and the last register of the map, the last elements that exist of the arrays, and a reserved address. -/
theorem witness_CsrReadAnswersTheRegister :
    CsrReads zero (0x0000 : BitVec 16).toNat 0x50415731 ∧ CsrReads zero (0x0010 : BitVec 16).toNat 0 ∧
    CsrReads zero (0x0039 : BitVec 16).toNat 0 ∧ CsrReads zero (0x0048 : BitVec 16).toNat 0 ∧
    (∀ v, ¬ CsrReads zero (0x0049 : BitVec 16).toNat v) :=
  ⟨.id, .btnCfg 0 (by decide), .qdecVel 1 (by decide), .releaseBend, not_csrReads_0x49 zero⟩

/-- The first and the last writable register, data beyond the range, and a read-only address. -/
theorem witness_CsrWriteStoresTheLegalValue :
    (∃ u v, CsrWrites zero 1 (0x0010 : BitVec 16).toNat u v) ∧
    (∃ u v, CsrWrites zero 3 (0x0031 : BitVec 16).toNat u v) ∧
    (∃ u v, CsrWrites zero 0x80000000 (0x0048 : BitVec 16).toNat u v) ∧
    (∀ u v, ¬ CsrWrites zero 5 (0x0001 : BitVec 16).toNat u v) :=
  ⟨⟨_, _, .btnCfg 0 (by decide)⟩, ⟨_, _, .qdecCfg 1 (by decide)⟩, ⟨_, _, .releaseBend⟩,
    fun u => not_csrWrites_0x01 zero u 5⟩

theorem witness_CsrReadAfterWriteReturnsWhatWasStored :
    ∃ u v, CsrWrites zero 70000 (0x0046 : BitVec 16).toNat u v := ⟨_, _, .sustainAmp⟩

theorem witness_DebounceUpdateShiftsAndConfirms :
    1 ≤ zero.cfg.debK[laneIdx 0] ∧ 1 ≤ zero.cfg.debK[laneIdx 31] := by decide

theorem witness_EdgeExactlyAfterKDifferingSamples :
    1 ≤ zero.cfg.debK[laneIdx 31] ∧
    zero.lanes[laneIdx 31] = laneAtReset zero.cfg.debK[laneIdx 31] zero.cfg.debInit[laneIdx 31] := by decide

/-- The last button that exists and the first that does not. -/
theorem witness_ButtonUpdateNamesTheEdgeByPolarity :
    (0 : BitVec 4).toNat < zero.cfg.numBtn ∧ zero.cfg.numBtn ≤ (1 : BitVec 4).toNat := by decide

theorem witness_KeyMaskChangesExactlyOnLaneEdges :
    ∀ (i : Nat) (h : i < 16), mid.keyMask.getLsbD i = mid.lanes[i].conf := by decide

/-- The last encoder that exists, the first that does not, and differences at the threshold and at both ends. -/
theorem witness_QeiTickReportsHalfTheDifference :
    (0 : BitVec 3).toNat < zero.cfg.numQei ∧ zero.cfg.numQei ≤ (1 : BitVec 3).toNat ∧
    Int.bmod (1 - 0) (2 ^ 16) = 1 ∧ Int.bmod (2 - 0) (2 ^ 16) = 2 ∧ Int.bmod (32768 - 0) (2 ^ 16) = -32768 ∧
    Int.bmod (32767 - 0) (2 ^ 16) = 32767 := by decide

/-- Both sides of the first whole period, and an elapsed time across the wrap of the millisecond counter. -/
theorem witness_VelocityDecaysByWholePeriods :
    (Int.emod (9 - 0) (2 ^ 32)).toNat / cfg.velocityDecFrequency = 0 ∧
    (Int.emod (10 - 0) (2 ^ 32)).toNat / cfg.velocityDecFrequency = 1 ∧
    (Int.emod (4 - 4294967290) (2 ^ 32)).toNat / cfg.velocityDecFrequency = 1 := by decide

/-- The last decoder that exists and the first that does not; each of the four places of the cycle. -/
theorem witness_QdecSampleCountsTransitions :
    (1 : BitVec 3).toNat < zero.cfg.numQdec ∧ zero.cfg.numQdec ≤ (2 : BitVec 3).toNat ∧
    cyclePos 2 = (cyclePos 0 + 1) % 4 ∧ cyclePos 0 = (cyclePos 1 + 1) % 4 ∧
    cyclePos 3 = (cyclePos 0 + 2) % 4 ∧ cyclePos 1 = (cyclePos 0 + 3) % 4 := by decide

/-- An elapsed time just above the threshold, with something accumulated. -/
theorem witness_QdecTickReportsTheAccumulatedDelta :
    (1 : BitVec 3).toNat < zero.cfg.numQdec ∧ zero.cfg.numQdec ≤ (2 : BitVec 3).toNat ∧
    zero.cfg.updateFrequency < (Int.emod (6 - 0) (2 ^ 32)).toNat ∧
    ¬ zero.cfg.updateFrequency < (Int.emod (5 - 0) (2 ^ 32)).toNat := by decide

theorem witness_ZeroDeltaIsNeverReported :
    (0 : BitVec 3).toNat < zero.cfg.numQei ∧ (1 : BitVec 3).toNat < zero.cfg.numQdec := by decide

/-- Arguments at and around the ends of the exponential, and at the smallest bend of the exponential branch. -/
theorem witness_ShaperExponentialIsMonotone :
    65535 ≤ 65536 ∧ exp2neg 65536 = 524288 ∧ 524288 ≤ exp2neg 65535 ∧ 21 * 65536 ≤ 1376256 ∧
    656 ≤ 656 ∧ curveG 656 65536 = 190228 ∧ lutRead 0 = 1048576 ∧ lutRead 64 = 524288 := by decide

/-- The entry 27 of the table of 42_envelope.md R151 and its neighbours above and below: only the entry is one. -/
theorem test_isCurveEntry : IsCurveEntry 27 782714 ∧ ¬ IsCurveEntry 27 782713 ∧ ¬ IsCurveEntry 27 782715 := by
  unfold IsCurveEntry; decide

/-- The worked example of 42_envelope.md R154. -/
theorem test_shaperG_example : shaperG lutRead 65536 32768 = 1048529 := by decide

/-- The three branches at the two thresholds of one hundredth. -/
theorem witness_EnvCurveAnswersTheShaper :
    655 * 100 < 65536 ∧ ¬ 656 * 100 < 65536 ∧ clampedTo (-65536) 65536 0x80000000 = -65536 := by decide

theorem witness_CurveHasTheStatedShape :
    curveY 655 65536 = 0 ∧ curveY (-656) 655 = -656 ∧ curveY 65536 656 = 65536 ∧ curveY (-65536) (-656) = -65536 := by
  decide

theorem witness_CurveIsMonotoneInX :
    (-65536 : Int) ≤ 656 ∧ (656 : Int) ≤ 657 ∧ (657 : Int) ≤ 65536 ∧ curveY 656 (-65536) ≤ curveY 657 (-65536) := by
  decide

theorem witness_EnvShapeUsesTheStageBend : (5 : BitVec 3).toNat < 6 ∧ 6 ≤ (6 : BitVec 3).toNat := by decide

/-- Each stage that has a duration, the first reserved stage, and a step that clamps at the upper end. -/
theorem witness_EnvDurationEditSteps :
    6 ≤ (6 : BitVec 3).toNat ∧
    (∃ cur e, StageDur zero.env 5 (0 : BitVec 3).toNat cur e) ∧ (∃ cur e, StageDur zero.env 5 (1 : BitVec 3).toNat cur e) ∧
    (∃ cur e, StageDur zero.env 5 (2 : BitVec 3).toNat cur e) ∧ (∃ cur e, StageDur zero.env 5 (3 : BitVec 3).toNat cur e) ∧
    (∃ cur e, StageDur zero.env 5 (5 : BitVec 3).toNat cur e) ∧
    (5 : BitVec 14) = BitVec.ofInt 14
      (min (max ((0 : BitVec 14).toNat + durStepOf (0 : BitVec 14).toNat (1 : Word).toInt
        (min (65536 : Word).toNat 65536)) 0) 10000) ∧
    (10000 : BitVec 14) = BitVec.ofInt 14
      (min (max ((9900 : BitVec 14).toNat + durStepOf (9900 : BitVec 14).toNat (1 : Word).toInt
        (min (65536 : Word).toNat 65536)) 0) 10000) :=
  ⟨by decide, ⟨_, _, .delay⟩, ⟨_, _, .attack⟩, ⟨_, _, .hold⟩, ⟨_, _, .decay⟩, ⟨_, _, .release⟩, by decide, by decide⟩

theorem witness_EnvAmplitudeEditSteps : 6 ≤ (6 : BitVec 3).toNat := by decide

/-- Each stage that has a bend, the first reserved stage, and a step that clamps at the lower end. -/
theorem witness_EnvBendEditSteps :
    6 ≤ (6 : BitVec 3).toNat ∧
    (∃ cur e, StageBend zero.env 6554 (1 : BitVec 3).toNat cur e) ∧
    (∃ cur e, StageBend zero.env 6554 (3 : BitVec 3).toNat cur e) ∧
    (∃ cur e, StageBend zero.env 6554 (5 : BitVec 3).toNat cur e) ∧
    (6554 : BitVec 18) = BitVec.ofInt 18
      (min (max ((0 : BitVec 18).toInt + nearestQ16 ((1 : Word).toInt * (min (65536 : Word).toNat 65536 : Nat) * 6554))
        (-65536)) 65536) ∧
    (BitVec.ofInt 18 (-65536)) = BitVec.ofInt 18
      (min (max ((BitVec.ofInt 18 (-65530)).toInt +
        nearestQ16 ((0xFFFFFFFF : Word).toInt * (min (65536 : Word).toNat 65536 : Nat) * 6554)) (-65536)) 65536) :=
  ⟨by decide, ⟨_, _, .attack⟩, ⟨_, _, .decay⟩, ⟨_, _, .release⟩, by decide, by decide⟩

theorem witness_EditingAnAbsentFieldIsANoOp :
    (Instr.envEdur 4 1 65536 = .envEdur 4 1 65536) ∧
    (Instr.envEbend 0 1 65536 = .envEbend 0 1 65536 ∧ ((0 : BitVec 3) = 0 ∨ (0 : BitVec 3) = 2 ∨ (0 : BitVec 3) = 4)) ∧
    (Instr.envEamp 5 1 65536 = .envEamp 5 1 65536 ∧ (5 : BitVec 3).toNat < 6 ∧ (5 : BitVec 3) ≠ 4) := by decide

theorem witness_VoicesChangeOnlyByNoteOnAndNoteOff : ∃ t, exec (.synNoteon 69) mid = .next t := ⟨_, rfl⟩

/-- A block of one voice. -/
theorem witness_OneNoteMoreThanVoicesIsDropped :
    let s : State := { zero with cfg := { cfg with numVoices := 1 } }
    s.cfg.numVoices ≤ 16 ∧ (∀ v : Fin 16, s.voices[v] = .idle) ∧ [(69 : BitVec 7)].length = s.cfg.numVoices := by
  decide

/-- A drain that finds one frame and lacks one. -/
theorem witness_DrainFillsTheHalf :
    let n := min (wrap mid.cfg.ptrWidth ((ungray mid.cfg.ptrWidth mid.wgSync : Int) - mid.rptr)) mid.cfg.halfFrames
    n = 1 ∧ ∀ j < n, (Memory.read mid.ring ((mid.rptr + j) % mid.cfg.ringN)).isSome := by decide

/-- The counts at which a push drops and at which it does not. -/
theorem witness_PushWritesOneSlotOrDrops :
    wrap zero.cfg.ptrWidth ((4 : Int) - ungray zero.cfg.ptrWidth zero.rgSync) = zero.cfg.ringN ∧
    wrap zero.cfg.ptrWidth ((3 : Int) - ungray zero.cfg.ptrWidth zero.rgSync) ≠ zero.cfg.ringN := by decide

/-- A block whose consumer sees two frames, of which only the first was written: the drain stops at the second, slot 1. -/
theorem witness_OnlyReadingAnUnwrittenSlotStops :
    let s : State := { mid with ring := [(0, ⟨1, 2⟩)], wgSync := 3 }
    1 < min s.avail s.cfg.halfFrames ∧ Memory.read s.ring ((s.rptr + 1) % s.cfg.ringN) = none ∧
    ∀ k < 1, (Memory.read s.ring ((s.rptr + k) % s.cfg.ringN)).isSome := by decide

theorem witness_OnlyDrainMovesTheUnderrunCounter :
    (∃ t, exec (.ringDrain false) mid = .next t) ∧ (∃ t, exec .ringSyncu mid = .next t) := ⟨⟨_, rfl⟩, ⟨_, rfl⟩⟩

theorem witness_UnderrunRegisterNeverFalls :
    Invariants mid ∧ (∃ t, step mid = .next t) ∧ ∀ rest, mid.pending ≠ .rst :: rest :=
  ⟨invariants_mid, ⟨_, rfl⟩, fun _ h => by cases h⟩

/-- The wrap of a 3-bit count. -/
theorem witness_ConsecutiveCountsDifferInOneGrayBit :
    2 ≤ 3 ∧ 7 < 2 ^ 3 ∧ 3 < 2 ^ 3 ∧ wrap 3 ((3 : Int) - 7) = 2 ^ (3 - 1) := by decide

/-- A lag of one, and the advances below it and at it. -/
theorem witness_SyncWriteMovesTheConsumersCopy :
    mid.wptr < 2 * mid.cfg.ringN ∧
    (0 : Word).toNat ≤ wrap mid.cfg.ptrWidth ((mid.wptr : Int) - mid.wSeen) ∧
    (1 : Word).toNat = wrap mid.cfg.ptrWidth ((mid.wptr : Int) - mid.wSeen) := by decide

theorem witness_SyncReadMovesTheProducersCopy :
    let s : State := { mid with rptr := 1 }
    s.rptr < 2 * s.cfg.ringN ∧ (0 : Word).toNat ≤ wrap s.cfg.ptrWidth ((s.rptr : Int) - s.rSeen) ∧
    (1 : Word).toNat = wrap s.cfg.ptrWidth ((s.rptr : Int) - s.rSeen) := by decide

/-- The advances just above the two lags. -/
theorem witness_SynchroniserStepsNotEnabledDoNotHappen :
    wrap mid.cfg.ptrWidth ((mid.wptr : Int) - mid.wSeen) < (2 : Word).toNat ∧
    wrap mid.cfg.ptrWidth ((mid.rptr : Int) - mid.rSeen) < (1 : Word).toNat := by decide

theorem witness_RingIsAFirstInFirstOutQueue :
    Invariants mid ∧ (queue mid).length = 2 ∧ 0 < min mid.avail mid.cfg.halfFrames ∧ mid.occSeen ≠ mid.cfg.ringN ∧
    (∃ t, exec .ringSyncu mid = .next t) := ⟨invariants_mid, by decide, by decide, by decide, _, rfl⟩

/-- `mid` is caught up on the read side, `zero` on both. -/
theorem witness_CaughtUpRingIsTheAtomicQueue :
    Invariants mid ∧ mid.rSeen = mid.rptr ∧ Invariants zero ∧ zero.wSeen = zero.wptr :=
  ⟨invariants_mid, by decide, invariants_zero, by decide⟩

theorem witness_OneFrameMoreThanCapacityIsDropped :
    Invariants zero ∧ zero.occSeen = 0 ∧ (List.replicate 4 (⟨1, 2⟩ : Frame)).length = zero.cfg.ringN :=
  ⟨invariants_zero, by decide, by decide⟩

/-! ### Fair and unfair runs (44_ring.md R211) -/

/-- The samples of a moment in which no voice sounds. -/
def silence : Vector (BitVec 16) 16 := Vector.replicate 16 0

/-- The states of the run from `zero` that these moments give. -/
def runOf (moments : Nat → Moment) : Nat → State
  | 0 => zero
  | k + 1 =>
    match step ((runOf moments k).facing (moments k)) with
    | .next t => t
    | .fault _ => zero
    | .refused _ => zero

/-- A frame is pushed and nothing is ever delivered. -/
def starving : Nat → Moment
  | 0 => ⟨some (.request .smp 0x500000000000000100000002), silence⟩
  | _ + 1 => ⟨none, silence⟩

/-- A frame is pushed and then delivered; after that the block waits. -/
def delivering : Nat → Moment
  | 0 => ⟨some (.request .smp 0x500000000000000100000002), silence⟩
  | 1 => ⟨some (.request .syncw 0x580000000000000000000001), silence⟩
  | _ + 2 => ⟨none, silence⟩

theorem starving_lag (k : Nat) : (runOf starving (k + 1)).wLag = 1 := by
  induction k with
  | zero => decide
  | succ k ih => exact ih

/-- A lag that persists with no RING.SYNCW taken is not fair. -/
theorem test_starving_run_is_not_fair :
    IsRun starving (runOf starving) ∧ ¬ FairRun starving (runOf starving) := by
  constructor
  · rintro (_ | k) <;> rfl
  · intro fair
    obtain ⟨j, hj, adv, served, _⟩ := fair.syncw 1 fun j hj => by
      obtain ⟨i, rfl⟩ := Nat.exists_eq_add_of_le' hj
      exact lt_of_lt_of_eq Nat.one_pos (starving_lag i).symm
    obtain ⟨i, rfl⟩ := Nat.exists_eq_add_of_le' hj
    cases served

theorem delivering_lags (k : Nat) :
    (runOf delivering (k + 2)).wLag = 0 ∧ (runOf delivering (k + 2)).rLag = 0 ∧
      (runOf delivering (k + 2)).urShadow = (runOf delivering (k + 2)).underrun := by
  induction k with
  | zero => decide
  | succ k ih => exact ih

/-- A run with a lag that is delivered is fair. -/
theorem test_delivering_run_is_fair :
    FairRun delivering (runOf delivering) ∧ (runOf delivering 1).wLag = 1 := by
  refine ⟨⟨?_, fun k enabled => ?_, fun k enabled => ?_, fun k enabled => ?_⟩, by decide⟩
  · rintro (_ | _ | k) <;> rfl
  · exact absurd (delivering_lags k).1 (Nat.ne_of_gt (enabled (k + 2) (by omega)))
  · exact absurd (delivering_lags k).2.1 (Nat.ne_of_gt (enabled (k + 2) (by omega)))
  · exact absurd (delivering_lags k).2.2 (enabled (k + 2) (by omega))

end Sys2Proof.Tests
end

section
/-! PROOFS. The family of 10_state.md: what reset gives (R36), and that a read after a write returns the legal value
(R34). -/

namespace Sys2Proof.Machine

open Sys2Proof.Safety

/-! ### Responding -/

/-- What a response puts out is what was asked for. -/
theorem responded_respond (s : State) (a : Agent) (st : Status) (aux : BitVec 24) (v : Word) :
    Responded (s.respond a (respWord st aux v) []) a st.code aux v :=
  ⟨respWord st aux v, rfl, statusField_respWord st aux v, auxField_respWord st aux v, valueField_respWord st aux v⟩

/-- A response changes no register. -/
@[simp] theorem State.respond_readCsr (s : State) (a : Agent) (w : RespWord) (osc : List OscEvent) (r : Csr) :
    (s.respond a w osc).readCsr r = s.readCsr r := by
  cases r <;> rfl

/-! ### The register map (10_state.md R25) -/

/-- A register stands in the map at its place: the converse of `csrPlace_of_csrAt`. -/
theorem csrAt_of_csrPlace {c : Config} {addr : BitVec 16} {r : Csr} (h : CsrPlace c addr.toNat r) :
    csrAt c addr = some r := by
  have array : ∀ {n count i : Nat} (mk : Fin n → Csr) (b : Fin n), b.val < count → i = b.val →
      arrayReg count i mk = some (mk b) := by
    rintro n count _ mk b hb rfl
    exact arrayReg_eq_some.mpr ⟨b.isLt, hb, rfl⟩
  unfold csrAt
  cases h with
  | id ha | msCount ha | underrun ha | keyMask ha => simp [ha]
  | btnCfg b hb ha | qeiCfg b hb ha | qeiPrev b hb ha | qdecCfg b hb ha | qdecVel b hb ha =>
    have := b.isLt
    dsimp only
    repeat rw [if_neg (by omega)]
    rw [if_pos (by omega)]
    exact array _ b hb (by omega)
  | env e ha he =>
    dsimp only
    repeat rw [if_neg (by omega)]
    rw [he, Option.map_some]

/-- CSR.RD answers the read value of the register at its address (45_system.md R233). -/
theorem exec_csrRd_of_csrAt {s : State} {addr : BitVec 16} {r : Csr} (h : csrAt s.cfg addr = some r) :
    exec (.csrRd addr) s = .next (s.respond .ctl (respWord .event 0 (s.readCsr r)) []) := by
  simp only [exec, execCsrRd, h, reply_eq]

/-- CSR.WR stores in the writable register at its address and answers the value then read (45_system.md R234). -/
theorem exec_csrWr_of_csrAt {s : State} {addr : BitVec 16} {r : Csr} (data : Word) (h : csrAt s.cfg addr = some r)
    (hw : r.readOnly = false) :
    exec (.csrWr addr data) s = .next ((s.writeCsr data r).respond .ctl
      (respWord .event 0 ((s.writeCsr data r).readCsr r)) []) := by
  simp only [exec, execCsrWr, h, hw, reply_eq]
  rfl

/-! ### The value read after a write (10_state.md R30 to R33) -/

theorem bitIn_eq_bit0 (b : Bool) : bitIn 32 b = bit0 b := by
  cases b <;> rfl

theorem bitPair_eq_bit0 (acc inv : Bool) :
    (BitVec.ofBool acc ++ BitVec.ofBool inv).setWidth 32 = bit0 inv + 2 * bit0 acc := by
  cases acc <;> cases inv <;> rfl

/-- A register narrower than 32 bits whose value is `x`, zero-extended, reads as `x`. -/
theorem setWidth_eq_ofInt {n : Nat} {r : BitVec n} {x : Int} (h : (r.toNat : Int) = x) :
    r.setWidth 32 = BitVec.ofInt 32 x := by
  rw [← h, BitVec.ofInt_natCast, BitVec.ofNat_toNat]

/-- The low half of the data, zero-extended (10_state.md R31). -/
theorem low16_read (data : Word) :
    (data.setWidth 16).setWidth 32 = BitVec.ofNat 32 (data.toNat % 65536) := by
  apply BitVec.eq_of_toNat_eq
  simp

theorem durStored_read (data : Word) :
    (durStored data).setWidth 32 = BitVec.ofInt 32 (clampedTo 0 10000 data) :=
  have ⟨lower, upper⟩ := clamp_range data.toInt (show (0 : Int) ≤ 10000 by decide)
  setWidth_eq_ofInt (toNat_ofInt_dur lower upper)

theorem ampStored_read (data : Word) :
    (ampStored data).setWidth 32 = BitVec.ofInt 32 (clampedTo 0 65536 data) :=
  have ⟨lower, upper⟩ := clamp_range data.toInt (show (0 : Int) ≤ 65536 by decide)
  setWidth_eq_ofInt (toNat_ofInt_amp lower upper)

theorem bendStored_read (data : Word) :
    (bendStored data).signExtend 32 = BitVec.ofInt 32 (clampedTo (-65536) 65536 data) := by
  have ⟨lower, upper⟩ := clamp_range data.toInt (show (-65536 : Int) ≤ 65536 by decide)
  exact congrArg (BitVec.ofInt 32) (toInt_ofInt_bend lower upper)

/-- A writable row of the table is a writable register of the map: the state after the write is the model's, and the
row's value is what the register then reads as. -/
theorem csrPlace_of_csrWrites {s u : State} {data v : Word} {addr : Nat} (h : CsrWrites s data addr u v) :
    ∃ r, CsrPlace s.cfg addr r ∧ r.readOnly = false ∧ u = s.writeCsr data r ∧ (s.writeCsr data r).readCsr r = v := by
  cases h with
  | btnCfg b hb =>
    exact ⟨.btnCfg b, .btnCfg b hb rfl, rfl, rfl, by simp [State.readCsr, State.writeCsr, bitIn_eq_bit0]⟩
  | qeiCfg e he =>
    exact ⟨.qeiCfg e, .qeiCfg e he rfl, rfl, rfl, by simp [State.readCsr, State.writeCsr, bitIn_eq_bit0]⟩
  | qeiPrev e he =>
    exact ⟨.qeiPrev e, .qeiPrev e he rfl, rfl, by simp only [State.writeCsr, BitVec.ofNat_toNat],
      by simp [State.readCsr, State.writeCsr, low16_read]⟩
  | qdecCfg q hq =>
    exact ⟨.qdecCfg q, .qdecCfg q hq rfl, rfl, rfl, by simp [State.readCsr, State.writeCsr, bitPair_eq_bit0]⟩
  | delayDur => exact ⟨.env .delayDur, .env _ (by decide) rfl, rfl, rfl, durStored_read data⟩
  | attackDur => exact ⟨.env .attackDur, .env _ (by decide) rfl, rfl, rfl, durStored_read data⟩
  | attackBend => exact ⟨.env .attackBend, .env _ (by decide) rfl, rfl, rfl, bendStored_read data⟩
  | holdDur => exact ⟨.env .holdDur, .env _ (by decide) rfl, rfl, rfl, durStored_read data⟩
  | decayDur => exact ⟨.env .decayDur, .env _ (by decide) rfl, rfl, rfl, durStored_read data⟩
  | decayBend => exact ⟨.env .decayBend, .env _ (by decide) rfl, rfl, rfl, bendStored_read data⟩
  | sustainAmp => exact ⟨.env .sustainAmp, .env _ (by decide) rfl, rfl, rfl, ampStored_read data⟩
  | releaseDur => exact ⟨.env .releaseDur, .env _ (by decide) rfl, rfl, rfl, durStored_read data⟩
  | releaseBend => exact ⟨.env .releaseBend, .env _ (by decide) rfl, rfl, rfl, bendStored_read data⟩

/-- Settles O21: the write and the read find the same register, which the write's response leaves as stored. -/
theorem csrReadAfterWriteReturnsWhatWasStored : Obligations.CsrReadAfterWriteReturnsWhatWasStored := by
  intro s u addr data v h
  obtain ⟨r, place, writable, -, rfl⟩ := csrPlace_of_csrWrites h
  have found : csrAt s.cfg addr = some r := csrAt_of_csrPlace place
  refine ⟨_, _, exec_csrWr_of_csrAt data found writable, exec_csrRd_of_csrAt (r := r) (by simpa using found), ?_⟩
  rw [State.respond_readCsr]
  exact responded_respond ..

/-! ### Reset (10_state.md R36) -/

theorem laneAtReset_sr_lt (k : Nat) (level : Bool) : (laneAtReset k level).sr < 2 ^ k := by
  have := Nat.two_pow_pos k
  cases level <;> simp [laneAtReset]

/-- Every sample a lane holds after reset is its reset level. -/
theorem laneAtReset_testBit {k i : Nat} (level : Bool) (h : i < k) :
    (laneAtReset k level).sr.testBit i = level := by
  cases level <;> simp [laneAtReset, Nat.testBit_two_pow_sub_one, h]

theorem resetWith_lanes (c : Config) (lane : Fin 32) :
    (State.resetWith c).lanes[lane] = laneAtReset c.debK[lane] c.debInit[lane] := by
  simp [State.resetWith]

/-- A key's bit of the mask after reset is the reset level of its lane. -/
theorem keyMaskAtReset_getLsbD (c : Config) {i : Nat} (h : i < 16) :
    (keyMaskAtReset c).getLsbD i = c.debInit[i] := by
  have level : c.debInit.getD i false = c.debInit[i] := by
    change c.debInit.toArray.getD i false = _
    simp [Array.getD, show i < 32 by omega]
  simp only [keyMaskAtReset, getLsbD_maskBits, h, decide_true, Bool.true_and, level]

/-- No byte of the hardware buffer has a value after reset. -/
theorem resetWith_hwByte (c : Config) (h : Bool) (offset : Nat) : (State.resetWith c).hwByte h offset = none := by
  cases h <;> rfl

/-- Settles O10: the lanes and the key mask by their reset levels, the arrays element by element, the two memories by
their reads, every other register by the value reset writes in it. -/
theorem resetGivesEveryElementItsValue : Obligations.ResetGivesEveryElementItsValue := by
  intro c s
  have lanes : ∀ lane : Fin 32, s.lanes[lane] = laneAtReset c.debK[lane] c.debInit[lane] := resetWith_lanes c
  have qdec : ∀ q : Fin 8, s.qdec[q] = ⟨false, false, false, 0, 0, 0, 0, 0⟩ := fun q => Vector.getElem_replicate _
  refine ⟨fun lane => ?_, fun i h => keyMaskAtReset_getLsbD c h, fun b => Vector.getElem_replicate _,
    fun e => Vector.getElem_replicate _, fun q => ?_, rfl, rfl, rfl, rfl, rfl, rfl, rfl, rfl, rfl, rfl,
    fun v => Vector.getElem_replicate _, fun _ => rfl, rfl, rfl, rfl, rfl, rfl, rfl, resetWith_hwByte c⟩
  · rw [lanes lane]
    exact ⟨laneAtReset_sr_lt _ _, fun i h => laneAtReset_testBit _ h, rfl⟩
  · rw [qdec q]
    exact ⟨rfl, rfl, rfl, rfl, rfl, rfl, rfl, rfl⟩

end Sys2Proof.Machine
end

section
/-! PROOFS. The family of 30_encoding.md: the layout of the two words (R70, R83), one response per operation (R83), the
ports (R71) and the range checks (R76). -/

namespace Sys2Proof.Machine

open Sys2Proof.Safety

/-! ### The two words as numbers (30_encoding.md R70, R83) -/

/-- Two fields side by side, as a number. -/
theorem toNat_append_add {m n : Nat} (x : BitVec m) (y : BitVec n) :
    (x ++ y).toNat = x.toNat * 2 ^ n + y.toNat := by
  rw [BitVec.toNat_append, ← Nat.shiftLeft_add_eq_or_of_lt y.isLt, Nat.shiftLeft_eq]

theorem opWord_toNat (op idx : BitVec 8) (imm : BitVec 16) (a b : Word) :
    (opWord op idx imm a b).toNat =
      op.toNat * 2 ^ 88 + idx.toNat * 2 ^ 80 + imm.toNat * 2 ^ 64 + a.toNat * 2 ^ 32 + b.toNat := by
  simp only [opWord, toNat_append_add]
  omega

theorem respWord_toNat (st : Status) (aux : BitVec 24) (v : Word) :
    (respWord st aux v).toNat = st.code.toNat * 2 ^ 56 + aux.toNat * 2 ^ 32 + v.toNat := by
  simp only [respWord, toNat_append_add]
  omega

/-- Settles O1: the middle and lower words are the fields A and B; the upper one is what is left of the word's value. -/
theorem operationWordHasFiveFields : Obligations.OperationWordHasFiveFields := by
  intro op idx imm a b
  refine ⟨opWord_toNat .., ?_, aField_opWord .., bField_opWord ..⟩
  have := op.isLt
  have := idx.isLt
  have := imm.isLt
  have := a.isLt
  have := b.isLt
  rw [BitVec.extractLsb'_toNat, opWord_toNat, Nat.shiftRight_eq_div_pow]
  omega

/-! ### One response per operation (30_encoding.md R83) -/

/-- If the outcome is a next state, a response word was put out there at the port of `a`. -/
def RespondsAt (a : Agent) : Host.Outcome State Fault Refusal → Prop
  | .next t => ∃ st aux v, t.out.resp = some (a, respWord st aux v)
  | .fault _ => True
  | .refused _ => True

/-- If the outcome is a next state, no response was put out there. -/
def RespondsNowhere : Host.Outcome State Fault Refusal → Prop
  | .next t => t.out.resp = none
  | .fault _ => True
  | .refused _ => True

theorem respondsAt_respond (s : State) (a : Agent) (st : Status) (aux : BitVec 24) (v : Word) (osc : List OscEvent) :
    RespondsAt a (.next (s.respond a (respWord st aux v) osc)) := ⟨st, aux, v, rfl⟩

theorem respondsAt_reply (a : Agent) (st : Status) (aux : BitVec 24) (v : Word) (s : State) :
    RespondsAt a (reply a st aux v s) := respondsAt_respond s a st aux v []

theorem respondsAt_replyIllegal (a : Agent) (s : State) : RespondsAt a (replyIllegal a s) :=
  respondsAt_reply a .illegal 0 0 s

theorem respondsNowhere_quiet (s : State) : RespondsNowhere (.next s.quiet) :=
  congrArg Outputs.resp s.quiet_out

/-- The response of MASK.DIFF and KEY.SCAN has a status of R84. -/
theorem exists_maskDiffWord_eq (old new : BitVec 16) : ∃ st aux v, maskDiffWord old new = respWord st aux v := by
  unfold maskDiffWord
  split <;> exact ⟨_, _, _, rfl⟩

theorem respondsAt_maskDiffWord (s : State) (old new : BitVec 16) :
    RespondsAt .ctl (.next (s.respond .ctl (maskDiffWord old new) [])) := by
  obtain ⟨st, aux, v, h⟩ := exists_maskDiffWord_eq old new
  rw [h]
  exact respondsAt_respond ..

theorem execCsrRd_respondsAt (addr : BitVec 16) (s : State) : RespondsAt .ctl (execCsrRd addr s) := by
  unfold execCsrRd
  split
  · exact respondsAt_replyIllegal ..
  · exact respondsAt_reply ..

theorem execCsrWr_respondsAt (addr : BitVec 16) (data : Word) (s : State) :
    RespondsAt .ctl (execCsrWr addr data s) := by
  unfold execCsrWr
  split
  · exact respondsAt_replyIllegal ..
  · split
    · exact respondsAt_replyIllegal ..
    · exact respondsAt_reply ..

theorem execDebUpd_respondsAt (lane : BitVec 5) (raw : Bool) (s : State) :
    RespondsAt .ctl (execDebUpd lane raw s) := by
  unfold execDebUpd
  split <;> exact respondsAt_reply ..

theorem execBtnUpd_respondsAt (b : BitVec 4) (raw : Bool) (s : State) : RespondsAt .ctl (execBtnUpd b raw s) := by
  unfold execBtnUpd
  split
  · split <;> exact respondsAt_reply ..
  · exact respondsAt_replyIllegal ..

theorem execQeiTick_respondsAt (e : BitVec 3) (count : BitVec 16) (s : State) :
    RespondsAt .ctl (execQeiTick e count s) := by
  unfold execQeiTick
  split
  · dsimp only
    split <;> exact respondsAt_reply ..
  · exact respondsAt_replyIllegal ..

theorem execQdecSmp_respondsAt (q : BitVec 3) (clk dt : Bool) (s : State) :
    RespondsAt .ctl (execQdecSmp q clk dt s) := by
  unfold execQdecSmp
  split
  · exact respondsAt_reply ..
  · exact respondsAt_replyIllegal ..

theorem execQdecTick_respondsAt (q : BitVec 3) (s : State) : RespondsAt .ctl (execQdecTick q s) := by
  unfold execQdecTick
  split
  · exact respondsAt_reply ..
  · exact respondsAt_replyIllegal ..

theorem execSynNoteon_respondsAt (note : BitVec 7) (s : State) : RespondsAt .smp (execSynNoteon note s) := by
  unfold execSynNoteon
  split
  · exact respondsAt_reply ..
  · exact respondsAt_respond ..

theorem execSynNoteoff_respondsAt (note : BitVec 7) (s : State) : RespondsAt .smp (execSynNoteoff note s) := by
  unfold execSynNoteoff
  split <;> exact respondsAt_reply ..

/-- A drain that meets a slot without a value answers no next state; one that completes replies. -/
theorem execRingDrain_respondsAt (h : Bool) (s : State) : RespondsAt .bus (execRingDrain h s) := by
  unfold execRingDrain
  dsimp only
  split
  · trivial
  · split <;> exact respondsAt_reply ..

theorem execRingSyncw_respondsNowhere (adv : Word) (s : State) : RespondsNowhere (execRingSyncw adv s) := by
  unfold execRingSyncw
  split <;> exact respondsNowhere_quiet _

theorem execRingSyncr_respondsNowhere (adv : Word) (s : State) : RespondsNowhere (execRingSyncr adv s) := by
  unfold execRingSyncr
  split <;> exact respondsNowhere_quiet _

/-! ### The stages (10_state.md R18, 30_encoding.md R76) -/

/-- The stage numbers 6 and 7 name no stage. -/
theorem stageOf_eq_none_iff {n : BitVec 3} : stageOf n = none ↔ 6 ≤ n.toNat := by
  revert n
  decide

/-- What ENV.SHAPE and the three edits answer: a reserved stage is illegal, and a stage that exists is answered with
another status. -/
structure StageAnswer (stage : BitVec 3) (s : State) (o : Host.Outcome State Fault Refusal) : Prop where
  reserved : 6 ≤ stage.toNat → o = replyIllegal .ctl s
  existing : stage.toNat < 6 → ∃ st v t, st ≠ .illegal ∧ o = reply .ctl st 0 v t

theorem editStatus_ne_illegal (changed : Bool) : editStatus changed ≠ .illegal := by
  cases changed <;> decide

section
variable (stage : BitVec 3) (offset vel : Word) (s : State)

/-- The stage a number below 6 names. -/
theorem exists_stageOf (h : stage.toNat < 6) : ∃ st, stageOf stage = some st :=
  Option.ne_none_iff_exists'.mp fun none => absurd (stageOf_eq_none_iff.mp none) (by omega)

theorem execEnvShape_answer (x : Word) : StageAnswer stage s (execEnvShape stage x s) where
  reserved h := by simp only [execEnvShape, stageOf_eq_none_iff.mpr h]
  existing h := by
    obtain ⟨st, hst⟩ := exists_stageOf stage h
    simp only [execEnvShape, hst]
    exact ⟨.event, _, _, by decide, rfl⟩

theorem execEnvEdur_answer : StageAnswer stage s (execEnvEdur stage offset vel s) where
  reserved h := by simp only [execEnvEdur, stageOf_eq_none_iff.mpr h]
  existing h := by
    obtain ⟨st, hst⟩ := exists_stageOf stage h
    simp only [execEnvEdur, hst]
    split
    · exact ⟨.none, _, _, by decide, rfl⟩
    · exact ⟨_, _, _, editStatus_ne_illegal _, rfl⟩

theorem execEnvEamp_answer : StageAnswer stage s (execEnvEamp stage offset vel s) where
  reserved h := by simp only [execEnvEamp, stageOf_eq_none_iff.mpr h]
  existing h := by
    obtain ⟨st, hst⟩ := exists_stageOf stage h
    simp only [execEnvEamp, hst]
    split
    · contradiction
    · exact ⟨_, _, _, editStatus_ne_illegal _, rfl⟩
    · exact ⟨.none, _, _, by decide, rfl⟩

theorem execEnvEbend_answer : StageAnswer stage s (execEnvEbend stage offset vel s) where
  reserved h := by simp only [execEnvEbend, stageOf_eq_none_iff.mpr h]
  existing h := by
    obtain ⟨st, hst⟩ := exists_stageOf stage h
    simp only [execEnvEbend, hst]
    split
    · exact ⟨.none, _, _, by decide, rfl⟩
    · exact ⟨_, _, _, editStatus_ne_illegal _, rfl⟩

variable {stage s} in
theorem StageAnswer.respondsAt {o : Host.Outcome State Fault Refusal} (h : StageAnswer stage s o) :
    RespondsAt .ctl o := by
  rcases Nat.lt_or_ge stage.toNat 6 with lt | ge
  · obtain ⟨st, v, t, -, rfl⟩ := h.existing lt
    exact respondsAt_reply ..
  · rw [h.reserved ge]
    exact respondsAt_replyIllegal ..

end

/-! ### Every operation -/

/-- What an operation of an agent puts out: one response at the agent's port, or nothing where the agent has none. -/
def RespondsAsAgent (a : Agent) (o : Host.Outcome State Fault Refusal) : Prop :=
  if hasPort a then RespondsAt a o else RespondsNowhere o

/-- Every operation responds as its agent does. -/
theorem exec_responds (i : Instr) (s : State) : RespondsAsAgent i.agent (exec i s) := by
  cases i with
  | nop | msTick | envCurve x bend => exact respondsAt_reply ..
  | csrRd addr => exact execCsrRd_respondsAt addr s
  | csrWr addr data => exact execCsrWr_respondsAt addr data s
  | debUpd lane raw => exact execDebUpd_respondsAt lane raw s
  | btnUpd b raw => exact execBtnUpd_respondsAt b raw s
  | keyScan raw16 => exact respondsAt_maskDiffWord ..
  | maskDiff old new => exact respondsAt_maskDiffWord ..
  | qeiTick e count => exact execQeiTick_respondsAt e count s
  | qdecSmp q clk dt => exact execQdecSmp_respondsAt q clk dt s
  | qdecTick q => exact execQdecTick_respondsAt q s
  | envShape stage x => exact (execEnvShape_answer stage s x).respondsAt
  | envEdur stage offset vel => exact (execEnvEdur_answer stage offset vel s).respondsAt
  | envEamp stage offset vel => exact (execEnvEamp_answer stage offset vel s).respondsAt
  | envEbend stage offset vel => exact (execEnvEbend_answer stage offset vel s).respondsAt
  | synNoteon note => exact execSynNoteon_respondsAt note s
  | synNoteoff note => exact execSynNoteoff_respondsAt note s
  | synTick => exact respondsAt_respond ..
  | ringPush l r => exact respondsAt_reply ..
  | ringDrain h => exact execRingDrain_respondsAt h s
  | ringSyncw adv => exact execRingSyncw_respondsNowhere adv s
  | ringSyncr adv => exact execRingSyncr_respondsNowhere adv s
  | ringSyncu => exact respondsNowhere_quiet _

/-- The status values of 30_encoding.md R84. -/
theorem code_mem (st : Status) : st.code ∈ [0x00, 0x01, 0x10, 0x11, 0x12, 0x13, 0x14, 0x7F] := by
  cases st <;> decide

theorem hasPort_eq_true {a : Agent} (h : a = .ctl ∨ a = .smp ∨ a = .bus) : hasPort a = true := by
  rcases h with rfl | rfl | rfl <;> rfl

theorem hasPort_eq_false {a : Agent} (h : a = .syncw ∨ a = .syncr ∨ a = .syncu) : hasPort a = false := by
  rcases h with rfl | rfl | rfl <;> rfl

/-- Settles O2: the layout is `respWord_toNat`; which operation puts out what is `exec_responds`. -/
theorem everyOperationGivesOneResponseWord : Obligations.EveryOperationGivesOneResponseWord := by
  refine ⟨respWord_toNat, fun i s t next => ⟨fun port => ?_, fun sync => ?_⟩⟩
  · have responds : RespondsAt i.agent (exec i s) := by
      simpa [RespondsAsAgent, hasPort_eq_true port] using exec_responds i s
    rw [next] at responds
    obtain ⟨st, aux, v, put⟩ := responds
    exact ⟨_, put, by simpa using code_mem st⟩
  · have responds : RespondsNowhere (exec i s) := by
      simpa [RespondsAsAgent, hasPort_eq_false sync] using exec_responds i s
    rwa [next] at responds

/-! ### The ports (30_encoding.md R71) -/

/-- An agent's port is the one its opcode names. -/
theorem agent_of_opcode (i : Instr) :
    (i.opcode.toNat ≤ 0x3F → i.agent = .ctl) ∧
    (0x40 ≤ i.opcode.toNat ∧ i.opcode.toNat ≤ 0x42 ∨ i.opcode.toNat = 0x50 → i.agent = .smp) ∧
    (i.opcode.toNat = 0x51 → i.agent = .bus) ∧ (i.opcode.toNat = 0x58 → i.agent = .syncw) ∧
    (i.opcode.toNat = 0x59 → i.agent = .syncr) ∧ (i.opcode.toNat = 0x5A → i.agent = .syncu) := by
  cases i <;> simp [Instr.opcode, Instr.agent]

/-- A response touches no memory. -/
theorem memorySame_respond (s : State) (a : Agent) (w : RespWord) (osc : List OscEvent) :
    MemorySame s (s.respond a w osc) := ⟨fun _ => rfl, fun _ _ => rfl⟩

/-- A word presented at a port by an agent whose operation it is not is rejected there. -/
theorem step_of_not_accepted {s : State} {a : Agent} {w : OpWord} {rest : List Input}
    (waiting : s.pending = .request a w :: rest) (port : hasPort a = true)
    (other : ∀ i, decode w = .ok i → i.agent ≠ a) :
    step s = .next (({ s with pending := rest } : State).respond a (respWord .illegal 0 0) []) := by
  have rejected : accept a w = none := by
    rw [Option.eq_none_iff_forall_ne_some]
    intro i h
    obtain ⟨decodes, mine⟩ := accept_eq_some.mp h
    exact other i decodes mine
  have service : s.service = .reject a := by simp only [State.service, waiting, rejected]
  simp only [step, service, State.rejectRequest, port, if_true, State.taken, waiting, List.tail_cons]

/-- Settles O8: such a word is not accepted, so the step answers ILLEGAL at the port and takes the input. -/
theorem wrongPortAndIllegalWordsAreAnsweredIllegal : Obligations.WrongPortAndIllegalWordsAreAnsweredIllegal := by
  refine ⟨agent_of_opcode, fun s a w rest waiting port other => ?_⟩
  exact ⟨_, step_of_not_accepted waiting (hasPort_eq_true port) other, rfl, memorySame_respond .., responded_respond ..⟩

/-! ### The range checks (30_encoding.md R76) -/

/-- An operation whose meaning is the reply to an illegal word answers ILLEGAL and changes nothing. -/
theorem answersIllegal_of_exec {i : Instr} {s : State} (h : exec i s = replyIllegal .ctl s) : AnswersIllegal i s :=
  ⟨_, h, rfl, memorySame_respond .., responded_respond ..⟩

theorem code_eq_illegal_iff {st : Status} : st.code = 0x7F ↔ st = .illegal := by
  cases st <;> decide

/-- An operation that replies with another status does not answer ILLEGAL. -/
theorem not_answersIllegal_of_exec {i : Instr} {s u : State} {a : Agent} {st : Status} {aux : BitVec 24} {v : Word}
    (h : exec i s = reply a st aux v u) (legal : st ≠ .illegal) : ¬ AnswersIllegal i s := by
  rintro ⟨t, next, -, -, w, out, status, -⟩
  obtain rfl : u.respond a (respWord st aux v) [] = t := Host.Outcome.next.inj (h.symm.trans next)
  obtain ⟨-, rfl⟩ : a = .ctl ∧ respWord st aux v = w := by simpa using congrArg Outputs.resp out
  exact legal (code_eq_illegal_iff.mp (by simpa using status))

section
variable {stage : BitVec 3} {s : State} {i : Instr}

/-- A reserved stage is out of range. -/
theorem StageAnswer.answersIllegal (h : StageAnswer stage s (exec i s)) (reserved : 6 ≤ stage.toNat) :
    AnswersIllegal i s := answersIllegal_of_exec (h.reserved reserved)

/-- A stage that exists is not illegal, with or without the field. -/
theorem StageAnswer.not_answersIllegal (h : StageAnswer stage s (exec i s)) (existing : stage.toNat < 6) :
    ¬ AnswersIllegal i s := by
  obtain ⟨st, v, t, legal, replies⟩ := h.existing existing
  exact not_answersIllegal_of_exec replies legal

end

/-- DEB.UPD replies NONE or EVENT on every lane. -/
theorem not_answersIllegal_debUpd (lane : BitVec 5) (raw : Bool) (s : State) :
    ¬ AnswersIllegal (.debUpd lane raw) s := by
  cases edge : s.laneEdge (laneIdx lane) raw with
  | none =>
    have replies : exec (.debUpd lane raw) s = reply .ctl .none 0 0 (s.sampleLane (laneIdx lane) raw) := by
      simp only [exec, execDebUpd, edge]
    exact not_answersIllegal_of_exec replies (by decide)
  | some e =>
    have replies : exec (.debUpd lane raw) s = reply .ctl .event e.code 0 (s.sampleLane (laneIdx lane) raw) := by
      simp only [exec, execDebUpd, edge]
    exact not_answersIllegal_of_exec replies (by decide)

/-! ### The register table (10_state.md R25) -/

/-- The row of an envelope register. -/
theorem csrReads_env (s : State) {n : Nat} {e : EnvReg} (h : envRegAt n = some e) :
    CsrReads s (0x40 + n) (envRead s.env e) := by
  obtain ⟨rfl, rfl⟩ | ⟨rfl, rfl⟩ | ⟨rfl, rfl⟩ | ⟨rfl, rfl⟩ | ⟨rfl, rfl⟩ | ⟨rfl, rfl⟩ | ⟨rfl, rfl⟩ | ⟨rfl, rfl⟩ |
    ⟨rfl, rfl⟩ := envRegAt_eq_some h
  · simpa only [envRead, BitVec.ofNat_toNat] using CsrReads.delayDur (s := s)
  · simpa only [envRead, BitVec.ofNat_toNat] using CsrReads.attackDur (s := s)
  · exact .attackBend
  · simpa only [envRead, BitVec.ofNat_toNat] using CsrReads.holdDur (s := s)
  · simpa only [envRead, BitVec.ofNat_toNat] using CsrReads.decayDur (s := s)
  · exact .decayBend
  · simpa only [envRead, BitVec.ofNat_toNat] using CsrReads.sustainAmp (s := s)
  · simpa only [envRead, BitVec.ofNat_toNat] using CsrReads.releaseDur (s := s)
  · exact .releaseBend

/-- A register of the map is a row of the table, with the value the model reads. -/
theorem csrReads_of_csrPlace {s : State} {addr : Nat} {r : Csr} (h : CsrPlace s.cfg addr r) :
    CsrReads s addr (s.readCsr r) := by
  cases h with
  | id ha => exact ha ▸ .id
  | msCount ha => exact ha ▸ .msCount
  | underrun ha => exact ha ▸ .underrun
  | keyMask ha => simpa only [ha, State.readCsr, BitVec.ofNat_toNat] using CsrReads.keyMask (s := s)
  | btnCfg b hb ha => simpa only [ha, State.readCsr, bitIn_eq_bit0] using CsrReads.btnCfg b hb
  | qeiCfg e he ha => simpa only [ha, State.readCsr, bitIn_eq_bit0] using CsrReads.qeiCfg e he
  | qeiPrev e he ha => simpa only [ha, State.readCsr, BitVec.ofNat_toNat] using CsrReads.qeiPrev e he
  | qdecCfg q hq ha => simpa only [ha, State.readCsr, bitPair_eq_bit0] using CsrReads.qdecCfg q hq
  | qdecVel q hq ha => simpa only [ha, State.readCsr, BitVec.ofNat_toNat] using CsrReads.qdecVel q hq
  | env e ha he => simpa only [Nat.add_sub_cancel' ha, State.readCsr] using csrReads_env s he

theorem csrWrites_congr {s u : State} {data v w : Word} {addr : Nat} (h : CsrWrites s data addr u v) (e : w = v) :
    CsrWrites s data addr u w := e ▸ h

/-- The writable row of an envelope register. -/
theorem csrWrites_env (s : State) (data : Word) {n : Nat} {e : EnvReg} (h : envRegAt n = some e) :
    CsrWrites s data (0x40 + n) (s.writeCsr data (.env e)) ((s.writeCsr data (.env e)).readCsr (.env e)) := by
  obtain ⟨rfl, rfl⟩ | ⟨rfl, rfl⟩ | ⟨rfl, rfl⟩ | ⟨rfl, rfl⟩ | ⟨rfl, rfl⟩ | ⟨rfl, rfl⟩ | ⟨rfl, rfl⟩ | ⟨rfl, rfl⟩ |
    ⟨rfl, rfl⟩ := envRegAt_eq_some h
  · exact csrWrites_congr .delayDur (durStored_read data)
  · exact csrWrites_congr .attackDur (durStored_read data)
  · exact csrWrites_congr .attackBend (bendStored_read data)
  · exact csrWrites_congr .holdDur (durStored_read data)
  · exact csrWrites_congr .decayDur (durStored_read data)
  · exact csrWrites_congr .decayBend (bendStored_read data)
  · exact csrWrites_congr .sustainAmp (ampStored_read data)
  · exact csrWrites_congr .releaseDur (durStored_read data)
  · exact csrWrites_congr .releaseBend (bendStored_read data)

/-- A writable register of the map is a writable row of the table: the converse of `csrPlace_of_csrWrites`. -/
theorem csrWrites_of_csrPlace {s : State} {addr : Nat} {r : Csr} (data : Word) (h : CsrPlace s.cfg addr r)
    (writable : r.readOnly = false) :
    CsrWrites s data addr (s.writeCsr data r) ((s.writeCsr data r).readCsr r) := by
  cases h with
  | id | msCount | underrun | keyMask | qdecVel => cases writable
  | btnCfg b hb ha =>
    simpa [ha, State.readCsr, State.writeCsr, bitIn_eq_bit0] using CsrWrites.btnCfg (data := data) b hb
  | qeiCfg e he ha =>
    simpa [ha, State.readCsr, State.writeCsr, bitIn_eq_bit0] using CsrWrites.qeiCfg (data := data) e he
  | qeiPrev e he ha =>
    simpa [ha, State.readCsr, State.writeCsr, low16_read] using CsrWrites.qeiPrev (data := data) e he
  | qdecCfg q hq ha =>
    simpa [ha, State.readCsr, State.writeCsr, bitPair_eq_bit0] using CsrWrites.qdecCfg (data := data) q hq
  | env e ha he => simpa only [Nat.add_sub_cancel' ha] using csrWrites_env s data he

/-- CSR.RD of an address that no row has. -/
theorem answersIllegal_csrRd {s : State} {addr : BitVec 16} (h : ∀ v, ¬ CsrReads s addr.toNat v) :
    AnswersIllegal (.csrRd addr) s := by
  have missing : csrAt s.cfg addr = none :=
    Option.eq_none_iff_forall_ne_some.mpr fun _ found => h _ (csrReads_of_csrPlace (csrPlace_of_csrAt found))
  exact answersIllegal_of_exec (by simp only [exec, execCsrRd, missing])

/-- CSR.WR of an address that no writable row has: it is reserved, or its register is read-only. -/
theorem answersIllegal_csrWr {s : State} {addr : BitVec 16} {data : Word}
    (h : ∀ u v, ¬ CsrWrites s data addr.toNat u v) : AnswersIllegal (.csrWr addr data) s := by
  apply answersIllegal_of_exec
  cases found : csrAt s.cfg addr with
  | none => simp only [exec, execCsrWr, found]
  | some r =>
    have readOnly : r.readOnly = true := by
      rw [← Bool.not_eq_false]
      exact fun writable => h _ _ (csrWrites_of_csrPlace data (csrPlace_of_csrAt found) writable)
    simp only [exec, execCsrWr, found, readOnly, if_true]

/-- Settles O9: an index at or above its count fails the operation's own check; reserved stages and addresses, and the
two negative cases, are the lemmas above. -/
theorem outOfRangeOperandsAreAnsweredIllegal : Obligations.OutOfRangeOperandsAreAnsweredIllegal := by
  intro s
  refine ⟨fun b raw h => ?_, fun e count h => ?_, fun q clk dt h => ?_, fun q h => ?_,
    fun stage x h => (execEnvShape_answer stage s x).answersIllegal h,
    fun stage offset vel h => ⟨(execEnvEdur_answer stage offset vel s).answersIllegal h,
      (execEnvEamp_answer stage offset vel s).answersIllegal h,
      (execEnvEbend_answer stage offset vel s).answersIllegal h⟩,
    fun addr => answersIllegal_csrRd, fun addr data => answersIllegal_csrWr,
    fun lane raw => not_answersIllegal_debUpd lane raw s,
    fun stage x offset vel h => ⟨(execEnvShape_answer stage s x).not_answersIllegal h,
      (execEnvEdur_answer stage offset vel s).not_answersIllegal h,
      (execEnvEamp_answer stage offset vel s).not_answersIllegal h,
      (execEnvEbend_answer stage offset vel s).not_answersIllegal h⟩⟩
  · exact answersIllegal_of_exec (if_neg (by omega))
  · exact answersIllegal_of_exec (if_neg (by omega))
  · exact answersIllegal_of_exec (if_neg (by omega))
  · exact answersIllegal_of_exec (if_neg (by omega))

end Sys2Proof.Machine
end

section
/-! PROOFS. The family of 40_debounce.md: one sample into one lane (R101), the difference of two masks (R106) and the key
scan (R107). -/

namespace Sys2Proof.Machine

open Sys2Proof.Safety

/-! ### The words of the family (30_encoding.md R72) -/

theorem encodedAs_debUpd (lane : BitVec 5) (raw : Bool) :
    EncodedAs (.debUpd lane raw) 0x10 (lane.setWidth 8) 0 0 (bit0 raw) := by
  have above : lane.setWidth 8 >>> 5 = 0#8 := by
    apply BitVec.eq_of_toNat_eq
    have := lane.isLt
    simp [Nat.shiftRight_eq_div_pow]
    omega
  have named : (lane.setWidth 8).setWidth 5 = lane := by simp
  have noMore : bit0 raw >>> 1 = 0 := by cases raw <;> rfl
  have sample : (bit0 raw).getLsbD 0 = raw := by cases raw <;> rfl
  simp only [EncodedAs, decode, opcodeField_opWord, idxField_opWord, immField_opWord, aField_opWord, bField_opWord]
  exact legalWord_ok.mpr ⟨above, rfl, rfl, noMore, by rw [named, sample]⟩

theorem encodedAs_keyScan (raw16 : BitVec 16) : EncodedAs (.keyScan raw16) 0x12 0 raw16 0 0 := by
  simp only [EncodedAs, decode, opcodeField_opWord, idxField_opWord, immField_opWord, aField_opWord, bField_opWord]
  exact legalWord_ok.mpr ⟨rfl, rfl, rfl, rfl, rfl⟩

/-- A mask stands alone in the low half of its field. -/
theorem ofNat_toNat_shiftRight_half (m : BitVec 16) : BitVec.ofNat 32 m.toNat >>> 16 = 0 := by
  apply BitVec.eq_of_toNat_eq
  have := m.isLt
  simp [Nat.shiftRight_eq_div_pow]
  omega

theorem encodedAs_maskDiff (old new : BitVec 16) :
    EncodedAs (.maskDiff old new) 0x13 0 0 (BitVec.ofNat 32 old.toNat) (BitVec.ofNat 32 new.toNat) := by
  simp only [EncodedAs, decode, opcodeField_opWord, idxField_opWord, immField_opWord, aField_opWord, bField_opWord]
  exact legalWord_ok.mpr
    ⟨rfl, rfl, ofNat_toNat_shiftRight_half old, ofNat_toNat_shiftRight_half new, by simp⟩

/-! ### One sample into one lane (40_debounce.md R101) -/

/-- The response of DEB.UPD to the edge a sample confirms. -/
def edgeWord : Option Edge → RespWord
  | none => respWord .none 0 0
  | some edge => respWord .event edge.code 0

/-- DEB.UPD samples the lane and responds with the edge. -/
theorem exec_debUpd (lane : BitVec 5) (raw : Bool) (s : State) :
    exec (.debUpd lane raw) s = .next ((s.sampleLane (laneIdx lane) raw).respond .ctl
      (edgeWord (s.laneEdge (laneIdx lane) raw)) []) := by
  cases edge : s.laneEdge (laneIdx lane) raw <;> simp only [exec, execDebUpd, edge, reply_eq, edgeWord]

/-- Which level a sample confirms and which edge it reports, by the bits of the register after it. -/
theorem laneSample_confirms (k : Nat) (l : Lane) (raw : Bool) :
    if (∀ i < k, (laneSample k l raw).1.sr.testBit i = true) ∧ l.conf = false then
      (laneSample k l raw).1.conf = true ∧ (laneSample k l raw).2 = some .rising
    else if (∀ i < k, (laneSample k l raw).1.sr.testBit i = false) ∧ l.conf = true then
      (laneSample k l raw).1.conf = false ∧ (laneSample k l raw).2 = some .falling
    else (laneSample k l raw).1.conf = l.conf ∧ (laneSample k l raw).2 = none := by
  have width := laneSample_sr_lt k l raw
  simp only [← eq_ones_iff width, ← eq_zero_iff width]
  obtain ⟨sr, after, ones, low⟩ | ⟨sr, after, zeros, high⟩ | ⟨sr, after, notRise, notFall⟩ :=
    laneSample_cases k l raw
  · rw [after, if_pos ⟨ones, low⟩]
    exact ⟨rfl, rfl⟩
  · rw [after, if_neg (by simp [high]), if_pos ⟨zeros, high⟩]
    exact ⟨rfl, rfl⟩
  · rw [after, if_neg notRise, if_neg notFall]
    exact ⟨rfl, rfl⟩

/-- Settles O23: the register's bits are `laneSample_testBit`, the level and the edge `laneSample_confirms`, and the
response is the edge's word. -/
theorem debounceUpdateShiftsAndConfirms : Obligations.DebounceUpdateShiftsAndConfirms := by
  intro s lane raw l depth
  refine ⟨encodedAs_debUpd lane raw, rfl, _, (laneSample s.cfg.debK[l] s.lanes[l] raw).1, exec_debUpd lane raw s, rfl,
    ⟨fun _ => rfl, fun _ _ => rfl⟩, laneSample_sr_lt .., ?newest, fun i inside => ?older, ?confirmed⟩
  case newest => rw [laneSample_testBit, decide_eq_true (Nat.lt_of_succ_le depth), Bool.true_and, if_pos rfl]
  case older =>
    rw [laneSample_testBit, decide_eq_true inside, Bool.true_and, if_neg i.succ_ne_zero, Nat.add_sub_cancel]
  case confirmed =>
    have confirms := laneSample_confirms s.cfg.debK[l] s.lanes[l] raw
    have edge : s.laneEdge (laneIdx lane) raw = (laneSample s.cfg.debK[l] s.lanes[l] raw).2 := rfl
    rw [edge]
    split_ifs at confirms ⊢
    all_goals
      obtain ⟨level, reported⟩ := confirms
      rw [reported]
      exact ⟨level, responded_respond ..⟩

/-! ### The difference of two masks (40_debounce.md R106) -/

theorem riseBits_getLsbD (old new : BitVec 16) {i : Nat} (h : i < 16) :
    (riseBits old new).getLsbD i = (new.getLsbD i && !old.getLsbD i) := by
  simp [riseBits, h]

theorem fallBits_getLsbD (old new : BitVec 16) {i : Nat} (h : i < 16) :
    (fallBits old new).getLsbD i = (old.getLsbD i && !new.getLsbD i) := by
  simp [fallBits, h]

/-- No bit rises and none falls exactly where the masks are equal. -/
theorem no_changed_bits_iff (old new : BitVec 16) : riseBits old new = 0 ∧ fallBits old new = 0 ↔ old = new := by
  constructor
  · rintro ⟨noRise, noFall⟩
    apply BitVec.eq_of_getLsbD_eq
    intro i h
    have agree : ∀ x y : Bool, (y && !x) = false → (x && !y) = false → x = y := by decide
    apply agree
    · rw [← riseBits_getLsbD old new h, noRise, BitVec.ofNat_eq_ofNat, BitVec.getLsbD_zero]
    · rw [← fallBits_getLsbD old new h, noFall, BitVec.ofNat_eq_ofNat, BitVec.getLsbD_zero]
  · rintro rfl
    simp [riseBits, fallBits]

/-- The response of MASK.DIFF as one word: where nothing changed, its two halves are zero by themselves. -/
theorem maskDiffWord_eq (old new : BitVec 16) :
    maskDiffWord old new =
      respWord (if old = new then .none else .event) (new.setWidth 24) (fallBits old new ++ riseBits old new) := by
  unfold maskDiffWord
  by_cases same : old = new
  · obtain ⟨noRise, noFall⟩ := (no_changed_bits_iff old new).mpr same
    rw [if_pos ⟨noRise, noFall⟩, if_pos same, noRise, noFall]
    rfl
  · rw [if_neg (mt (no_changed_bits_iff old new).mp same), if_neg same]

/-- The status, the new mask and the changed bits that a MASK.DIFF response carries. -/
theorem responded_maskDiffWord (s : State) (old new : BitVec 16) :
    Responded (s.respond .ctl (maskDiffWord old new) []) .ctl (if old = new then 0x00 else 0x01)
      (BitVec.ofNat 24 new.toNat) (fallBits old new ++ riseBits old new) := by
  have status : (if old = new then 0x00 else 0x01 : BitVec 8) = (if old = new then .none else .event : Status).code := by
    split_ifs <;> rfl
  rw [maskDiffWord_eq, status, BitVec.ofNat_toNat]
  exact responded_respond ..

/-- An event of the sequence is a risen or a fallen bit. -/
theorem mem_maskEvents (old new : BitVec 16) (i : Nat) (e : Edge) :
    (i, e) ∈ maskEvents old new ↔ i < 16 ∧
      (e = .rising ∧ old.getLsbD i = false ∧ new.getLsbD i = true ∨
       e = .falling ∧ old.getLsbD i = true ∧ new.getLsbD i = false) := by
  simp only [maskEvents, List.mem_filterMap, List.mem_range]
  constructor
  · rintro ⟨j, h, found⟩
    rw [riseBits_getLsbD _ _ h, fallBits_getLsbD _ _ h] at found
    split_ifs at found with rises falls
    · cases found
      exact ⟨h, .inl (by simpa [and_comm] using rises)⟩
    · cases found
      exact ⟨h, .inr (by simpa using falls)⟩
  · rintro ⟨h, changed⟩
    refine ⟨i, h, ?_⟩
    rw [riseBits_getLsbD _ _ h, fallBits_getLsbD _ _ h]
    obtain ⟨rfl, was, is⟩ | ⟨rfl, was, is⟩ := changed <;> simp [was, is]

/-- The events stand in the order of their bits. -/
theorem maskEvents_ordered (old new : BitVec 16) : ((maskEvents old new).map Prod.fst).Pairwise (· < ·) := by
  rw [List.pairwise_map]
  refine List.pairwise_lt_range.filterMap _ fun i j less x fromI y fromJ => ?_
  have fromBit : x.1 = i ∧ y.1 = j := by
    constructor
    · split_ifs at fromI <;> cases fromI <;> rfl
    · split_ifs at fromJ <;> cases fromJ <;> rfl
  rwa [fromBit.1, fromBit.2]

/-- Settles O26: the two halves of `value` are the fallen and the risen bits, the sequence is `mem_maskEvents`. -/
theorem maskDifferenceClassifiesChangedBits : Obligations.MaskDifferenceClassifiesChangedBits := by
  intro s old new
  refine ⟨encodedAs_maskDiff old new, ⟨_, _, rfl, rfl, memorySame_respond .., responded_maskDiffWord .., ?rise, ?fall⟩,
    fun i => ?rising, fun i => ?falling, maskEvents_ordered old new⟩
  case rise =>
    intro i h
    rw [BitVec.getLsbD_append, if_pos h, riseBits_getLsbD _ _ h]
  case fall =>
    intro i h
    rw [BitVec.getLsbD_append, if_neg (by omega), Nat.add_sub_cancel_left, fallBits_getLsbD _ _ h]
  case rising => simp [mem_maskEvents]
  case falling => simp [mem_maskEvents]

/-! ### The key scan (40_debounce.md R107) -/

/-- The key lane that the 5-bit operand `i` names. -/
theorem laneIdx_ofNat {i : Nat} (h : i < 32) : laneIdx (BitVec.ofNat 5 i) = ⟨i, h⟩ := by
  apply Fin.ext
  simpa [laneIdx] using h

/-- The lane that DEB.UPD sampled. -/
theorem State.sampleLane_getElem (s : State) {i : Nat} (h : i < 32) (raw : Bool) :
    (s.sampleLane ⟨i, h⟩ raw).lanes[i] = (laneSample s.cfg.debK[i] s.lanes[i] raw).1 := by
  simp

/-- A key lane after a scan is that lane after DEB.UPD with its bit. -/
theorem State.scanLanes_getElem_key (s : State) (raw16 : BitVec 16) {i : Nat} (h : i < 16) :
    (s.scanLanes raw16).lanes[i] = (s.sampleLane (laneIdx (BitVec.ofNat 5 i)) (raw16.getLsbD i)).lanes[i] := by
  rw [s.scanLanes_getElem raw16 i (by omega), if_pos h, laneIdx_ofNat (by omega), s.sampleLane_getElem]

/-- Settles O27: every lane by `scanLanes_getElem`, the mask by `keyLevels_getLsbD`; the response is MASK.DIFF's word. -/
theorem keyScanSamplesEveryKeyLane : Obligations.KeyScanSamplesEveryKeyLane := by
  intro s raw16
  refine ⟨encodedAs_keyScan raw16, _, _, rfl, rfl, ⟨fun _ => rfl, fun _ _ => rfl⟩,
    fun i h => ⟨_, exec_debUpd .., s.scanLanes_getElem_key raw16 h⟩, fun i h button => ?button,
    fun i h => (s.scanLanes raw16).keyLevels_getLsbD i h, rfl, rfl⟩
  case button => exact (s.scanLanes_getElem raw16 i h).trans (if_neg (by omega))

end Sys2Proof.Machine
end

section
/-! PROOFS. The family of 41_rotary.md: QEI.TICK (R121), QDEC.SMP (R125) and QDEC.TICK (R127). -/

namespace Sys2Proof.Machine

open Sys2Proof.Safety

/-! ### The words of the family (30_encoding.md R72) -/

/-- A decoder number stands alone in the low three bits of the index field. -/
theorem decoderField_legal : ∀ q : BitVec 3, q.setWidth 8 >>> 3 = 0 ∧ (q.setWidth 8).setWidth 3 = q := by
  decide

theorem encodedAs_qeiTick (e : BitVec 3) (count : BitVec 16) :
    EncodedAs (.qeiTick e count) 0x20 (e.setWidth 8) count 0 0 := by
  obtain ⟨above, named⟩ := decoderField_legal e
  simp only [EncodedAs, decode, opcodeField_opWord, idxField_opWord, immField_opWord, aField_opWord, bField_opWord]
  exact legalWord_ok.mpr ⟨above, rfl, rfl, rfl, by rw [named]⟩

/-- The two phase lines stand alone in the low bits of field B. -/
theorem phaseField_legal (clk dt : Bool) :
    BitVec.ofNat 32 (2 * clk.toNat + dt.toNat) >>> 2 = 0 ∧
    (BitVec.ofNat 32 (2 * clk.toNat + dt.toNat)).getLsbD 1 = clk ∧
    (BitVec.ofNat 32 (2 * clk.toNat + dt.toNat)).getLsbD 0 = dt := by
  cases clk <;> cases dt <;> decide

theorem encodedAs_qdecSmp (q : BitVec 3) (clk dt : Bool) :
    EncodedAs (.qdecSmp q clk dt) 0x21 (q.setWidth 8) 0 0 (BitVec.ofNat 32 (2 * clk.toNat + dt.toNat)) := by
  obtain ⟨above, named⟩ := decoderField_legal q
  obtain ⟨noMore, clkLine, dtLine⟩ := phaseField_legal clk dt
  simp only [EncodedAs, decode, opcodeField_opWord, idxField_opWord, immField_opWord, aField_opWord, bField_opWord]
  exact legalWord_ok.mpr ⟨above, rfl, rfl, noMore, by rw [named, clkLine, dtLine]⟩

theorem encodedAs_qdecTick (q : BitVec 3) : EncodedAs (.qdecTick q) 0x22 (q.setWidth 8) 0 0 0 := by
  obtain ⟨above, named⟩ := decoderField_legal q
  simp only [EncodedAs, decode, opcodeField_opWord, idxField_opWord, immField_opWord, aField_opWord, bField_opWord]
  exact legalWord_ok.mpr ⟨above, rfl, rfl, rfl, by rw [named]⟩

/-! ### Signed words and times (00_scope.md R8, 10_state.md R17) -/

/-- A signed result that fits in 32 bits is stored as it is. -/
theorem toInt_wrap32 {v : Int} (lower : -2147483648 ≤ v) (upper : v < 2147483648) : (wrap32 v).toInt = v := by
  rw [wrap32, BitVec.toInt_ofInt, Int.bmod_eq_of_le (by omega) (by omega)]

/-- `direction_factor` as a choice of sign (10_state.md R31). -/
theorem mul_direction (v : Int) (inv : Bool) : v * direction inv = if inv then -v else v := by
  cases inv <;> simp [direction]

/-- A word times `direction_factor` has the sign the `INV` bit asks for. -/
theorem wrap32_toInt_mul_direction (w : Word) (inv : Bool) : wrap32 (w.toInt * direction inv) = signedBy inv w := by
  rw [mul_direction]
  cases inv with
  | false => exact BitVec.ofInt_toInt
  | true => exact (BitVec.ofInt_neg ..).trans (congrArg Neg.neg BitVec.ofInt_toInt)

theorem signedBy_zero (inv : Bool) : signedBy inv 0 = 0 := by
  cases inv <;> rfl

/-- The unsigned difference of two times, across the wrap of the counter (10_state.md R17). -/
theorem toNat_sub_eq_emod (now past : Word) :
    (now - past).toNat = (Int.emod ((now.toNat : Int) - past.toNat) (2 ^ 32)).toNat := by
  have := now.isLt
  have := past.isLt
  rw [BitVec.toNat_sub]
  change _ = (((now.toNat : Int) - past.toNat) % 2 ^ 32).toNat
  omega

/-! ### The counter-difference decoder (41_rotary.md R121) -/

/-- The difference is the one between the two counts, taken modulo `2^16` as signed. -/
theorem qeiDiff_eq_bmod (prev count : BitVec 16) :
    qeiDiff prev count = Int.bmod ((count.toNat : Int) - prev.toNat) (2 ^ 16) := by
  rw [qeiDiff, BitVec.toInt_sub, BitVec.toInt_eq_toNat_bmod, BitVec.toInt_eq_toNat_bmod, Int.sub_bmod_bmod,
    Int.bmod_sub_bmod]

theorem qeiDiff_range (prev count : BitVec 16) : -32768 ≤ qeiDiff prev count ∧ qeiDiff prev count ≤ 32767 := by
  have lower := BitVec.le_toInt (count - prev)
  have upper := BitVec.toInt_lt (x := count - prev)
  unfold qeiDiff
  omega

/-- Below the threshold QEI.TICK answers NONE and keeps the stored count. -/
theorem exec_qeiTick_below {s : State} {e : BitVec 3} {count : BitVec 16} (present : e.toNat < s.cfg.numQei)
    (below : (qeiDiff s.qei[decoderIdx e].prev count).natAbs < 2) :
    exec (.qeiTick e count) s = .next (s.respond .ctl (respWord .none 0 0) []) := by
  simp only [exec, execQeiTick, if_pos present, if_pos below, reply_eq]

/-- At the threshold and above it QEI.TICK stores the count and reports half the difference. -/
theorem exec_qeiTick_at {s : State} {e : BitVec 3} {count : BitVec 16} (present : e.toNat < s.cfg.numQei)
    (reached : ¬ (qeiDiff s.qei[decoderIdx e].prev count).natAbs < 2) :
    exec (.qeiTick e count) s =
      .next (({ s with qei := s.qei.set (decoderIdx e) ⟨s.qei[decoderIdx e].inv, count⟩ } : State).respond .ctl
        (respWord .event 0
          (wrap32 (tdiv2 (qeiDiff s.qei[decoderIdx e].prev count) * direction s.qei[decoderIdx e].inv))) []) := by
  simp only [exec, execQeiTick, if_pos present, if_neg reached, reply_eq]

/-- What QEI.TICK reports of a difference at the threshold or above it: half of it toward zero, with the direction's
sign, and never zero. -/
theorem toInt_halfDifference {diff : Int} (inv : Bool) (lower : -32768 ≤ diff) (upper : diff ≤ 32767)
    (reached : ¬ diff.natAbs < 2) :
    (wrap32 (tdiv2 diff * direction inv)).toInt = (if inv then -(diff.tdiv 2) else diff.tdiv 2) ∧
    wrap32 (tdiv2 diff * direction inv) ≠ 0 := by
  have half : (diff.tdiv 2).natAbs = diff.natAbs / 2 := Int.natAbs_tdiv diff 2
  have value : (wrap32 (tdiv2 diff * direction inv)).toInt = (if inv then -(diff.tdiv 2) else diff.tdiv 2) := by
    rw [tdiv2_eq, mul_direction, toInt_wrap32] <;> split_ifs <;> omega
  refine ⟨value, fun zero => ?_⟩
  rw [zero, show (0 : Word).toInt = 0 from rfl] at value
  split_ifs at value <;> omega

/-- Settles O29: the difference is `qeiDiff_eq_bmod`, the two sides of the threshold are the equations of QEI.TICK, the
reported value is `toInt_halfDifference`. -/
theorem qeiTickReportsHalfTheDifference : Obligations.QeiTickReportsHalfTheDifference := by
  intro s e count d diff
  have diff_eq : qeiDiff d.prev count = diff := qeiDiff_eq_bmod d.prev count
  obtain ⟨lower, upper⟩ := diff_eq ▸ qeiDiff_range d.prev count
  refine ⟨encodedAs_qeiTick e count, lower, upper, fun absent => answersIllegal_of_exec (if_neg (by omega)),
    fun present => ?_⟩
  by_cases below : diff.natAbs < 2
  · refine ⟨_, exec_qeiTick_below present (by rwa [diff_eq]), memorySame_respond .., ?_⟩
    rw [if_pos (by omega)]
    exact ⟨rfl, responded_respond ..⟩
  · refine ⟨_, exec_qeiTick_at present (by rwa [diff_eq]), ⟨fun _ => rfl, fun _ _ => rfl⟩, ?_⟩
    rw [if_neg (by omega), diff_eq]
    exact ⟨rfl, _, responded_respond .., toInt_halfDifference d.inv lower upper below⟩

/-! ### One sample of the two phase lines (41_rotary.md R124, R125) -/

theorem phase_eq_ofNat (clk dt : Bool) : phase clk dt = BitVec.ofNat 2 (2 * clk.toNat + dt.toNat) := by
  cases clk <;> cases dt <;> rfl

/-- The table of R124 by places of the cycle: the same place, the opposite one, the next one, the previous one. -/
theorem classify_eq_of_cyclePos : ∀ old new : BitVec 2,
    classify old new =
      if cyclePos new = cyclePos old then .same
      else if cyclePos new = (cyclePos old + 2) % 4 then .invalid
      else if cyclePos new = (cyclePos old + 1) % 4 then .cw
      else .ccw := by
  decide

/-- A decoder with a phase loaded: what every sample does to it. -/
def loaded (d : Qdec) (new : BitVec 2) : Qdec := { d with init := true, prev := new }

/-- A sample loads the phase, and counts where it is a turn. -/
theorem qdecSampled_eq (c : Config) (ms : Word) (d : Qdec) (new : BitVec 2) :
    qdecSampled c ms d new =
      if (refreshed c ms d).init = false ∨ cyclePos new = cyclePos (refreshed c ms d).prev then
        (loaded (refreshed c ms d) new, .none, 0)
      else if cyclePos new = (cyclePos (refreshed c ms d).prev + 2) % 4 then
        (loaded (refreshed c ms d) new, .quadInvalid, 0)
      else if cyclePos new = (cyclePos (refreshed c ms d).prev + 1) % 4 then
        (turned c true (loaded (refreshed c ms d) new), .event, turnCode true)
      else (turned c false (loaded (refreshed c ms d) new), .event, turnCode false) := by
  unfold qdecSampled
  generalize refreshed c ms d = d1
  by_cases first : d1.init = false
  · simp only [if_pos first, if_pos (Or.inl first), loaded]
  · have again : { d1 with prev := new } = loaded d1 new := by
      rw [loaded, ← Bool.eq_true_of_not_eq_false first]
    simp only [if_neg first, classify_eq_of_cyclePos, or_iff_right first, again]
    split_ifs <;> rfl

/-- QDEC.SMP stores the sampled decoder and responds with what the sample says. -/
theorem exec_qdecSmp {s : State} {q : BitVec 3} {clk dt : Bool} {r : Qdec × Status × BitVec 24}
    (present : q.toNat < s.cfg.numQdec)
    (sampled : qdecSampled s.cfg s.msCount s.qdec[decoderIdx q] (BitVec.ofNat 2 (2 * clk.toNat + dt.toNat)) = r) :
    exec (.qdecSmp q clk dt) s =
      .next (({ s with qdec := s.qdec.set (decoderIdx q) r.1 } : State).respond .ctl (respWord r.2.1 r.2.2 0) []) := by
  simp only [exec, execQdecSmp, if_pos present, phase_eq_ofNat, sampled, reply_eq]

/-- Refreshing a decoder does not change its mode. -/
theorem refreshed_acc (c : Config) (ms : Word) (d : Qdec) : (refreshed c ms d).acc = d.acc := by
  unfold refreshed
  split
  · rw [decayed_frame]
  · rfl

/-- A counted transition moves the count by one, modulo `2^32` as signed. -/
theorem turned_count_toInt (c : Config) (cw : Bool) (d : Qdec) :
    (turned c cw d).count.toInt = Int.bmod (d.count.toInt + if cw then 1 else -1) (2 ^ 32) :=
  BitVec.toInt_ofInt _

/-- A counted transition raises the velocity in accelerated mode only. -/
theorem turned_vel_toNat (c : Config) (cw : Bool) (d : Qdec) :
    (turned c cw d).vel.toNat = if d.acc then min 65536 (d.vel.toNat + c.velInc) else d.vel.toNat := by
  dsimp only [turned]
  split
  · rw [BitVec.toNat_ofNat, Nat.mod_eq_of_lt (by omega)]
  · rfl

/-- Settles O31: the cases are those of `qdecSampled_eq`, in the same order; the count and the velocity of a turn are
`turned_count_toInt` and `turned_vel_toNat`. -/
theorem qdecSampleCountsTransitions : Obligations.QdecSampleCountsTransitions := by
  intro s q clk dt d d1 new
  refine ⟨encodedAs_qdecSmp q clk dt, fun absent => answersIllegal_of_exec (if_neg (by omega)), fun present => ?_⟩
  have refreshed_eq : refreshed s.cfg s.msCount d = d1 := rfl
  have sampled := qdecSampled_eq s.cfg s.msCount d new
  rw [refreshed_eq] at sampled
  have velocity : ∀ cw, (turned s.cfg cw (loaded d1 new)).vel.toNat =
      if d.acc then min 65536 (d1.vel.toNat + s.cfg.velInc) else d1.vel.toNat := by
    intro cw
    rw [turned_vel_toNat, ← refreshed_acc s.cfg s.msCount d]
    rfl
  refine ⟨_, _, exec_qdecSmp present sampled, rfl, ⟨fun _ => rfl, fun _ _ => rfl⟩, ?_⟩
  generalize (if d.acc then min 65536 (d1.vel.toNat + s.cfg.velInc) else d1.vel.toNat) = raised at velocity ⊢
  split_ifs with still opposite clockwise
  · exact ⟨rfl, rfl, rfl, responded_respond ..⟩
  · exact ⟨rfl, rfl, rfl, responded_respond ..⟩
  · exact ⟨rfl, velocity true, turned_count_toInt .., responded_respond ..⟩
  · exact ⟨rfl, velocity false, turned_count_toInt .., responded_respond ..⟩

/-! ### One control tick (41_rotary.md R127) -/

/-- In standard mode a tick clears the count and reports what it was. -/
theorem qdecTicked_standard (c : Config) (ms : Word) {d : Qdec} (standard : d.acc = false) :
    qdecTicked c ms d =
      ({ d with count := 0 }, if d.count = 0 then .none else .event, 0, signedBy d.inv d.count) := by
  simp only [qdecTicked, if_pos standard, wrap32_toInt_mul_direction]
  split_ifs with zero
  · rw [zero, signedBy_zero]
  · rfl

/-- In accelerated mode a tick decays, and reports outside the window if something was counted. -/
theorem qdecTicked_accelerated (c : Config) (ms : Word) {d : Qdec} (accelerated : ¬ d.acc = false) :
    qdecTicked c ms d =
      if c.updateFrequency < sinceEmission ms d ∧ d.count ≠ 0 then
        ({ decayed c ms d with count := 0, temit := ms }, .event, (decayed c ms d).vel.setWidth 24,
          signedBy d.inv d.count)
      else (decayed c ms d, .none, 0, 0) := by
  have count : (decayed c ms d).count = d.count := by rw [decayed_frame]
  have inv : (decayed c ms d).inv = d.inv := by rw [decayed_frame]
  have temit : (decayed c ms d).temit = d.temit := by rw [decayed_frame]
  simp only [qdecTicked, if_neg accelerated, count, inv, sinceEmission, temit, wrap32_toInt_mul_direction]

/-- QDEC.TICK stores the ticked decoder and responds with what the tick reports. -/
theorem exec_qdecTick {s : State} {q : BitVec 3} {r : Qdec × Status × BitVec 24 × Word}
    (present : q.toNat < s.cfg.numQdec) (ticked : qdecTicked s.cfg s.msCount s.qdec[decoderIdx q] = r) :
    exec (.qdecTick q) s =
      .next (({ s with qdec := s.qdec.set (decoderIdx q) r.1 } : State).respond .ctl
        (respWord r.2.1 r.2.2.1 r.2.2.2) []) := by
  simp only [exec, execQdecTick, if_pos present, ticked, reply_eq]

/-- Settles O32: the two modes are `qdecTicked_standard` and `qdecTicked_accelerated`, the elapsed time
`toNat_sub_eq_emod`. -/
theorem qdecTickReportsTheAccumulatedDelta : Obligations.QdecTickReportsTheAccumulatedDelta := by
  intro s q d d1 elapsed
  refine ⟨encodedAs_qdecTick q, fun absent => answersIllegal_of_exec (if_neg (by omega)), fun present => ?_⟩
  by_cases standard : d.acc = false
  · refine ⟨_, _, exec_qdecTick present (qdecTicked_standard _ _ standard), rfl, ⟨fun _ => rfl, fun _ _ => rfl⟩, ?_⟩
    rw [if_pos standard]
    refine ⟨rfl, ?_⟩
    split_ifs with zero
    · rw [zero, signedBy_zero]
      exact responded_respond ..
    · exact responded_respond ..
  · have window : sinceEmission s.msCount d = elapsed := toNat_sub_eq_emod s.msCount d.temit
    refine ⟨_, _, exec_qdecTick present (qdecTicked_accelerated _ _ standard), rfl,
      ⟨fun _ => rfl, fun _ _ => rfl⟩, ?_⟩
    rw [if_neg standard, window]
    split_ifs with due
    · rw [BitVec.ofNat_toNat]
      exact ⟨rfl, responded_respond ..⟩
    · exact ⟨rfl, responded_respond ..⟩

end Sys2Proof.Machine
end

section
/-! PROOFS. The family of 42_envelope.md: the curve and its operands (R154, R155) and the three edits of a stage's
registers (R157, R158, R159). -/

namespace Sys2Proof.Machine

open Sys2Proof.Safety

/-! ### The words of the family (30_encoding.md R72) -/

theorem encodedAs_envCurve (x bend : Word) : EncodedAs (.envCurve x bend) 0x30 0 0 x bend := by
  simp only [EncodedAs, decode, opcodeField_opWord, idxField_opWord, immField_opWord, aField_opWord, bField_opWord]
  exact legalWord_ok.mpr ⟨rfl, rfl, rfl, rfl, rfl⟩

theorem encodedAs_envShape (stage : BitVec 3) (x : Word) :
    EncodedAs (.envShape stage x) 0x31 (stage.setWidth 8) 0 x 0 := by
  obtain ⟨above, named⟩ := decoderField_legal stage
  simp only [EncodedAs, decode, opcodeField_opWord, idxField_opWord, immField_opWord, aField_opWord, bField_opWord]
  exact legalWord_ok.mpr ⟨above, rfl, rfl, rfl, by rw [named]⟩

/-- The words of the three edits differ in the opcode only. -/
theorem encodedAs_envEdits (stage : BitVec 3) (offset vel : Word) :
    EncodedAs (.envEdur stage offset vel) 0x32 (stage.setWidth 8) 0 offset vel ∧
    EncodedAs (.envEamp stage offset vel) 0x33 (stage.setWidth 8) 0 offset vel ∧
    EncodedAs (.envEbend stage offset vel) 0x34 (stage.setWidth 8) 0 offset vel := by
  obtain ⟨above, named⟩ := decoderField_legal stage
  simp only [EncodedAs, decode, opcodeField_opWord, idxField_opWord, immField_opWord, aField_opWord, bField_opWord,
    named]
  have legal : ∀ i, legalWord (stage.setWidth 8 >>> 3) 0 0 0 i = .ok i := fun _ =>
    legalWord_ok.mpr ⟨above, rfl, rfl, rfl, rfl⟩
  exact ⟨legal _, legal _, legal _⟩

/-! ### The curve (42_envelope.md R152 to R154) -/

theorem exp2neg_eq_interpolatedExp (p : Nat) : exp2neg p = interpolatedExp lutRead p := by
  have remainder : p % 65536 % 1024 = p % 1024 := Nat.mod_mod_of_dvd p (by decide)
  simp only [exp2neg, interpolatedExp, Nat.shiftRight_eq_div_pow, Nat.reducePow, remainder]

theorem curveG_eq_shaperG (ab z : Nat) : curveG ab z = shaperG lutRead ab z := by
  simp only [curveG, curveC, shaperG, exp2neg_eq_interpolatedExp, Nat.shiftRight_eq_div_pow, Nat.reducePow]

/-- The exponential branch with the second writing of `g`. -/
theorem curveF_eq (negBend : Bool) (ab ax : Nat) :
    curveF negBend ab ax =
      if negBend then
        (((shaperG lutRead ab ax * 65536 + shaperG lutRead ab 65536 / 2) / shaperG lutRead ab 65536 : Nat) : Int)
      else
        65536 - (((shaperG lutRead ab (65536 - ax) * 65536 + shaperG lutRead ab 65536 / 2) /
          shaperG lutRead ab 65536 : Nat) : Int) := by
  simp only [curveF, curveG_eq_shaperG, Nat.shiftRight_eq_div_pow, pow_one, Nat.cast_ofNat]

/-- The curve answers within the range of its operand. -/
theorem curveY_range {x : Int} (b : Int) (lower : -65536 ≤ x) (upper : x ≤ 65536) :
    -65536 ≤ curveY x b ∧ curveY x b ≤ 65536 := by
  unfold curveY
  split_ifs
  · decide
  · exact ⟨lower, upper⟩
  · obtain ⟨nonneg, bounded⟩ :=
      clamp_range (curveF (decide (b < 0)) b.natAbs x.natAbs) (show (0 : Int) ≤ 65536 by decide)
    unfold sgn
    split_ifs <;> omega

/-- ENV.CURVE responds with the curve of its clamped operands. -/
theorem exec_envCurve (x bend : Word) (s : State) :
    exec (.envCurve x bend) s =
      .next (s.respond .ctl (respWord .event 0 (wrap32 (curveY (unitOperand x) (unitOperand bend)))) []) := by
  simp only [exec, execEnvCurve, reply_eq]

/-- Settles O35: the value fits its field by `curveY_range`, and its exponential branch is `curveF_eq`. -/
theorem envCurveAnswersTheShaper : Obligations.EnvCurveAnswersTheShaper := by
  intro s x bend xc bc ab ax den f
  obtain ⟨lower, upper⟩ : -65536 ≤ xc ∧ xc ≤ 65536 := clamp_range x.toInt (by decide)
  obtain ⟨least, greatest⟩ := curveY_range bc lower upper
  have exponential : curveF (decide (bc < 0)) ab ax = f := by
    simp only [curveF_eq, decide_eq_true_eq]
    rfl
  have fits : (wrap32 (curveY xc bc)).toInt = curveY xc bc := toInt_wrap32 (by omega) (by omega)
  refine ⟨encodedAs_envCurve x bend, _, exec_envCurve x bend s, rfl, memorySame_respond .., _,
    responded_respond .., fits.trans ?_⟩
  rw [curveY, exponential, sgn_eq_sign, clamp]

/-! ### Shaping with a stage's bend (42_envelope.md R155) -/

/-- The stages that exist, by number. -/
theorem existing_stage_cases : ∀ {stage : BitVec 3}, stage.toNat < 6 →
    stage = 0 ∨ stage = 1 ∨ stage = 2 ∨ stage = 3 ∨ stage = 4 ∨ stage = 5 := by
  decide

/-- A bend register, given as an operand of ENV.CURVE, is the bend it holds. -/
theorem unitOperand_ofInt_bend (bend : BitVec 18) :
    unitOperand (BitVec.ofInt 32 bend.toInt) = clamp bend.toInt (-65536) 65536 := by
  have lower := BitVec.le_toInt bend
  have upper := BitVec.toInt_lt (x := bend)
  exact congrArg (clamp · (-65536) 65536) (toInt_wrap32 (by omega) (by omega))

/-- ENV.SHAPE of a stage is ENV.CURVE with the stage's bend, or with bend 0 where it has none. -/
theorem exec_envShape {s : State} {stage : BitVec 3} {st : Stage} (x : Word) (found : stageOf stage = some st) :
    exec (.envShape stage x) s =
      exec (.envCurve x (BitVec.ofInt 32 ((envBend s.env st).elim 0 BitVec.toInt))) s := by
  rw [exec_envCurve]
  cases held : envBend s.env st with
  | none =>
    simp only [exec, execEnvShape, found, held, reply_eq]
    rfl
  | some bend => simp only [exec, execEnvShape, found, held, reply_eq, Option.elim_some, unitOperand_ofInt_bend]

/-- Settles O38: `exec_envShape` at each stage that exists. -/
theorem envShapeUsesTheStageBend : Obligations.EnvShapeUsesTheStageBend := by
  intro s stage x
  refine ⟨encodedAs_envShape stage x, (execEnvShape_answer stage s x).answersIllegal, fun existing => ?_⟩
  have shape_eq_curve : exec (.envShape stage x) s = exec (.envCurve x (BitVec.ofInt 32 (
      if stage = 1 then s.env.attackBend.toInt else if stage = 3 then s.env.decayBend.toInt
      else if stage = 5 then s.env.releaseBend.toInt else 0))) s := by
    obtain rfl | rfl | rfl | rfl | rfl | rfl := existing_stage_cases existing
    · exact exec_envShape (st := .delay) x rfl
    · exact exec_envShape (st := .attack) x rfl
    · exact exec_envShape (st := .hold) x rfl
    · exact exec_envShape (st := .decay) x rfl
    · exact exec_envShape (st := .sustain) x rfl
    · exact exec_envShape (st := .release) x rfl
  rw [shape_eq_curve, exec_envCurve]
  exact ⟨_, _, rfl, rfl, rfl, rfl, memorySame_respond ..⟩

/-! ### The response of an edit (42_envelope.md R156) -/

section
variable {n : Nat} {new cur : BitVec n} {v : Int}

/-- EVENT exactly where the register changed, and the value that was asked for. -/
theorem responded_edit {c : Int} (u : State) {w : Word} (same : new = cur ↔ v = c) (value : wrap32 v = w) :
    Responded (u.respond .ctl (respWord (editStatus (decide (v ≠ c))) 0 (wrap32 v)) []) .ctl
      (if new = cur then 0x00 else 0x01) 0 w := by
  have status : (editStatus (decide (v ≠ c))).code = if new = cur then 0x00 else 0x01 := by
    by_cases kept : v = c <;> simp [kept, same, editStatus, Status.code]
  rw [← status, ← value]
  exact responded_respond ..

/-- An edit of an unsigned register that holds the edited value exactly. -/
theorem responded_edit_unsigned (u : State) (stored : (new.toNat : Int) = v) :
    Responded (u.respond .ctl (respWord (editStatus (decide (v ≠ cur.toNat))) 0 (wrap32 v)) []) .ctl
      (if new = cur then 0x00 else 0x01) 0 (BitVec.ofNat 32 new.toNat) := by
  subst stored
  exact responded_edit u (by rw [Int.ofNat_inj, BitVec.toNat_inj]) (BitVec.ofInt_natCast ..)

/-- An edit of a signed register that holds the edited value exactly. -/
theorem responded_edit_signed (u : State) (stored : new.toInt = v) :
    Responded (u.respond .ctl (respWord (editStatus (decide (v ≠ cur.toInt))) 0 (wrap32 v)) []) .ctl
      (if new = cur then 0x00 else 0x01) 0 (BitVec.ofInt 32 new.toInt) := by
  subst stored
  exact responded_edit u BitVec.toInt_inj.symm rfl

end

/-! ### The duration edit (42_envelope.md R157) -/

/-- The stage a row of durations belongs to: its number, its register, and the envelope with the register replaced. -/
theorem exists_stage_of_stageDur {e e' : Env} {stage : BitVec 3} {cur new : BitVec 14}
    (row : StageDur e new stage.toNat cur e') :
    ∃ st, stageOf stage = some st ∧ envDur e st = some cur ∧ envSetDur e new st = e' := by
  unfold stageOf
  generalize stage.toNat = number at row
  cases row with
  | delay => exact ⟨.delay, rfl, rfl, rfl⟩
  | attack => exact ⟨.attack, rfl, rfl, rfl⟩
  | hold => exact ⟨.hold, rfl, rfl, rfl⟩
  | decay => exact ⟨.decay, rfl, rfl, rfl⟩
  | release => exact ⟨.release, rfl, rfl, rfl⟩

theorem roundQ16_eq_nearestQ16 (p : Int) : roundQ16 p = nearestQ16 p := roundQ16_eq p

/-- The step with the table entry of the duration's order of magnitude. -/
theorem durStep_eq_durStepOf (cur : Nat) (offset : Int) (vel : Nat) :
    durStep cur offset vel = durStepOf cur offset vel := by
  have entry : ((durTable.getD (if cur < 10 then 0 else if cur < 100 then 1 else if cur < 1000 then 2 else 3) 0 : Nat) :
      Int) = durUnit cur := by
    unfold durUnit
    split_ifs <;> rfl
  simp only [durStep, durStepOf, entry, roundQ16_eq_nearestQ16, sgn_eq_sign]

theorem durEdited_range (cur : Nat) (offset : Int) (vel : Nat) :
    0 ≤ durEdited cur offset vel ∧ durEdited cur offset vel ≤ 10000 :=
  clamp_range _ (by decide)

/-- ENV.EDUR stores the edited duration of a stage that has one. -/
theorem exec_envEdur {s : State} {stage : BitVec 3} {st : Stage} {cur : BitVec 14} {offset vel : Word} {v : Int}
    (found : stageOf stage = some st) (held : envDur s.env st = some cur)
    (edited : durEdited cur.toNat offset.toInt (min vel.toNat 65536) = v) :
    exec (.envEdur stage offset vel) s =
      .next (({ s with env := envSetDur s.env (BitVec.ofInt 14 v) st } : State).respond .ctl
        (respWord (editStatus (decide (v ≠ cur.toNat))) 0 (wrap32 v)) []) := by
  simp only [exec, execEnvEdur, found, held, offsetOperand, velOperand, edited, reply_eq]

/-- Settles O39: the row names the stage, the step is `durStep_eq_durStepOf`, and a register of 14 bits holds the
clamped result. -/
theorem envDurationEditSteps : Obligations.EnvDurationEditSteps := by
  intro s stage offset vel
  refine ⟨(encodedAs_envEdits stage offset vel).1, (execEnvEdur_answer stage offset vel s).answersIllegal,
    fun cur new e row stored => ?_⟩
  obtain ⟨st, found, held, rfl⟩ := exists_stage_of_stageDur row
  obtain ⟨lower, upper⟩ := durEdited_range cur.toNat offset.toInt (min vel.toNat 65536)
  rw [← durStep_eq_durStepOf] at stored
  subst stored
  exact ⟨_, exec_envEdur found held rfl, rfl, ⟨fun _ => rfl, fun _ _ => rfl⟩,
    responded_edit_unsigned _ (toNat_ofInt_dur lower upper)⟩

/-! ### The amplitude edit (42_envelope.md R158) -/

/-- The magnitude of an amplitude step: at least 655, unless there is no offset. -/
theorem ampMag_eq (offset : Int) (vel : Nat) :
    (ampMag offset vel : Int) =
      if offset = 0 then (((offset.natAbs * vel * 3277 + 32768) / 65536 : Nat) : Int)
      else max (((offset.natAbs * vel * 3277 + 32768) / 65536 : Nat) : Int) 655 := by
  simp only [ampMag, Nat.shiftRight_eq_div_pow, Nat.reducePow]
  generalize (offset.natAbs * vel * 3277 + 32768) / 65536 = rounded
  split_ifs <;> omega

theorem ampEdited_range (cur : Nat) (offset : Int) (vel : Nat) :
    0 ≤ ampEdited cur offset vel ∧ ampEdited cur offset vel ≤ 65536 :=
  clamp_range _ (by decide)

/-- ENV.EAMP stores the edited amplitude of Sustain. -/
theorem exec_envEamp_sustain {s : State} {offset vel : Word} {v : Int}
    (edited : ampEdited s.env.sustainAmp.toNat offset.toInt (min vel.toNat 65536) = v) :
    exec (.envEamp 4 offset vel) s =
      .next (({ s with env := { s.env with sustainAmp := BitVec.ofInt 17 v } } : State).respond .ctl
        (respWord (editStatus (decide (v ≠ s.env.sustainAmp.toNat))) 0 (wrap32 v)) []) := by
  have found : stageOf 4 = some .sustain := rfl
  simp only [exec, execEnvEamp, found, offsetOperand, velOperand, edited, reply_eq]

/-- Settles O40: the magnitude is `ampMag_eq`, and a register of 17 bits holds the clamped result. -/
theorem envAmplitudeEditSteps : Obligations.EnvAmplitudeEditSteps := by
  intro s offset vel rounded mag new
  obtain ⟨lower, upper⟩ := ampEdited_range s.env.sustainAmp.toNat offset.toInt (min vel.toNat 65536)
  have stored : BitVec.ofInt 17 (ampEdited s.env.sustainAmp.toNat offset.toInt (min vel.toNat 65536)) = new := by
    rw [ampEdited, ampMag_eq, sgn_eq_sign]
    rfl
  rw [← stored]
  exact ⟨fun stage => ⟨(encodedAs_envEdits stage offset vel).2.1,
      (execEnvEamp_answer stage offset vel s).answersIllegal⟩,
    _, exec_envEamp_sustain rfl, rfl, ⟨fun _ => rfl, fun _ _ => rfl⟩,
    responded_edit_unsigned _ (toNat_ofInt_amp lower upper)⟩

/-! ### The bend edit (42_envelope.md R159) -/

/-- The stage a row of bends belongs to, likewise. -/
theorem exists_stage_of_stageBend {e e' : Env} {stage : BitVec 3} {cur new : BitVec 18}
    (row : StageBend e new stage.toNat cur e') :
    ∃ st, stageOf stage = some st ∧ envBend e st = some cur ∧ envSetBend e new st = e' := by
  unfold stageOf
  generalize stage.toNat = number at row
  cases row with
  | attack => exact ⟨.attack, rfl, rfl, rfl⟩
  | decay => exact ⟨.decay, rfl, rfl, rfl⟩
  | release => exact ⟨.release, rfl, rfl, rfl⟩

theorem bendEdited_range (cur offset : Int) (vel : Nat) :
    -65536 ≤ bendEdited cur offset vel ∧ bendEdited cur offset vel ≤ 65536 :=
  clamp_range _ (by decide)

/-- ENV.EBEND stores the edited bend of a stage that has one. -/
theorem exec_envEbend {s : State} {stage : BitVec 3} {st : Stage} {cur : BitVec 18} {offset vel : Word} {v : Int}
    (found : stageOf stage = some st) (held : envBend s.env st = some cur)
    (edited : bendEdited cur.toInt offset.toInt (min vel.toNat 65536) = v) :
    exec (.envEbend stage offset vel) s =
      .next (({ s with env := envSetBend s.env (BitVec.ofInt 18 v) st } : State).respond .ctl
        (respWord (editStatus (decide (v ≠ cur.toInt))) 0 (wrap32 v)) []) := by
  simp only [exec, execEnvEbend, found, held, offsetOperand, velOperand, edited, reply_eq]

/-- Settles O41: the row names the stage, and a signed register of 18 bits holds the clamped result. -/
theorem envBendEditSteps : Obligations.EnvBendEditSteps := by
  intro s stage offset vel
  refine ⟨(encodedAs_envEdits stage offset vel).2.2, (execEnvEbend_answer stage offset vel s).answersIllegal,
    fun cur new e row stored => ?_⟩
  obtain ⟨st, found, held, rfl⟩ := exists_stage_of_stageBend row
  obtain ⟨lower, upper⟩ := bendEdited_range cur.toInt offset.toInt (min vel.toNat 65536)
  rw [← roundQ16_eq_nearestQ16] at stored
  subst stored
  exact ⟨_, exec_envEbend found held rfl, rfl, ⟨fun _ => rfl, fun _ _ => rfl⟩,
    responded_edit_signed _ (toInt_ofInt_bend lower upper)⟩

end Sys2Proof.Machine
end

section
/-! PROOFS. The family of 43_synth.md: a note takes a voice and leaves it (R183, R184), the tick mixes and pushes (R185,
R186), and the ring it pushes into is a first-in first-out queue (20_memory.md R47). -/

namespace Sys2Proof.Machine

open Sys2Proof.Safety

/-! ### The words of the family (30_encoding.md R72) -/

/-- A note stands alone in the low seven bits of the index field. -/
theorem noteField_legal (note : BitVec 7) : note.setWidth 8 >>> 7 = 0#8 ∧ (note.setWidth 8).setWidth 7 = note := by
  constructor
  · apply BitVec.eq_of_toNat_eq
    have := note.isLt
    simp [Nat.shiftRight_eq_div_pow]
    omega
  · simp

/-- The words of the two note operations differ in the opcode only. -/
theorem encodedAs_synNotes (note : BitVec 7) :
    EncodedAs (.synNoteon note) 0x40 (note.setWidth 8) 0 0 0 ∧
    EncodedAs (.synNoteoff note) 0x41 (note.setWidth 8) 0 0 0 := by
  obtain ⟨above, named⟩ := noteField_legal note
  simp only [EncodedAs, decode, opcodeField_opWord, idxField_opWord, immField_opWord, aField_opWord, bField_opWord,
    named]
  have legal : ∀ i, legalWord (note.setWidth 8 >>> 7) 0 0 0 i = .ok i := fun _ =>
    legalWord_ok.mpr ⟨above, rfl, rfl, rfl, rfl⟩
  exact ⟨legal _, legal _⟩

theorem encodedAs_synTick : EncodedAs .synTick 0x42 0 0 0 0 := by
  simp only [EncodedAs, decode, opcodeField_opWord, idxField_opWord, immField_opWord, aField_opWord, bField_opWord]
  exact legalWord_ok.mpr ⟨rfl, rfl, rfl, rfl, rfl⟩

/-- What a response puts out together with events for the oscillators. -/
theorem respondedWith_respond (s : State) (a : Agent) (st : Status) (aux : BitVec 24) (v : Word)
    (osc : List OscEvent) : RespondedWith (s.respond a (respWord st aux v) osc) a st.code aux v osc :=
  ⟨respWord st aux v, rfl, statusField_respWord st aux v, auxField_respWord st aux v, valueField_respWord st aux v⟩

/-! ### The notes (43_synth.md R183, R184) -/

/-- The voice the search finds, as a slot of the pool. -/
theorem exists_slot_of_firstVoice {s : State} {x : Voice} {v : Nat} (h : s.firstVoice x = some v) :
    ∃ k : Fin 16, k.val = v ∧ k.val < s.cfg.numVoices ∧ s.voices[k] = x ∧ ∀ w : Fin 16, w < k → s.voices[w] ≠ x := by
  obtain ⟨present, found, lowest⟩ := State.firstVoice_eq_some h
  obtain ⟨inPool, holds⟩ := Vector.getElem?_eq_some_iff.mp found
  refine ⟨⟨v, inPool⟩, rfl, present, holds, fun w below same => lowest w below ?_⟩
  exact Vector.getElem?_eq_some_iff.mpr ⟨w.isLt, same⟩

/-- Where the search finds nothing, no slot that exists has the condition. -/
theorem slot_ne_of_firstVoice {s : State} {x : Voice} (h : s.firstVoice x = none) (w : Fin 16)
    (present : w.val < s.cfg.numVoices) : s.voices[w] ≠ x := fun same =>
  State.firstVoice_eq_none h w present (Vector.getElem?_eq_some_iff.mpr ⟨w.isLt, same⟩)

/-- Changing a slot of the pool. -/
theorem setVoice_voices_slot (s : State) (k : Fin 16) (x : Voice) :
    (s.setVoice k.val x).voices = s.voices.set k x := by
  ext i
  simp [Vector.getElem_setIfInBounds, Vector.getElem_set]

section
variable {s : State} {note : BitVec 7}

theorem exec_synNoteon_dropped (h : s.firstVoice .idle = none) :
    exec (.synNoteon note) s = .next (s.respond .smp (respWord .voiceDropped 0 0) []) := by
  simp only [exec, execSynNoteon, h, reply_eq]

theorem exec_synNoteon_taken {v : Nat} (h : s.firstVoice .idle = some v) :
    exec (.synNoteon note) s = .next ((s.setVoice v (.sounding note)).respond .smp
      (respWord .event (BitVec.ofNat 24 v) 0) [.set v note]) := by
  simp only [exec, execSynNoteon, h]

theorem exec_synNoteoff_noMatch (h : s.firstVoice (.sounding note) = none) :
    exec (.synNoteoff note) s = .next (s.respond .smp (respWord .noMatch 0 0) []) := by
  simp only [exec, execSynNoteoff, h, reply_eq]

theorem exec_synNoteoff_silenced {v : Nat} (h : s.firstVoice (.sounding note) = some v) :
    exec (.synNoteoff note) s = .next ((s.setVoice v .idle).respond .smp
      (respWord .event (BitVec.ofNat 24 v) 0) []) := by
  simp only [exec, execSynNoteoff, h, reply_eq]

end

/-- Settles O43: the search for an idle voice finds the lowest slot, or there is none. -/
theorem noteOnTakesTheFirstIdleVoice : Obligations.NoteOnTakesTheFirstIdleVoice := by
  intro s note
  refine ⟨(encodedAs_synNotes note).1, ?_⟩
  cases search : s.firstVoice .idle with
  | none =>
    exact ⟨_, exec_synNoteon_dropped search, rfl, memorySame_respond ..,
      .inr ⟨slot_ne_of_firstVoice search, rfl, responded_respond ..⟩⟩
  | some v =>
    obtain ⟨k, rfl, present, idle, lowest⟩ := exists_slot_of_firstVoice search
    exact ⟨_, exec_synNoteon_taken search, rfl, ⟨fun _ => rfl, fun _ _ => rfl⟩,
      .inl ⟨k, present, idle, lowest, setVoice_voices_slot s k _, respondedWith_respond ..⟩⟩

/-- Settles O44: the search for the note finds the lowest slot that sounds it, or there is none. -/
theorem noteOffSilencesTheFirstMatch : Obligations.NoteOffSilencesTheFirstMatch := by
  intro s note
  refine ⟨(encodedAs_synNotes note).2, ?_⟩
  cases search : s.firstVoice (.sounding note) with
  | none =>
    exact ⟨_, exec_synNoteoff_noMatch search, rfl, memorySame_respond ..,
      .inr ⟨slot_ne_of_firstVoice search, rfl, responded_respond ..⟩⟩
  | some v =>
    obtain ⟨k, rfl, present, sounds, lowest⟩ := exists_slot_of_firstVoice search
    exact ⟨_, exec_synNoteoff_silenced search, rfl, ⟨fun _ => rfl, fun _ _ => rfl⟩,
      .inl ⟨k, present, sounds, lowest, setVoice_voices_slot s k _, responded_respond ..⟩⟩

/-! ### Pushing (44_ring.md R201) -/

/-- A push touches the ring and its write pointer only. -/
theorem push_eq (s : State) (f : Frame) : s.push f = { s with ring := (s.push f).ring, wptr := (s.push f).wptr } := by
  rcases push_cases s f with ⟨-, h⟩ | ⟨-, h⟩ <;> rw [h]

/-- What a push answers: RING_FULL where the producer sees a full ring, else EVENT. -/
def pushStatus (s : State) : Status := if s.pushFull then .ringFull else .event

theorem pushStatus_code (s : State) : (pushStatus s).code = if s.occSeen = s.cfg.ringN then 0x12 else 0x01 := by
  by_cases full : s.occSeen = s.cfg.ringN <;> simp [pushStatus, State.pushFull, full, Status.code]

theorem exec_ringPush (l r : Word) (s : State) :
    exec (.ringPush l r) s = .next ((s.push ⟨l, r⟩).respond .smp (respWord (pushStatus s) 0 0) []) := rfl

/-! ### The tick (43_synth.md R185, R186) -/

/-- SYN.TICK pushes the mix as RING.PUSH would, and answers it. -/
theorem exec_synTick (s : State) :
    exec .synTick s = .next ((s.push ⟨s.mix s.oscSamples, s.mix s.oscSamples⟩).oscTaken.respond .smp
      (respWord (pushStatus s) 0 (s.mix s.oscSamples)) (s.soundingVoices.map .pull)) := rfl

/-- A voice below `NUM_VOICES` sounds where its slot holds a note. -/
theorem sounds_eq {s : State} {v : Nat} (present : v < s.cfg.numVoices) :
    s.sounds v = decide (∃ n, s.voices[v]? = some (.sounding n)) := by
  simp only [State.sounds, State.voiceAt, present, if_true]
  rcases s.voices[v]? with _ | _ | note <;> simp

theorem soundingVoices_eq (s : State) :
    s.soundingVoices =
      (List.range s.cfg.numVoices).filter fun v => decide (∃ n, s.voices[v]? = some (.sounding n)) :=
  List.filter_congr fun _ listed => sounds_eq (List.mem_range.mp listed)

/-- The mix is the exact sum, saturated: the saturated value fits in 32 bits. -/
theorem mix_toInt (s : State) (samples : Nat → BitVec 16) :
    (s.mix samples).toInt =
      min (max (mixSum s.cfg.voiceGainQ16 samples s.soundingVoices) (-2 ^ 31)) (2 ^ 31 - 1) := by
  simp only [State.mix, satS32]
  rw [toInt_wrap32 (by omega) (by omega)]
  rfl

/-- Settles O45: the mix by `mix_toInt`, the rest by `exec_synTick` and what a push touches. -/
theorem synTickMixesAndPushes : Obligations.SynTickMixesAndPushes := by
  intro s sounding sum
  have voices : s.soundingVoices = sounding := soundingVoices_eq s
  have total : mixSum s.cfg.voiceGainQ16 s.oscSamples s.soundingVoices = sum := by rw [voices]; rfl
  refine ⟨encodedAs_synTick, _, s.mix s.oscSamples, exec_synTick s, ?_, ?_, ?_, ?_,
    _, exec_ringPush _ _ s, rfl, rfl⟩
  · rw [mix_toInt, total]
  · intro h offset
    cases h <;> simp [State.hwByte, State.half]
  · exact congrArg (fun u : State => u.oscTaken.respond .smp _ _) (push_eq s _)
  · rw [← pushStatus_code, ← voices]
    exact respondedWith_respond ..

end Sys2Proof.Machine
end

section
/-! PROOFS. The ring as a queue (20_memory.md R46, R47): the slots of a window of pointers, what each operation does to
the frames between the two pointers. -/

namespace Sys2Proof.Machine

open Sys2Proof.Safety

/-! ### Pointers and slots (20_memory.md R41, 10_state.md R20) -/

section
variable (c : Config) {p q n : Nat}

/-- A pointer is its distance ahead of another. -/
theorem ptrAdd_ptrDist (hp : p < 2 * c.ringN) (hq : q < 2 * c.ringN) : ptrAdd c q (ptrDist c p q) = p := by
  have := ptrDist_or c hp hq
  have := ptrAdd_or c hq (ptrDist_lt c p q).le
  omega

/-- A pointer that is not yet a whole ring ahead, moved by one, is one further ahead. -/
theorem ptrDist_ptrAdd_one (hp : p < 2 * c.ringN) (hq : q < 2 * c.ringN) (room : ptrDist c p q < c.ringN) :
    ptrDist c (ptrAdd c p 1) q = ptrDist c p q + 1 := by
  have := ptrDist_or c hp hq
  have := ptrAdd_or c hp (show 1 ≤ 2 * c.ringN by omega)
  have := ptrDist_or c (ptrAdd_lt c p 1) hq
  omega

/-- A pointer that follows another by `n`, not overtaking it, has `n` less to go. -/
theorem ptrDist_ptrAdd_right (hp : p < 2 * c.ringN) (hq : q < 2 * c.ringN) (behind : n ≤ ptrDist c p q) :
    ptrDist c p (ptrAdd c q n) = ptrDist c p q - n := by
  have := ptrDist_lt c p q
  have := ptrDist_or c hp hq
  have := ptrAdd_or c hq (show n ≤ 2 * c.ringN by omega)
  have := ptrDist_or c hp (ptrAdd_lt c q n)
  omega

theorem slotOf_ptrAdd (p n : Nat) : slotOf c (ptrAdd c p n) = slotOf c (p + n) := by
  rw [ptrAdd_eq, slotOf_mod]

theorem slotOf_ptrAdd_add (p n j : Nat) : slotOf c (ptrAdd c p n + j) = slotOf c (p + (n + j)) := by
  rw [← slotOf_mod, ← ptrAdd_eq, ← Nat.add_assoc, ptrAdd_eq, ptrAdd_eq, Nat.mod_add_mod, slotOf_mod]

/-- Two pointers less than a whole ring apart address different slots. -/
theorem slotOf_add_ne {j k : Nat} (below : j < k) (inRing : k < c.ringN) : slotOf c (p + j) ≠ slotOf c (p + k) := by
  intro same
  have : j % c.ringN = k % c.ringN := Nat.ModEq.add_left_cancel' p same
  rw [Nat.mod_eq_of_lt (by omega), Nat.mod_eq_of_lt inRing] at this
  omega

end

/-! ### The frames of the queue -/

/-- The `j`-th frame from the read pointer, where its slot has a value. -/
def frameAt (s : State) (j : Nat) : Frame := (Memory.read s.ring (queueSlot s j)).getD ⟨0, 0⟩

/-- A queue is known by the frames its slots hold. -/
theorem queue_eq_map {s : State} {frames : Nat → Frame}
    (held : ∀ j < s.occ, Memory.read s.ring (queueSlot s j) = some (frames j)) :
    queue s = (List.range s.occ).map frames :=
  List.filterMap_eq_map_iff_forall_eq_some.mpr fun j listed => held j (List.mem_range.mp listed)

/-- The elements a queue is read from are the same. -/
structure SameRing (s t : State) : Prop where
  cfg : t.cfg = s.cfg
  ring : t.ring = s.ring
  wptr : t.wptr = s.wptr
  rptr : t.rptr = s.rptr

theorem queue_congr {s t : State} (same : SameRing s t) : queue t = queue s := by
  obtain ⟨cfg, ring, wptr, rptr⟩ := same
  simp only [queue, queueSlot, State.occ, cfg, ring, wptr, rptr]

@[simp] theorem queue_respond (s : State) (a : Agent) (w : RespWord) (osc : List OscEvent) :
    queue (s.respond a w osc) = queue s := queue_congr ⟨rfl, rfl, rfl, rfl⟩

@[simp] theorem queue_oscTaken (s : State) : queue s.oscTaken = queue s := queue_congr ⟨rfl, rfl, rfl, rfl⟩

section
variable {s : State} (inv : Invariants s)
include inv

/-- Every frame between the two pointers has a value: the invariant `written`, of which 10_state.md R37 (d) is the part
the consumer sees. -/
theorem read_queueSlot {j : Nat} (h : j < s.occ) : Memory.read s.ring (queueSlot s j) = some (frameAt s j) := by
  obtain ⟨f, held⟩ := Option.isSome_iff_exists.mp (inv.written j h)
  rw [frameAt, held, Option.getD_some]

theorem queue_eq_map_frameAt : queue s = (List.range s.occ).map (frameAt s) :=
  queue_eq_map fun _ => read_queueSlot inv

theorem queue_length : (queue s).length = s.occ := by
  rw [queue_eq_map_frameAt inv, List.length_map, List.length_range]

theorem queue_getElem {j : Nat} (h : j < (queue s).length) : (queue s)[j] = frameAt s j := by
  simp [queue_eq_map_frameAt inv]

/-! ### A push appends (44_ring.md R201) -/

/-- The write pointer addresses the slot after the last frame. -/
theorem slotOf_wptr : slotOf s.cfg s.wptr = queueSlot s s.occ := by
  obtain ⟨hw, hr, -, -⟩ := inv.pointers
  rw [queueSlot, ← slotOf_ptrAdd, State.occ, ptrAdd_ptrDist s.cfg hw hr]

/-- Where the producer sees room, the true occupancy is below the ring's size too (10_state.md R37 (b)). -/
theorem occ_lt_ringN (room : s.occSeen ≠ s.cfg.ringN) : s.occ < s.cfg.ringN := by
  have seen := inv.producerView
  omega

/-- A push into a ring with room writes the slot after the last frame, and the occupancy counts it. -/
theorem push_room (f : Frame) (room : s.occSeen ≠ s.cfg.ringN) :
    (s.push f).ring = Memory.write s.ring (queueSlot s s.occ) f ∧ (s.push f).occ = s.occ + 1 ∧
      ∀ j, queueSlot (s.push f) j = queueSlot s j := by
  obtain ⟨hw, hr, -, -⟩ := inv.pointers
  obtain ⟨full, -⟩ | ⟨-, taken⟩ := push_cases s f
  · exact absurd full room
  · rw [taken, ← slotOf_wptr inv]
    exact ⟨rfl, ptrDist_ptrAdd_one s.cfg hw hr (occ_lt_ringN inv room), fun _ => rfl⟩

/-- A push appends its frame where the producer sees room, and else leaves the queue alone. -/
theorem queue_push (f : Frame) :
    queue (s.push f) = if s.occSeen = s.cfg.ringN then queue s else queue s ++ [f] := by
  rcases push_cases s f with ⟨full, dropped⟩ | ⟨room, -⟩
  · rw [if_pos full, dropped]
  · obtain ⟨ring, occ, slot⟩ := push_room inv f room
    have older : ∀ j ∈ List.range s.occ,
        Memory.read (s.push f).ring (queueSlot (s.push f) j) = Memory.read s.ring (queueSlot s j) :=
      fun j listed => by
        rw [ring, slot]
        exact Memory.read_write_other _ _ _ _
          (slotOf_add_ne s.cfg (List.mem_range.mp listed) (occ_lt_ringN inv room))
    have newest : Memory.read (s.push f).ring (queueSlot (s.push f) s.occ) = some f := by
      rw [ring, slot, Memory.read_write_same]
    rw [if_neg room, queue, occ, List.range_succ, List.filterMap_append, List.filterMap_congr older]
    simp [queue, newest]

/-! ### A drain removes the oldest (44_ring.md R204) -/

theorem drainCount_le_occ : s.drainCount ≤ s.occ := (Nat.min_le_left ..).trans inv.consumerView

/-- A state whose read pointer has moved over the oldest `n` frames holds the others. -/
theorem queue_of_rptr_moved {t : State} {n : Nat} (held : n ≤ s.occ) (cfg : t.cfg = s.cfg) (ring : t.ring = s.ring)
    (wptr : t.wptr = s.wptr) (rptr : t.rptr = ptrAdd s.cfg s.rptr n) : queue t = (queue s).drop n := by
  obtain ⟨hw, hr, -, -⟩ := inv.pointers
  have occ : t.occ = s.occ - n := by
    rw [State.occ, cfg, wptr, rptr]
    exact ptrDist_ptrAdd_right s.cfg hw hr held
  have slot : ∀ j, queueSlot t j = queueSlot s (n + j) := fun j => by
    rw [queueSlot, cfg, rptr, slotOf_ptrAdd_add, queueSlot]
  have frames : queue t = (List.range t.occ).map fun j => frameAt s (n + j) := queue_eq_map fun j below => by
    rw [ring, slot]
    exact read_queueSlot inv (by omega)
  rw [frames, occ, queue_eq_map_frameAt inv]
  exact List.ext_getElem (by simp) (by simp)

/-- The copy loop of a drain completes and fills the frame slots of the half with the oldest frames. -/
theorem exists_drained (m : List Host.Cell) :
    ∃ m', drainFrames s.cfg s.ring s.rptr m s.drainCount = .ok m' ∧
      ∀ j < s.drainCount, HoldsFrame m' j (frameAt s j) := by
  have bound := drainCount_le_occ inv
  obtain ⟨m', copied⟩ := drainFrames_completes (c := s.cfg) (ring := s.ring) (rptr := s.rptr) m
    fun j (h : j < s.drainCount) => inv.written j (by omega)
  refine ⟨m', copied, fun j h => ?_⟩
  obtain ⟨f, read, words⟩ := (drainFrames_ok copied).1 j h
  obtain rfl : f = frameAt s j := Option.some.inj (read.symm.trans (read_queueSlot inv (by omega)))
  exact words

end

/-- RING.DRAIN with a completed copy loop: the half is replaced and the read pointer moves; the ring and the write
pointer stay. -/
theorem exec_ringDrain_of_ok {s : State} {h : Bool} {m : List Host.Cell}
    (copied : drainFrames s.cfg s.ring s.rptr (s.half h) s.drainCount = .ok m) :
    ∃ t, exec (.ringDrain h) s = .next t ∧ t.half h = m ∧ t.cfg = s.cfg ∧ t.ring = s.ring ∧ t.wptr = s.wptr ∧
      t.rptr = ptrAdd s.cfg s.rptr s.drainCount := by
  simp only [exec, execRingDrain, copied, reply_eq]
  split <;> cases h <;> exact ⟨_, rfl, rfl, rfl, rfl, rfl, rfl⟩

/-! ### Every other operation leaves the queue alone -/

/-- If the outcome is a next state, its queue is read from the same elements. -/
def KeepsRing (s : State) : Host.Outcome State Fault Refusal → Prop
  | .next t => SameRing s t
  | .fault _ => True
  | .refused _ => True

theorem keepsRing_reply {s u : State} (a : Agent) (st : Status) (aux : BitVec 24) (v : Word) (same : SameRing s u) :
    KeepsRing s (reply a st aux v u) := ⟨same.cfg, same.ring, same.wptr, same.rptr⟩

/-- A register write touches nothing the queue is read from. -/
theorem execCsrWr_keepsRing (addr : BitVec 16) (data : Word) (s : State) : KeepsRing s (execCsrWr addr data s) := by
  unfold execCsrWr
  split
  · exact ⟨rfl, rfl, rfl, rfl⟩
  · split
    · exact ⟨rfl, rfl, rfl, rfl⟩
    · exact keepsRing_reply _ _ _ _ (by constructor <;> simp)

/-- No operation but a push, a drain and SYN.TICK touches what the queue is read from: in each branch of its meaning the
next state is written with other fields. -/
theorem exec_keepsRing {i : Instr} (s : State) (notPush : ∀ l r, i ≠ .ringPush l r)
    (notDrain : ∀ h, i ≠ .ringDrain h) (notTick : i ≠ .synTick) : KeepsRing s (exec i s) := by
  cases i with
  | ringPush l r => exact absurd rfl (notPush l r)
  | ringDrain h => exact absurd rfl (notDrain h)
  | synTick => exact absurd rfl notTick
  | csrWr addr data => exact execCsrWr_keepsRing addr data s
  | nop | msTick | keyScan raw16 | maskDiff old new | envCurve x bend | ringSyncu => exact ⟨rfl, rfl, rfl, rfl⟩
  | csrRd addr | debUpd lane raw | qdecSmp q clk dt | qdecTick q | envShape stage x | envEamp stage offset vel
  | synNoteon note | synNoteoff note | ringSyncw adv | ringSyncr adv =>
    simp only [exec, execCsrRd, execDebUpd, execQdecSmp, execQdecTick, execEnvShape, execEnvEamp, execSynNoteon,
      execSynNoteoff, execRingSyncw, execRingSyncr]
    split <;> exact ⟨rfl, rfl, rfl, rfl⟩
  | btnUpd b raw | qeiTick e count | envEdur stage offset vel | envEbend stage offset vel =>
    simp only [exec, execBtnUpd, execQeiTick, execEnvEdur, execEnvEbend]
    repeat' split
    all_goals exact ⟨rfl, rfl, rfl, rfl⟩

/-- Settles O58: the queue's length by the invariant `written`, a push and the tick by `queue_push`, a drain by the moved read
pointer and the frames its loop copies, every other operation by `exec_keepsRing`. -/
theorem ringIsAFirstInFirstOutQueue : Obligations.RingIsAFirstInFirstOutQueue := by
  intro s inv
  refine ⟨queue_length inv, fun l r => ?push, ?tick, fun h => ?drain, fun i t next notPush notDrain notTick => ?other⟩
  case push =>
    refine ⟨_, exec_ringPush l r s, ?_⟩
    rw [queue_respond, queue_push inv]
  case tick =>
    refine ⟨_, s.mix s.oscSamples, exec_synTick s, ?_, ?_⟩
    · rw [← pushStatus_code]
      exact respondedWith_respond ..
    · rw [queue_respond, queue_oscTaken, queue_push inv]
  case drain =>
    obtain ⟨m, copied, filled⟩ := exists_drained inv (s.half h)
    obtain ⟨t, next, half, cfg, ring, wptr, rptr⟩ := exec_ringDrain_of_ok copied
    refine ⟨t, next, queue_of_rptr_moved inv (drainCount_le_occ inv) cfg ring wptr rptr, fun j hj below => ?_⟩
    rw [half, queue_getElem inv hj]
    exact filled j below
  case other =>
    have keeps := exec_keepsRing s notPush notDrain notTick
    rw [next] at keeps
    exact queue_congr keeps

end Sys2Proof.Machine
end

section
/-! PROOFS. The family of 44_ring.md: a push (R201), a drain (R204) and the counter it alone moves (R205), and what the
three synchroniser steps deliver (R208 to R210). -/

namespace Sys2Proof.Machine

open Sys2Proof.Safety

/-! ### The words of the family (30_encoding.md R72) -/

theorem encodedAs_ringPush (l r : Word) : EncodedAs (.ringPush l r) 0x50 0 0 l r := by
  simp only [EncodedAs, decode, opcodeField_opWord, idxField_opWord, immField_opWord, aField_opWord, bField_opWord]
  exact legalWord_ok.mpr ⟨rfl, rfl, rfl, rfl, rfl⟩

/-- The half a drain names stands alone in the low bit of the index field. -/
theorem halfField_legal : ∀ h : Bool,
    (if h then 1 else 0 : BitVec 8) >>> 1 = 0 ∧ (if h then 1 else 0 : BitVec 8).getLsbD 0 = h := by
  decide

theorem encodedAs_ringDrain (h : Bool) : EncodedAs (.ringDrain h) 0x51 (if h then 1 else 0) 0 0 0 := by
  obtain ⟨above, named⟩ := halfField_legal h
  simp only [EncodedAs, decode, opcodeField_opWord, idxField_opWord, immField_opWord, aField_opWord, bField_opWord]
  exact legalWord_ok.mpr ⟨above, rfl, rfl, rfl, by rw [named]⟩

/-- The words of the two pointer synchronisers differ in the opcode only. -/
theorem encodedAs_ringSyncs (adv : Word) :
    EncodedAs (.ringSyncw adv) 0x58 0 0 0 adv ∧ EncodedAs (.ringSyncr adv) 0x59 0 0 0 adv := by
  simp only [EncodedAs, decode, opcodeField_opWord, idxField_opWord, immField_opWord, aField_opWord, bField_opWord]
  have legal : ∀ i, legalWord 0 0 0 0 i = .ok i := fun _ => legalWord_ok.mpr ⟨rfl, rfl, rfl, rfl, rfl⟩
  exact ⟨legal _, legal _⟩

theorem encodedAs_ringSyncu : EncodedAs .ringSyncu 0x5A 0 0 0 0 := by
  simp only [EncodedAs, decode, opcodeField_opWord, idxField_opWord, immField_opWord, aField_opWord, bField_opWord]
  exact legalWord_ok.mpr ⟨rfl, rfl, rfl, rfl, rfl⟩

/-! ### A push (44_ring.md R201) -/

/-- A push touches no byte of the hardware buffer, and neither does its answer. -/
theorem hwSame_push_respond (s : State) (f : Frame) (a : Agent) (w : RespWord) (osc : List OscEvent) :
    HwSame s ((s.push f).respond a w osc) := fun h offset => by
  cases h <;> simp [State.hwByte, State.half]

/-- Settles O48: the answer and the two cases of a push by `exec_ringPush` and `push_cases`. -/
theorem pushWritesOneSlotOrDrops : Obligations.PushWritesOneSlotOrDrops := by
  intro s l r
  have frame := congrArg (fun u : State => u.respond .smp (respWord (pushStatus s) 0 0) []) (push_eq s ⟨l, r⟩)
  have answer := responded_respond (s.push ⟨l, r⟩) .smp (pushStatus s) 0 0
  rw [pushStatus_code] at answer
  refine ⟨encodedAs_ringPush l r, _, exec_ringPush l r s, frame, hwSame_push_respond s _ _ _ _, ?_⟩
  rcases push_cases s ⟨l, r⟩ with ⟨full, dropped⟩ | ⟨room, taken⟩
  · rw [if_pos full] at answer
    refine (if_pos full).mpr ⟨fun slot => ?_, ?_, answer⟩
    · rw [State.respond_ring, dropped]
    · rw [State.respond_wptr, dropped]
  · rw [if_neg room] at answer
    have ring : (s.push ⟨l, r⟩).ring = Memory.write s.ring (slotOf s.cfg s.wptr) ⟨l, r⟩ := by rw [taken]
    refine (if_neg room).mpr ⟨?_, ?_, fun slot other => ?_, answer⟩
    · rw [State.respond_wptr, taken, ptrAdd_eq]
    · rw [State.respond_ring, ring]
      exact Memory.read_write_same ..
    · rw [State.respond_ring, ring]
      exact Memory.read_write_other _ _ _ _ other

/-! ### A drain (44_ring.md R204) -/

/-- The saturating counter, as a number (44_ring.md R205). -/
theorem underrunAfter_toNat (u : Word) (deficit : Nat) :
    (underrunAfter u deficit).toNat = min (2 ^ 32 - 1) (u.toNat + deficit) := by
  rw [underrunAfter, BitVec.toNat_ofNat]
  omega

theorem underrunAfter_zero (u : Word) : underrunAfter u 0 = u := by
  apply BitVec.eq_of_toNat_eq
  have := u.isLt
  rw [underrunAfter_toNat]
  omega

/-- The state after a drain whose copy loop has made the half `m`. A deficit of 0 leaves the counter
(`underrunAfter_zero`), so that one state serves both answers. -/
def State.drained (s : State) (h : Bool) (m : List Host.Cell) : State :=
  { s.setHalf h m with rptr := ptrAdd s.cfg s.rptr s.drainCount, underrun := underrunAfter s.underrun s.deficit }

/-- What a completed drain answers: EVENT where it fills the half, else UNDERRUN. -/
def drainStatus (s : State) : Status := if s.deficit = 0 then .event else .underrun

/-- RING.DRAIN with a completed copy loop, for either answer. -/
theorem exec_ringDrain_copied {s : State} {h : Bool} {m : List Host.Cell}
    (copied : drainFrames s.cfg s.ring s.rptr (s.half h) s.drainCount = .ok m) :
    exec (.ringDrain h) s = .next ((s.drained h m).respond .bus
      (respWord (drainStatus s) (BitVec.ofNat 24 s.drainCount) (BitVec.ofNat 32 s.deficit)) []) := by
  simp only [exec, execRingDrain, copied, reply_eq]
  by_cases short : s.drainCount < s.cfg.halfFrames
  · have lacks : s.deficit ≠ 0 := Nat.sub_ne_zero_of_lt short
    rw [if_pos short, drainStatus, if_neg lacks]
    rfl
  · have lacksNone : s.deficit = 0 := Nat.sub_eq_zero_of_le (not_lt.mp short)
    rw [if_neg short, drainStatus, if_pos lacksNone, State.drained, lacksNone, underrunAfter_zero]
    cases h <;> rfl

/-- A drain that answers has completed its copy loop. -/
theorem exists_copied_of_next {s t : State} {h : Bool} (next : exec (.ringDrain h) s = .next t) :
    ∃ m, drainFrames s.cfg s.ring s.rptr (s.half h) s.drainCount = .ok m := by
  cases loop : drainFrames s.cfg s.ring s.rptr (s.half h) s.drainCount with
  | ok m => exact ⟨m, rfl⟩
  | error e =>
    simp only [exec, execRingDrain, loop] at next
    cases next

section
variable (s : State) (h : Bool) (m : List Host.Cell)

/-- A drain touches the read pointer, the counter and the hardware buffer only. -/
theorem State.drained_eq : s.drained h m =
    { s with
      rptr := (s.drained h m).rptr, underrun := (s.drained h m).underrun
      hwbuf0 := (s.drained h m).hwbuf0, hwbuf1 := (s.drained h m).hwbuf1 } := by
  cases h <;> rfl

theorem State.drained_half_same : (s.drained h m).half h = m := by cases h <;> rfl

theorem State.drained_half_other : (s.drained h m).half (!h) = s.half (!h) := by cases h <;> rfl

theorem State.drained_underrun_toNat :
    (s.drained h m).underrun.toNat = min (2 ^ 32 - 1) (s.underrun.toNat + s.deficit) := underrunAfter_toNat ..

/-- The counter and the answer after a drain: the deficit is counted and answered where there is one. -/
theorem State.drained_counts :
    let t := (s.drained h m).respond .bus
      (respWord (drainStatus s) (BitVec.ofNat 24 s.drainCount) (BitVec.ofNat 32 s.deficit)) []
    if s.deficit = 0 then t.underrun = s.underrun ∧ Responded t .bus 0x01 (BitVec.ofNat 24 s.drainCount) 0
    else t.underrun.toNat = min (2 ^ 32 - 1) (s.underrun.toNat + s.deficit) ∧
      Responded t .bus 0x13 (BitVec.ofNat 24 s.drainCount) (BitVec.ofNat 32 s.deficit) := by
  intro t
  have answer : Responded t .bus _ _ _ := responded_respond ..
  split_ifs with enough
  · rw [drainStatus, if_pos enough, enough] at answer
    refine ⟨?_, answer⟩
    calc t.underrun = underrunAfter s.underrun s.deficit := rfl
      _ = s.underrun := by rw [enough, underrunAfter_zero]
  · rw [drainStatus, if_neg enough] at answer
    exact ⟨State.drained_underrun_toNat s h m, answer⟩

theorem State.drained_ring : (s.drained h m).ring = s.ring := State.setHalf_ring s h m

end

/-- Settles O49: the slots it reads are written, so the copy loop completes; what it fills and leaves is
`drainFrames_ok`, the rest is the state `State.drained`. -/
theorem drainFillsTheHalf : Obligations.DrainFillsTheHalf := by
  intro s h avail n deficit written
  obtain ⟨m, copied⟩ := drainFrames_completes (n := n) (s.half h) written
  obtain ⟨filled, kept⟩ := drainFrames_ok copied
  have frame := congrArg (fun u : State => u.respond .bus
    (respWord (drainStatus s) (BitVec.ofNat 24 n) (BitVec.ofNat 32 deficit)) []) (State.drained_eq s h m)
  refine ⟨encodedAs_ringDrain h, _, exec_ringDrain_copied copied, frame, fun slot => ?ring, rfl, fun j below => ?frames,
    fun offset beyond => ?beyond, fun offset => ?other, ?counter⟩
  case ring => rw [State.respond_ring, State.drained_ring]
  case frames =>
    obtain ⟨f, read, words⟩ := filled j below
    exact ⟨f, read, (State.drained_half_same s h m).symm ▸ words⟩
  case beyond =>
    have untouched : Memory.read ((s.drained h m).half h) offset = Memory.read (s.half h) offset := by
      rw [State.drained_half_same, kept offset beyond]
    exact untouched
  case other => exact congrArg (Memory.read · offset) (State.drained_half_other s h m)
  case counter => exact State.drained_counts s h m

/-! ### The underrun counter (44_ring.md R205) -/

/-- Of all the moves of the pointers only a drain's touches the counter. -/
theorem underrun_eq_of_move {s : State} {i : Instr} {p : Pointers} (move : PointerMove s i p)
    (notDrain : ∀ h, i ≠ .ringDrain h) : p.underrun = s.underrun := by
  cases move with
  | drain h u _ => exact absurd rfl (notDrain h)
  | stay | push | syncw | syncr | syncu => rfl

/-- Settles O51: the moves of the pointers for every operation, and `State.drained` for the amount. -/
theorem onlyDrainMovesTheUnderrunCounter : Obligations.OnlyDrainMovesTheUnderrunCounter := by
  intro i s t next
  have move := (exec_pointers next).2
  refine ⟨underrun_le_of_move move, underrun_eq_of_move move, ?_⟩
  rintro h rfl
  obtain ⟨m, copied⟩ := exists_copied_of_next next
  obtain rfl := Host.Outcome.next.inj ((exec_ringDrain_copied copied).symm.trans next)
  exact State.drained_underrun_toNat s h m

/-! ### The synchronisers (44_ring.md R208 to R210) -/

/-- A pointer handed over as a gray code is read back. -/
theorem ungray_gray_ptrAdd (c : Config) (p n : Nat) : ungray c.ptrWidth (gray (ptrAdd c p n)) = ptrAdd c p n :=
  ungray_gray (by rw [two_pow_ptrWidth]; exact ptrAdd_lt c p n)

/-- An enabled RING.SYNCW is the delivery alone. -/
theorem exec_ringSyncw_enabled {s : State} {adv : Word} (enabled : adv.toNat ≤ s.wLag) :
    exec (.ringSyncw adv) s =
      .next ({ s with wgSync := gray (ptrAdd s.cfg s.wSeen adv.toNat) } : State).quiet :=
  if_pos enabled

/-- An enabled RING.SYNCR is the delivery alone. -/
theorem exec_ringSyncr_enabled {s : State} {adv : Word} (enabled : adv.toNat ≤ s.rLag) :
    exec (.ringSyncr adv) s =
      .next ({ s with rgSync := gray (ptrAdd s.cfg s.rSeen adv.toNat) } : State).quiet :=
  if_pos enabled

/-- What the moved copy holds: the count it held plus `adv`, and by the whole lag the pointer itself. -/
theorem moved_copy (c : Config) {ptr copy : Nat} (adv : Nat) (hp : ptr < 2 * c.ringN) (hc : copy < 2 * c.ringN) :
    let code := gray (ptrAdd c copy adv)
    let moved := ungray c.ptrWidth code
    moved = (copy + adv) % (2 * c.ringN) ∧ code = gray moved ∧ (adv = ptrDist c ptr copy → moved = ptr) := by
  intro code moved
  have held : moved = ptrAdd c copy adv := ungray_gray_ptrAdd c copy adv
  refine ⟨held.trans (ptrAdd_eq c copy adv), congrArg gray held.symm, ?_⟩
  rintro rfl
  exact held.trans (ptrAdd_ptrDist c hp hc)

/-- Settles O54: the copy of the write pointer, by `moved_copy`. -/
theorem syncWriteMovesTheConsumersCopy : Obligations.SyncWriteMovesTheConsumersCopy := by
  intro s adv inRange
  exact ⟨(encodedAs_ringSyncs adv).1, fun enabled => ⟨_, exec_ringSyncw_enabled enabled, rfl,
    ⟨fun _ => rfl, fun _ _ => rfl⟩, moved_copy s.cfg adv.toNat inRange (wSeen_lt s)⟩⟩

/-- Settles O55: the copy of the read pointer, by `moved_copy`. -/
theorem syncReadMovesTheProducersCopy : Obligations.SyncReadMovesTheProducersCopy := by
  intro s adv inRange
  exact ⟨(encodedAs_ringSyncs adv).2, fun enabled => ⟨_, exec_ringSyncr_enabled enabled, rfl,
    ⟨fun _ => rfl, fun _ _ => rfl⟩, moved_copy s.cfg adv.toNat inRange (rSeen_lt s)⟩⟩

/-- Settles O57: the step is the delivery alone. -/
theorem syncUnderrunDeliversTheCounter : Obligations.SyncUnderrunDeliversTheCounter := by
  intro s
  exact ⟨encodedAs_ringSyncu, _, rfl, rfl, fun _ => rfl, fun _ _ => rfl⟩

end Sys2Proof.Machine
end

section
/-! PROOFS. The family of 45_system.md: NOP (R231), the reads and writes of the control registers (R233, R234) and the
millisecond counter (R235). -/

namespace Sys2Proof.Machine

open Sys2Proof.Safety

/-! ### The words of the family (30_encoding.md R72) -/

theorem encodedAs_nop : EncodedAs .nop 0x00 0 0 0 0 := by
  simp only [EncodedAs, decode, opcodeField_opWord, idxField_opWord, immField_opWord, aField_opWord, bField_opWord]
  exact legalWord_ok.mpr ⟨rfl, rfl, rfl, rfl, rfl⟩

theorem encodedAs_csrRd (addr : BitVec 16) : EncodedAs (.csrRd addr) 0x01 0 addr 0 0 := by
  simp only [EncodedAs, decode, opcodeField_opWord, idxField_opWord, immField_opWord, aField_opWord, bField_opWord]
  exact legalWord_ok.mpr ⟨rfl, rfl, rfl, rfl, rfl⟩

theorem encodedAs_csrWr (addr : BitVec 16) (data : Word) : EncodedAs (.csrWr addr data) 0x02 0 addr 0 data := by
  simp only [EncodedAs, decode, opcodeField_opWord, idxField_opWord, immField_opWord, aField_opWord, bField_opWord]
  exact legalWord_ok.mpr ⟨rfl, rfl, rfl, rfl, rfl⟩

theorem encodedAs_msTick : EncodedAs .msTick 0x03 0 0 0 0 := by
  simp only [EncodedAs, decode, opcodeField_opWord, idxField_opWord, immField_opWord, aField_opWord, bField_opWord]
  exact legalWord_ok.mpr ⟨rfl, rfl, rfl, rfl, rfl⟩

/-! ### The control registers (45_system.md R233, R234) -/

/-- A row of the table is a register of the map, read with the row's value: the converse of `csrReads_of_csrPlace`. -/
theorem csrPlace_of_csrReads {s : State} {addr : Nat} {v : Word} (h : CsrReads s addr v) :
    ∃ r, CsrPlace s.cfg addr r ∧ s.readCsr r = v := by
  cases h with
  | id => exact ⟨.id, .id rfl, rfl⟩
  | msCount => exact ⟨.msCount, .msCount rfl, rfl⟩
  | underrun => exact ⟨.underrun, .underrun rfl, rfl⟩
  | keyMask => exact ⟨.keyMask, .keyMask rfl, (BitVec.ofNat_toNat 32 s.keyMask).symm⟩
  | btnCfg b hb => exact ⟨.btnCfg b, .btnCfg b hb rfl, bitIn_eq_bit0 _⟩
  | qeiCfg e he => exact ⟨.qeiCfg e, .qeiCfg e he rfl, bitIn_eq_bit0 _⟩
  | qeiPrev e he => exact ⟨.qeiPrev e, .qeiPrev e he rfl, (BitVec.ofNat_toNat 32 s.qei[e].prev).symm⟩
  | qdecCfg q hq => exact ⟨.qdecCfg q, .qdecCfg q hq rfl, bitPair_eq_bit0 ..⟩
  | qdecVel q hq => exact ⟨.qdecVel q, .qdecVel q hq rfl, (BitVec.ofNat_toNat 32 s.qdec[q].vel).symm⟩
  | delayDur => exact ⟨.env .delayDur, .env _ (by decide) rfl, (BitVec.ofNat_toNat 32 s.env.delayDur).symm⟩
  | attackDur => exact ⟨.env .attackDur, .env _ (by decide) rfl, (BitVec.ofNat_toNat 32 s.env.attackDur).symm⟩
  | attackBend => exact ⟨.env .attackBend, .env _ (by decide) rfl, rfl⟩
  | holdDur => exact ⟨.env .holdDur, .env _ (by decide) rfl, (BitVec.ofNat_toNat 32 s.env.holdDur).symm⟩
  | decayDur => exact ⟨.env .decayDur, .env _ (by decide) rfl, (BitVec.ofNat_toNat 32 s.env.decayDur).symm⟩
  | decayBend => exact ⟨.env .decayBend, .env _ (by decide) rfl, rfl⟩
  | sustainAmp => exact ⟨.env .sustainAmp, .env _ (by decide) rfl, (BitVec.ofNat_toNat 32 s.env.sustainAmp).symm⟩
  | releaseDur => exact ⟨.env .releaseDur, .env _ (by decide) rfl, (BitVec.ofNat_toNat 32 s.env.releaseDur).symm⟩
  | releaseBend => exact ⟨.env .releaseBend, .env _ (by decide) rfl, rfl⟩

/-- Memory reads the same where its three lists stand unchanged. -/
theorem memorySame_of_eq {s t : State} (ring : t.ring = s.ring) (half0 : t.hwbuf0 = s.hwbuf0)
    (half1 : t.hwbuf1 = s.hwbuf1) : MemorySame s t := by
  refine ⟨fun slot => by rw [ring], fun h offset => ?_⟩
  simp only [State.hwByte, State.half, half0, half1]

/-- A register write touches no memory, nor does its response. -/
theorem memorySame_writeCsr (s : State) (data : Word) (r : Csr) (a : Agent) (w : RespWord) (osc : List OscEvent) :
    MemorySame s ((s.writeCsr data r).respond a w osc) := by
  obtain ⟨ring, half0, half1⟩ := s.writeCsr_memory data r
  exact memorySame_of_eq ring half0 half1

/-- Settles O19: a row of the table is a register of the map (`csrPlace_of_csrReads`), and CSR.RD answers its read
value; without a row the address is reserved. -/
theorem csrReadAnswersTheRegister : Obligations.CsrReadAnswersTheRegister := by
  intro s addr
  refine ⟨encodedAs_csrRd addr, fun v row => ?_, answersIllegal_csrRd⟩
  obtain ⟨r, place, rfl⟩ := csrPlace_of_csrReads row
  exact ⟨_, exec_csrRd_of_csrAt (csrAt_of_csrPlace place), rfl, memorySame_respond .., responded_respond ..⟩

/-- Settles O20: a writable row is a writable register of the map (`csrPlace_of_csrWrites`), which CSR.WR writes and
then answers; without a writable row the address is reserved or its register read-only. -/
theorem csrWriteStoresTheLegalValue : Obligations.CsrWriteStoresTheLegalValue := by
  intro s addr data
  refine ⟨encodedAs_csrWr addr data, fun u v row => ?_, answersIllegal_csrWr⟩
  obtain ⟨r, place, writable, rfl, rfl⟩ := csrPlace_of_csrWrites row
  exact ⟨_, exec_csrWr_of_csrAt data (csrAt_of_csrPlace place) writable, rfl, memorySame_writeCsr ..,
    responded_respond ..⟩

/-! ### NOP and the millisecond counter (45_system.md R231, R235) -/

/-- Settles O18: the meaning of NOP is its response alone. -/
theorem nopChangesNothing : Obligations.NopChangesNothing := by
  intro s
  exact ⟨encodedAs_nop, _, rfl, rfl, memorySame_respond .., responded_respond ..⟩

/-- MS.TICK adds one to the counter and responds NONE. -/
theorem exec_msTick (s : State) :
    exec .msTick s =
      .next (({ s with msCount := s.msCount + 1 } : State).respond .ctl (respWord .none 0 0) []) := rfl

/-- Settles O22: the counter is a 32-bit word, whose addition wraps. -/
theorem msTickCountsModulo32Bits : Obligations.MsTickCountsModulo32Bits := by
  intro s
  exact ⟨encodedAs_msTick, _, exec_msTick s, rfl, memorySame_of_eq rfl rfl rfl, BitVec.toNat_add s.msCount 1,
    responded_respond ..⟩

end Sys2Proof.Machine
end

section
/-! PROOFS. The decoder and the encoder (30_encoding.md R70 to R75): each undoes the other, the words accepted are those
of the opcode table, and a step runs the operation its word encodes. -/

namespace Sys2Proof.Machine

open Sys2Proof.Safety

/-! ### Encoding, then decoding (30_encoding.md R72) -/

/-- A button number stands alone in the low four bits of the index field. -/
theorem buttonField_legal : ∀ b : BitVec 4, b.setWidth 8 >>> 4 = 0 ∧ (b.setWidth 8).setWidth 4 = b := by
  decide

theorem encodedAs_btnUpd (b : BitVec 4) (raw : Bool) :
    EncodedAs (.btnUpd b raw) 0x11 (b.setWidth 8) 0 0 (bit0 raw) := by
  obtain ⟨above, named⟩ := buttonField_legal b
  have noMore : bit0 raw >>> 1 = 0 := by cases raw <;> rfl
  have sample : (bit0 raw).getLsbD 0 = raw := by cases raw <;> rfl
  simp only [EncodedAs, decode, opcodeField_opWord, idxField_opWord, immField_opWord, aField_opWord, bField_opWord]
  exact legalWord_ok.mpr ⟨above, rfl, rfl, noMore, by rw [named, sample]⟩

/-- The encoder's word is decoded where it has the fields that are read as the operation. -/
theorem decode_encode_of_encodedAs {i : Instr} {op idx : BitVec 8} {imm : BitVec 16} {a b : Word}
    (read : EncodedAs i op idx imm a b) (word : encode i = opWord op idx imm a b) : decode (encode i) = .ok i :=
  word ▸ read

/-- The encoder's word of the two sampled lines. -/
theorem bitPair_eq_ofNat (clk dt : Bool) :
    (BitVec.ofBool clk ++ BitVec.ofBool dt).setWidth 32 = BitVec.ofNat 32 (2 * clk.toNat + dt.toNat) := by
  cases clk <;> cases dt <;> rfl

theorem bitIn_eq_ite (h : Bool) : bitIn 8 h = if h then 1 else 0 := by
  cases h <;> rfl

/-- Settles O3: each operation's word has the fields its family reads it from; the encoder writes the one-bit and
16-bit operands in another form than the families do. -/
theorem decodeOfEncodeGivesTheOperation : Obligations.DecodeOfEncodeGivesTheOperation := by
  intro i
  cases i with
  | nop => exact encodedAs_nop
  | csrRd addr => exact encodedAs_csrRd addr
  | csrWr addr data => exact encodedAs_csrWr addr data
  | msTick => exact encodedAs_msTick
  | debUpd lane raw => exact decode_encode_of_encodedAs (encodedAs_debUpd lane raw) (by rw [← bitIn_eq_bit0]; rfl)
  | btnUpd b raw => exact decode_encode_of_encodedAs (encodedAs_btnUpd b raw) (by rw [← bitIn_eq_bit0]; rfl)
  | keyScan raw16 => exact encodedAs_keyScan raw16
  | maskDiff old new =>
    exact decode_encode_of_encodedAs (encodedAs_maskDiff old new) (by simp only [BitVec.ofNat_toNat]; rfl)
  | qeiTick e count => exact encodedAs_qeiTick e count
  | qdecSmp q clk dt =>
    exact decode_encode_of_encodedAs (encodedAs_qdecSmp q clk dt) (by rw [← bitPair_eq_ofNat]; rfl)
  | qdecTick q => exact encodedAs_qdecTick q
  | envCurve x bend => exact encodedAs_envCurve x bend
  | envShape stage x => exact encodedAs_envShape stage x
  | envEdur stage offset vel => exact (encodedAs_envEdits stage offset vel).1
  | envEamp stage offset vel => exact (encodedAs_envEdits stage offset vel).2.1
  | envEbend stage offset vel => exact (encodedAs_envEdits stage offset vel).2.2
  | synNoteon note => exact (encodedAs_synNotes note).1
  | synNoteoff note => exact (encodedAs_synNotes note).2
  | synTick => exact encodedAs_synTick
  | ringPush l r => exact encodedAs_ringPush l r
  | ringDrain h => exact decode_encode_of_encodedAs (encodedAs_ringDrain h) (by rw [← bitIn_eq_ite]; rfl)
  | ringSyncw adv => exact (encodedAs_ringSyncs adv).1
  | ringSyncr adv => exact (encodedAs_ringSyncs adv).2
  | ringSyncu => exact encodedAs_ringSyncu

/-! ### Decoding, then encoding (30_encoding.md R75) -/

/-- A field with no bit above the low `k` is what its low `k` bits extend to. -/
theorem setWidth_setWidth_of_shiftRight {n : Nat} {x : BitVec n} {k : Nat} (above : x >>> k = 0) :
    (x.setWidth k).setWidth n = x := by
  have small : x.toNat / 2 ^ k = 0 := by
    rw [← Nat.shiftRight_eq_div_pow, ← BitVec.toNat_ushiftRight, above]
    simp
  apply BitVec.eq_of_toNat_eq
  have := x.isLt
  rw [BitVec.toNat_setWidth, BitVec.toNat_setWidth, Nat.mod_eq_of_lt (Nat.lt_of_div_eq_zero (Nat.two_pow_pos k) small),
    Nat.mod_eq_of_lt x.isLt]

/-- A field with no bit above its lowest is that bit. -/
theorem bitIn_of_shiftRight {n : Nat} {x : BitVec n} (above : x >>> 1 = 0) : bitIn n (x.getLsbD 0) = x := by
  have low : BitVec.ofBool (x.getLsbD 0) = x.setWidth 1 := by
    apply BitVec.eq_of_getLsbD_eq
    intro i hi
    obtain rfl : i = 0 := by omega
    simp
  rw [bitIn, low, setWidth_setWidth_of_shiftRight above]

/-- A field with no bit above its lowest two is those two bits. -/
theorem bitPair_of_shiftRight {n : Nat} {x : BitVec n} (above : x >>> 2 = 0) :
    (BitVec.ofBool (x.getLsbD 1) ++ BitVec.ofBool (x.getLsbD 0)).setWidth n = x := by
  have low : BitVec.ofBool (x.getLsbD 1) ++ BitVec.ofBool (x.getLsbD 0) = x.setWidth 2 := by
    apply BitVec.eq_of_getLsbD_eq
    intro i hi
    obtain rfl | rfl : i = 0 ∨ i = 1 := by omega
    · rw [BitVec.getLsbD_append]
      simp
    · rw [BitVec.getLsbD_append]
      simp
  rw [low, setWidth_setWidth_of_shiftRight above]

/-- A word is known by its fields. -/
theorem opWord_eq_of_fields {w : OpWord} {op : Nat} {idx : BitVec 8} {imm : BitVec 16} {a b : Word}
    (hop : (opcodeField w).toNat = op) (hidx : idx = idxField w) (himm : imm = immField w) (ha : a = aField w)
    (hb : b = bField w) : opWord (BitVec.ofNat 8 op) idx imm a b = w := by
  rw [hidx, himm, ha, hb, ← hop, BitVec.ofNat_toNat, BitVec.setWidth_eq, opWord_fields]

/-- Settles O4: in each row of the decoder the must-be-zero parts leave the word no other fields than those the encoder
writes. -/
theorem encodeOfDecodeGivesTheWord : Obligations.EncodeOfDecodeGivesTheWord := by
  intro w i h
  unfold decode at h
  dsimp only at h
  split at h
  case h_25 => cases h
  all_goals
    rename_i opcode
    obtain ⟨idx, imm, a, b, rfl⟩ := legalWord_ok.mp h
  -- no operand
  case h_1 | h_4 | h_19 | h_24 => exact opWord_eq_of_fields opcode idx.symm imm.symm a.symm b.symm
  -- the immediate, alone, with B, with a decoder number
  case h_2 | h_7 => exact opWord_eq_of_fields opcode idx.symm rfl a.symm b.symm
  case h_3 => exact opWord_eq_of_fields opcode idx.symm rfl a.symm rfl
  case h_9 => exact opWord_eq_of_fields opcode (setWidth_setWidth_of_shiftRight idx) rfl a.symm b.symm
  -- an index and sampled lines
  case h_5 | h_6 =>
    exact opWord_eq_of_fields opcode (setWidth_setWidth_of_shiftRight idx) imm.symm a.symm (bitIn_of_shiftRight b)
  case h_10 =>
    exact opWord_eq_of_fields opcode (setWidth_setWidth_of_shiftRight idx) imm.symm a.symm (bitPair_of_shiftRight b)
  -- two masks
  case h_8 =>
    exact opWord_eq_of_fields opcode idx.symm imm.symm (setWidth_setWidth_of_shiftRight a)
      (setWidth_setWidth_of_shiftRight b)
  -- an index alone
  case h_11 | h_17 | h_18 =>
    exact opWord_eq_of_fields opcode (setWidth_setWidth_of_shiftRight idx) imm.symm a.symm b.symm
  case h_21 => exact opWord_eq_of_fields opcode (bitIn_of_shiftRight idx) imm.symm a.symm b.symm
  -- the words A and B, with and without a stage
  case h_12 | h_20 => exact opWord_eq_of_fields opcode idx.symm imm.symm rfl rfl
  case h_13 => exact opWord_eq_of_fields opcode (setWidth_setWidth_of_shiftRight idx) imm.symm rfl b.symm
  case h_14 | h_15 | h_16 =>
    exact opWord_eq_of_fields opcode (setWidth_setWidth_of_shiftRight idx) imm.symm rfl rfl
  case h_22 | h_23 => exact opWord_eq_of_fields opcode idx.symm imm.symm a.symm rfl

/-! ### The opcode table (30_encoding.md R72) -/

/-- How many low bits of each field an operation uses. -/
structure UsedBits where
  idx : Nat
  imm : Nat
  a : Nat
  b : Nat

/-- The bits of the fields that the rows of 30_encoding.md R72 use, by opcode. -/
def usedBits : Nat → Option UsedBits
  | 0x00 => some ⟨0, 0, 0, 0⟩
  | 0x01 => some ⟨0, 16, 0, 0⟩
  | 0x02 => some ⟨0, 16, 0, 32⟩
  | 0x03 => some ⟨0, 0, 0, 0⟩
  | 0x10 => some ⟨5, 0, 0, 1⟩
  | 0x11 => some ⟨4, 0, 0, 1⟩
  | 0x12 => some ⟨0, 16, 0, 0⟩
  | 0x13 => some ⟨0, 0, 16, 16⟩
  | 0x20 => some ⟨3, 16, 0, 0⟩
  | 0x21 => some ⟨3, 0, 0, 2⟩
  | 0x22 => some ⟨3, 0, 0, 0⟩
  | 0x30 => some ⟨0, 0, 32, 32⟩
  | 0x31 => some ⟨3, 0, 32, 0⟩
  | 0x32 => some ⟨3, 0, 32, 32⟩
  | 0x33 => some ⟨3, 0, 32, 32⟩
  | 0x34 => some ⟨3, 0, 32, 32⟩
  | 0x40 => some ⟨7, 0, 0, 0⟩
  | 0x41 => some ⟨7, 0, 0, 0⟩
  | 0x42 => some ⟨0, 0, 0, 0⟩
  | 0x50 => some ⟨0, 0, 32, 32⟩
  | 0x51 => some ⟨1, 0, 0, 0⟩
  | 0x58 => some ⟨0, 0, 0, 32⟩
  | 0x59 => some ⟨0, 0, 0, 32⟩
  | 0x5A => some ⟨0, 0, 0, 0⟩
  | _ => none

/-- No bit of the word is set above the used bits of its fields (30_encoding.md R75). -/
structure WithinUsed (w : OpWord) (u : UsedBits) : Prop where
  idx : idxField w >>> u.idx = 0
  imm : immField w >>> u.imm = 0
  a : aField w >>> u.a = 0
  b : bField w >>> u.b = 0

theorem withinUsed_iff {w : OpWord} {u : UsedBits} :
    WithinUsed w u ↔
      idxField w >>> u.idx = 0 ∧ immField w >>> u.imm = 0 ∧ aField w >>> u.a = 0 ∧ bField w >>> u.b = 0 :=
  ⟨fun ⟨idx, imm, a, b⟩ => ⟨idx, imm, a, b⟩, fun ⟨idx, imm, a, b⟩ => ⟨idx, imm, a, b⟩⟩

theorem shiftRight_width {n : Nat} (x : BitVec n) : x >>> n = 0 := by
  apply BitVec.eq_of_toNat_eq
  simp [Nat.shiftRight_eq_div_pow, Nat.div_eq_of_lt x.isLt]

/-- The decoder accepts a word exactly where its opcode has a row and no unused bit is set. -/
theorem decode_accepts_iff (w : OpWord) :
    (∃ i, decode w = .ok i) ↔ ∃ u, usedBits (opcodeField w).toNat = some u ∧ WithinUsed w u := by
  unfold decode
  dsimp only
  generalize (opcodeField w).toNat = op
  split
  case h_25 op unassigned => simp [usedBits]
  all_goals simp [usedBits, legalWord_ok, withinUsed_iff, shiftRight_width]

/-- The mask of a row: the opcode and the bits that are not used. -/
def UsedBits.mask (u : UsedBits) : OpWord :=
  opWord (BitVec.allOnes 8) (BitVec.allOnes 8 <<< u.idx) (BitVec.allOnes 16 <<< u.imm) (BitVec.allOnes 32 <<< u.a)
    (BitVec.allOnes 32 <<< u.b)

/-- The rows of the opcode table, in the order of their opcodes, are those of `usedBits`. -/
theorem opRows_eq_usedBits :
    opRows.map (fun r => (r.mask, r.pattern)) =
      (List.range 256).filterMap fun op =>
        (usedBits op).map fun u => (u.mask, opWord (BitVec.ofNat 8 op) 0 0 0 0) := by
  decide

/-- The bits above the low `k` are zero exactly where the mask of those bits leaves nothing. -/
theorem and_allOnes_shiftLeft_eq_zero {n : Nat} (x : BitVec n) (k : Nat) :
    x &&& (BitVec.allOnes n <<< k) = 0 ↔ x >>> k = 0 := by
  constructor
  · intro masked
    apply BitVec.eq_of_getLsbD_eq
    intro i hi
    have bit := congrArg (fun y => BitVec.getLsbD y (k + i)) masked
    by_cases inside : k + i < n
    · simpa [inside, show i < n by omega] using bit
    · simp [BitVec.getLsbD_of_ge x (k + i) (by omega)]
  · intro above
    apply BitVec.eq_of_getLsbD_eq
    intro i hi
    rcases Nat.lt_or_ge i k with low | high
    · simp [low]
    · have bit := congrArg (fun y => BitVec.getLsbD y (i - k)) above
      have clear : x.getLsbD i = false := by simpa [Nat.add_sub_cancel' high] using bit
      simp [clear]

/-- The fields of a conjunction of words. -/
theorem fields_and (w v : OpWord) :
    opcodeField (w &&& v) = opcodeField w &&& opcodeField v ∧ idxField (w &&& v) = idxField w &&& idxField v ∧
    immField (w &&& v) = immField w &&& immField v ∧ aField (w &&& v) = aField w &&& aField v ∧
    bField (w &&& v) = bField w &&& bField v := by
  simp only [opcodeField, idxField, immField, aField, bField, BitVec.extractLsb'_and, and_self]

/-- Two words are equal where their fields are. -/
theorem opWord_eq_iff {w : OpWord} {op idx : BitVec 8} {imm : BitVec 16} {a b : Word} :
    w = opWord op idx imm a b ↔
      opcodeField w = op ∧ idxField w = idx ∧ immField w = imm ∧ aField w = a ∧ bField w = b := by
  constructor
  · rintro rfl
    simp
  · rintro ⟨rfl, rfl, rfl, rfl, rfl⟩
    exact (opWord_fields w).symm

/-- A word matches a row exactly where it has the row's opcode and no unused bit is set. -/
theorem matches_row_iff (w : OpWord) (op : BitVec 8) (u : UsedBits) :
    w &&& u.mask = opWord op 0 0 0 0 ↔ opcodeField w = op ∧ WithinUsed w u := by
  obtain ⟨hop, hidx, himm, ha, hb⟩ := fields_and w u.mask
  rw [opWord_eq_iff, hop, hidx, himm, ha, hb]
  simp only [UsedBits.mask, opcodeField_opWord, idxField_opWord, immField_opWord, aField_opWord, bField_opWord,
    BitVec.and_allOnes, and_allOnes_shiftLeft_eq_zero, withinUsed_iff]

/-- Settles O5: both sides say that the opcode has a row and that no bit outside the used ones is set. -/
theorem decodeAcceptsExactlyTheTableRows : Obligations.DecodeAcceptsExactlyTheTableRows := by
  intro w
  rw [decode_accepts_iff]
  have rows : (∃ r ∈ opRows, w &&& r.mask = r.pattern) ↔
      ∃ row ∈ opRows.map (fun r => (r.mask, r.pattern)), w &&& row.1 = row.2 := by simp
  rw [rows, opRows_eq_usedBits]
  simp only [List.mem_filterMap, List.mem_range, Option.map_eq_some_iff]
  constructor
  · rintro ⟨u, row, within⟩
    refine ⟨_, ⟨_, (opcodeField w).isLt, u, row, rfl⟩, (matches_row_iff ..).mpr ⟨?_, within⟩⟩
    rw [BitVec.ofNat_toNat, BitVec.setWidth_eq]
  · rintro ⟨_, ⟨op, below, u, row, rfl⟩, matched⟩
    obtain ⟨opcode, within⟩ := (matches_row_iff ..).mp matched
    refine ⟨u, ?_, within⟩
    rwa [opcode, BitVec.toNat_ofNat, Nat.mod_eq_of_lt below]

/-- Settles O6: the decoder run on each of the six words. -/
theorem writtenOutWordsDecode : Obligations.WrittenOutWordsDecode :=
  ⟨by decide, by decide, by decide, by decide, by decide, by decide⟩

/-! ### The step (10_state.md R11) -/

/-- The agent that presents an operation's word is the operation's own. -/
theorem homeAgent_encode (i : Instr) : homeAgent (encode i) = i.agent := by
  cases i with
  | nop => exact Laws.EncodeHead.nop.2
  | csrRd addr => exact (Laws.EncodeHead.csrRd addr).2
  | csrWr addr data => exact (Laws.EncodeHead.csrWr addr data).2
  | msTick => exact Laws.EncodeHead.msTick.2
  | debUpd lane raw => exact (Laws.EncodeHead.debUpd lane raw).2
  | btnUpd b raw => exact (Laws.EncodeHead.btnUpd b raw).2
  | keyScan raw16 => exact (Laws.EncodeHead.keyScan raw16).2
  | maskDiff old new => exact (Laws.EncodeHead.maskDiff old new).2
  | qeiTick e count => exact (Laws.EncodeHead.qeiTick e count).2
  | qdecSmp q clk dt => exact (Laws.EncodeHead.qdecSmp q clk dt).2
  | qdecTick q => exact (Laws.EncodeHead.qdecTick q).2
  | envCurve x bend => exact (Laws.EncodeHead.envCurve x bend).2
  | envShape stage x => exact (Laws.EncodeHead.envShape stage x).2
  | envEdur stage offset vel => exact (Laws.EncodeHead.envEdur stage offset vel).2
  | envEamp stage offset vel => exact (Laws.EncodeHead.envEamp stage offset vel).2
  | envEbend stage offset vel => exact (Laws.EncodeHead.envEbend stage offset vel).2
  | synNoteon note => exact (Laws.EncodeHead.synNoteon note).2
  | synNoteoff note => exact (Laws.EncodeHead.synNoteoff note).2
  | synTick => exact Laws.EncodeHead.synTick.2
  | ringPush l r => exact (Laws.EncodeHead.ringPush l r).2
  | ringDrain h => exact (Laws.EncodeHead.ringDrain h).2
  | ringSyncw adv => exact (Laws.EncodeHead.ringSyncw adv).2
  | ringSyncr adv => exact (Laws.EncodeHead.ringSyncr adv).2
  | ringSyncu => exact Laws.EncodeHead.ringSyncu.2

/-- The host's numbering gives back the encoder's word (log 9). -/
theorem tableWord_toNat (w : OpWord) : tableWord 96 w.toNat = w := by
  rw [tableWord, Nat.mod_eq_of_lt w.isLt, BitVec.ofNat_toNat, BitVec.setWidth_eq]

/-- A step serves the word of an operation presented by its own agent. -/
theorem step_of_decoded {s : State} {w : OpWord} {rest : List Input} {i : Instr}
    (waiting : s.pending = .request i.agent w :: rest) (decodes : decode w = .ok i) :
    step s = exec i { s with pending := rest } := by
  have service : s.service = .run i := by
    simp only [State.service, waiting, accept_eq_some.mpr ⟨decodes, rfl⟩]
  simp only [step, service, State.taken, waiting, List.tail_cons]

/-- Settles O7: the word that `withFetchWord` places is the operation's own, at the head of the inputs. -/
theorem stepRunsTheDecodedOperation : Obligations.StepRunsTheDecodedOperation := by
  refine ⟨fun s w rest i => step_of_decoded, fun s i => ?_⟩
  have waiting : (s.withFetchWord 96 (encode i).toNat).pending = .request i.agent (encode i) :: s.pending := by
    rw [State.withFetchWord, tableWord_toNat, State.present_pending, homeAgent_encode]
  exact step_of_decoded waiting (decodeOfEncodeGivesTheOperation i)

end Sys2Proof.Machine
end

section
/-! PROOFS. What one operation can do (10_state.md R10, R11): the CTL operations stay within the CTL domain and the
underrun shadow (60_exceptions.md R243) and keep its ranges, each other operation writes its own agent's part; and the
one stop of the model (log 6). -/

namespace Sys2Proof.Machine

open Sys2Proof.Safety

/-! ### The ranges of the CTL domain (10_state.md R37 (a), R13, R16, R18) -/

/-- A lane of depth `k`: its register fits, and a register of equal samples has confirmed their level. -/
structure LaneOk (k : Nat) (l : Lane) : Prop where
  width : l.sr < 2 ^ k
  high : l.sr = 2 ^ k - 1 → l.conf = true
  low : l.sr = 0 → l.conf = false

/-- The ranges of the envelope registers. -/
structure EnvOk (e : Env) : Prop where
  durations : e.delayDur.toNat ≤ 10000 ∧ e.attackDur.toNat ≤ 10000 ∧ e.holdDur.toNat ≤ 10000 ∧
    e.decayDur.toNat ≤ 10000 ∧ e.releaseDur.toNat ≤ 10000
  bends : e.attackBend.toInt.natAbs ≤ 65536 ∧ e.decayBend.toInt.natAbs ≤ 65536 ∧ e.releaseBend.toInt.natAbs ≤ 65536
  amplitude : e.sustainAmp.toNat ≤ 65536

/-- The part of `Invariants` that speaks of the CTL domain. -/
structure CtlOk (s : State) : Prop where
  cfg : s.cfg.Legal
  lanes : ∀ lane : Fin 32, LaneOk s.cfg.debK[lane] s.lanes[lane]
  qdec : ∀ q : Fin 8, s.qdec[q].vel.toNat ≤ 65536
  env : EnvOk s.env

/-- The ranges speak of four elements only. -/
theorem CtlOk.congr {s t : State} (ok : CtlOk s) (cfg : t.cfg = s.cfg) (lanes : t.lanes = s.lanes)
    (qdec : t.qdec = s.qdec) (env : t.env = s.env) : CtlOk t :=
  ⟨cfg ▸ ok.cfg, by rw [cfg, lanes]; exact ok.lanes, by rw [qdec]; exact ok.qdec, by rw [env]; exact ok.env⟩

theorem CtlOk.respond {s : State} (ok : CtlOk s) (a : Agent) (w : RespWord) (osc : List OscEvent) :
    CtlOk (s.respond a w osc) := ok.congr rfl rfl rfl rfl

/-- A slot of a bank of which one slot was written. -/
theorem getElem_set_slot {α : Type} {n : Nat} (bank : Vector α n) (i j : Fin n) (x : α) :
    (bank.set i x)[j] = if i = j then x else bank[j] := by
  simp only [Fin.getElem_fin, Vector.getElem_set, Fin.ext_iff]

/-! #### Lanes -/

/-- One sample makes any lane one that meets the condition (10_state.md R37 (a)). -/
theorem laneOk_laneSample {k : Nat} (depth : 1 ≤ k) (l : Lane) (raw : Bool) : LaneOk k (laneSample k l raw).1 := by
  have width := laneSample_sr_lt k l raw
  have some_bit : 2 ≤ 2 ^ k := Nat.pow_le_pow_right (n := 2) (by decide) depth
  obtain ⟨sr, after, ones, -⟩ | ⟨sr, after, zeros, -⟩ | ⟨sr, after, notRise, notFall⟩ := laneSample_cases k l raw
  · rw [after] at width ⊢
    exact ⟨width, fun _ => rfl, fun zero => absurd (ones.symm.trans zero) (by omega)⟩
  · rw [after] at width ⊢
    exact ⟨width, fun one => absurd (zeros.symm.trans one) (by omega), fun _ => rfl⟩
  · rw [after] at width ⊢
    exact ⟨width, fun one => by simpa using fun low => notRise ⟨one, low⟩,
      fun zero => by simpa using fun high => notFall ⟨zero, high⟩⟩

theorem CtlOk.depth {s : State} (ok : CtlOk s) (lane : Fin 32) : 1 ≤ s.cfg.debK[lane] :=
  le_of_lt (ok.cfg.debK lane).1

theorem CtlOk.sampleLane {s : State} (ok : CtlOk s) (lane : Fin 32) (raw : Bool) : CtlOk (s.sampleLane lane raw) where
  cfg := ok.cfg
  qdec := ok.qdec
  env := ok.env
  lanes l := by
    rw [State.sampleLane_lanes, getElem_set_slot]
    split_ifs with same
    · exact same ▸ laneOk_laneSample (ok.depth lane) s.lanes[lane] raw
    · exact ok.lanes l

theorem CtlOk.scanLanes {s : State} (ok : CtlOk s) (raw16 : BitVec 16) : CtlOk (s.scanLanes raw16) where
  cfg := ok.cfg
  qdec := ok.qdec
  env := ok.env
  lanes l := by
    have lane : (s.scanLanes raw16).lanes[l] =
        if l.val < 16 then (laneSample s.cfg.debK[l] s.lanes[l] (raw16.getLsbD l)).1 else s.lanes[l] :=
      s.scanLanes_getElem raw16 l l.isLt
    rw [lane]
    split_ifs
    · exact laneOk_laneSample (ok.depth l) ..
    · exact ok.lanes l

/-! #### Decoders -/

theorem refreshed_vel_le (c : Config) (ms : Word) (d : Qdec) : (refreshed c ms d).vel.toNat ≤ d.vel.toNat := by
  unfold refreshed
  split
  · exact decayed_vel_le c ms d
  · exact le_rfl

/-- A counted transition does not raise the velocity above 65536 (41_rotary.md R125). -/
theorem turned_vel_le {c : Config} {cw : Bool} {d : Qdec} (ok : d.vel.toNat ≤ 65536) :
    (turned c cw d).vel.toNat ≤ 65536 := by
  rw [turned_vel_toNat]
  split
  · exact Nat.min_le_left ..
  · exact ok

theorem qdecSampled_vel_le {c : Config} {ms : Word} {d : Qdec} {new : BitVec 2} (ok : d.vel.toNat ≤ 65536) :
    (qdecSampled c ms d new).1.vel.toNat ≤ 65536 := by
  have loadedOk : (loaded (refreshed c ms d) new).vel.toNat ≤ 65536 := (refreshed_vel_le c ms d).trans ok
  rw [qdecSampled_eq]
  split_ifs
  · exact loadedOk
  · exact loadedOk
  · exact turned_vel_le loadedOk
  · exact turned_vel_le loadedOk

theorem qdecTicked_vel_le {c : Config} {ms : Word} {d : Qdec} (ok : d.vel.toNat ≤ 65536) :
    (qdecTicked c ms d).1.vel.toNat ≤ 65536 := by
  by_cases standard : d.acc = false
  · rw [qdecTicked_standard c ms standard]
    exact ok
  · have decayedOk := (decayed_vel_le c ms d).trans ok
    rw [qdecTicked_accelerated c ms standard]
    split_ifs <;> exact decayedOk

theorem CtlOk.setQdec {s : State} (ok : CtlOk s) (q : Fin 8) {d : Qdec} (dOk : d.vel.toNat ≤ 65536) :
    CtlOk { s with qdec := s.qdec.set q d } where
  cfg := ok.cfg
  lanes := ok.lanes
  env := ok.env
  qdec r := by
    rw [getElem_set_slot]
    split_ifs
    · exact dOk
    · exact ok.qdec r

/-! #### The envelope -/

theorem dur_le {x : Int} (range : 0 ≤ x ∧ x ≤ 10000) : (BitVec.ofInt 14 x).toNat ≤ 10000 := by
  have := toNat_ofInt_dur range.1 range.2
  omega

theorem amp_le {x : Int} (range : 0 ≤ x ∧ x ≤ 65536) : (BitVec.ofInt 17 x).toNat ≤ 65536 := by
  have := toNat_ofInt_amp range.1 range.2
  omega

theorem bend_le {x : Int} (range : -65536 ≤ x ∧ x ≤ 65536) : (BitVec.ofInt 18 x).toInt.natAbs ≤ 65536 := by
  rw [toInt_ofInt_bend range.1 range.2]
  omega

theorem EnvOk.setDur {e : Env} (ok : EnvOk e) {v : BitVec 14} (vOk : v.toNat ≤ 10000) (st : Stage) :
    EnvOk (envSetDur e v st) := by
  obtain ⟨⟨delay, attack, hold, decay, release⟩, bends, amplitude⟩ := ok
  cases st with
  | delay => exact ⟨⟨vOk, attack, hold, decay, release⟩, bends, amplitude⟩
  | attack => exact ⟨⟨delay, vOk, hold, decay, release⟩, bends, amplitude⟩
  | hold => exact ⟨⟨delay, attack, vOk, decay, release⟩, bends, amplitude⟩
  | decay => exact ⟨⟨delay, attack, hold, vOk, release⟩, bends, amplitude⟩
  | sustain => exact ⟨⟨delay, attack, hold, decay, release⟩, bends, amplitude⟩
  | release => exact ⟨⟨delay, attack, hold, decay, vOk⟩, bends, amplitude⟩

theorem EnvOk.setBend {e : Env} (ok : EnvOk e) {v : BitVec 18} (vOk : v.toInt.natAbs ≤ 65536) (st : Stage) :
    EnvOk (envSetBend e v st) := by
  obtain ⟨durations, ⟨attack, decay, release⟩, amplitude⟩ := ok
  cases st with
  | attack => exact ⟨durations, ⟨vOk, decay, release⟩, amplitude⟩
  | decay => exact ⟨durations, ⟨attack, vOk, release⟩, amplitude⟩
  | release => exact ⟨durations, ⟨attack, decay, vOk⟩, amplitude⟩
  | delay | hold | sustain => exact ⟨durations, ⟨attack, decay, release⟩, amplitude⟩

theorem EnvOk.setAmp {e : Env} (ok : EnvOk e) {v : BitVec 17} (vOk : v.toNat ≤ 65536) :
    EnvOk { e with sustainAmp := v } := ⟨ok.durations, ok.bends, vOk⟩

/-- A register write clamps its data into the register's range (10_state.md R33): it is an edit of the stage's field. -/
theorem EnvOk.write {e : Env} (ok : EnvOk e) (data : Word) (r : EnvReg) : EnvOk (envWrite e data r) := by
  have dur : (durStored data).toNat ≤ 10000 := dur_le (clamp_range data.toInt (by decide))
  have bend : (bendStored data).toInt.natAbs ≤ 65536 := bend_le (clamp_range data.toInt (by decide))
  cases r with
  | delayDur => exact ok.setDur dur .delay
  | attackDur => exact ok.setDur dur .attack
  | attackBend => exact ok.setBend bend .attack
  | holdDur => exact ok.setDur dur .hold
  | decayDur => exact ok.setDur dur .decay
  | decayBend => exact ok.setBend bend .decay
  | sustainAmp => exact ok.setAmp (amp_le (clamp_range data.toInt (by decide)))
  | releaseDur => exact ok.setDur dur .release
  | releaseBend => exact ok.setBend bend .release

theorem CtlOk.setEnv {s : State} (ok : CtlOk s) {e : Env} (eOk : EnvOk e) : CtlOk { s with env := e } :=
  ⟨ok.cfg, ok.lanes, ok.qdec, eOk⟩

theorem CtlOk.writeCsr {s : State} (ok : CtlOk s) (data : Word) (r : Csr) : CtlOk (s.writeCsr data r) := by
  cases r with
  | qdecCfg q => exact ok.setQdec q (ok.qdec q)
  | env r => exact ok.setEnv (ok.env.write data r)
  | id | msCount | underrun | keyMask | qdecVel => exact ok
  | btnCfg | qeiCfg | qeiPrev => exact ok.congr rfl rfl rfl rfl

/-! ### A CTL operation stays within its domain (60_exceptions.md R243) -/

/-- The CTL domain and the underrun shadow of `s`, with everything else as in `o`. -/
def State.onto (s o : State) : State :=
  { o with
    cfg := s.cfg, lanes := s.lanes, keyMask := s.keyMask, btnPull := s.btnPull, qei := s.qei, qdec := s.qdec
    msCount := s.msCount, env := s.env, urShadow := s.urShadow }

/-- `s` with the registers that CTL operations write, and the output, as in `t`. -/
def State.withCtl (s t : State) : State :=
  { s with
    lanes := t.lanes, keyMask := t.keyMask, btnPull := t.btnPull, qei := t.qei, qdec := t.qdec
    msCount := t.msCount, env := t.env, out := t.out }

theorem State.onto_writeCsr (s o : State) (data : Word) (r : Csr) (w : RespWord) :
    ((s.onto o).writeCsr data r).respond .ctl w [] =
      (s.onto o).withCtl ((s.writeCsr data r).respond .ctl w []) := by
  cases r <;> rfl

theorem State.onto_readCsr_writeCsr (s o : State) (data : Word) (r : Csr) :
    ((s.onto o).writeCsr data r).readCsr r = (s.writeCsr data r).readCsr r := by
  cases r <;> rfl

theorem State.onto_readCsr (s o : State) (r : Csr) : (s.onto o).readCsr r = s.readCsr r := by
  cases r <;> rfl

/-- A CTL operation answers `t` from `s`; whatever surrounds the CTL domain, it answers the same and leaves the
surroundings alone; and it keeps the ranges of its domain. -/
structure CtlStep (i : Instr) (s t : State) : Prop where
  next : exec i s = .next t
  anywhere : ∀ o, exec i (s.onto o) = .next ((s.onto o).withCtl t)
  ranges : CtlOk s → CtlOk t

/-- What a CTL operation leaves alone. -/
theorem CtlStep.frame {i : Instr} {s t : State} (h : CtlStep i s t) : t = s.withCtl t :=
  Host.Outcome.next.inj (h.next.symm.trans (h.anywhere s))

/-- What does not look at the CTL registers is the same after a CTL operation. -/
theorem CtlStep.outside {α : Type} {i : Instr} {s t : State} (h : CtlStep i s t) (f : State → α)
    (blind : f (s.withCtl t) = f s) : f t = f s :=
  (congrArg f h.frame).trans blind

/-- A CTL operation that only responds. -/
theorem ctlStep_of_reply {i : Instr} {s : State} {st : Status} {aux : BitVec 24} {v : Word}
    (here : exec i s = reply .ctl st aux v s) (there : ∀ o, exec i (s.onto o) = reply .ctl st aux v (s.onto o)) :
    ∃ t, CtlStep i s t := ⟨_, here, there, fun ok => ok.respond ..⟩

section
variable {s : State} {stage : BitVec 3}

theorem exec_csrRd_reserved {addr : BitVec 16} (h : csrAt s.cfg addr = none) :
    exec (.csrRd addr) s = replyIllegal .ctl s := by
  simp only [exec, execCsrRd, h]

theorem exec_csrWr_reserved {addr : BitVec 16} {data : Word} (h : csrAt s.cfg addr = none) :
    exec (.csrWr addr data) s = replyIllegal .ctl s := by
  simp only [exec, execCsrWr, h]

theorem exec_csrWr_readOnly {addr : BitVec 16} {data : Word} {r : Csr} (h : csrAt s.cfg addr = some r)
    (readOnly : r.readOnly = true) : exec (.csrWr addr data) s = replyIllegal .ctl s := by
  simp only [exec, execCsrWr, h, readOnly, if_true]

/-- The response of BTN.UPD to the edge a sample confirms (40_debounce.md R104). -/
def buttonWord (pull : Bool) : Option Edge → RespWord
  | none => respWord .none 0 0
  | some edge => respWord .event (buttonCode pull edge) 0

/-- BTN.UPD of a button that exists samples its lane and names the edge. -/
theorem exec_btnUpd {b : BitVec 4} (raw : Bool) (present : b.toNat < s.cfg.numBtn) :
    exec (.btnUpd b raw) s = .next ((s.sampleLane (buttonLane b) raw).respond .ctl
      (buttonWord s.btnPull[buttonIdx b] (s.laneEdge (buttonLane b) raw)) []) := by
  cases edge : s.laneEdge (buttonLane b) raw <;>
    simp only [exec, execBtnUpd, if_pos present, edge, reply_eq, buttonWord]

/-- Sustain is stage 4. -/
theorem eq_four_of_sustain : ∀ {stage : BitVec 3}, stageOf stage = some .sustain → stage = 4 := by
  decide

/-- ENV.EDUR of a stage without a duration (42_envelope.md R160). -/
theorem exec_envEdur_absent {st : Stage} {offset vel : Word} (found : stageOf stage = some st)
    (held : envDur s.env st = none) : exec (.envEdur stage offset vel) s = reply .ctl .none 0 0 s := by
  simp only [exec, execEnvEdur, found, held]

/-- ENV.EAMP of a stage other than Sustain (42_envelope.md R160). -/
theorem exec_envEamp_absent {st : Stage} {offset vel : Word} (found : stageOf stage = some st)
    (other : st ≠ .sustain) : exec (.envEamp stage offset vel) s = reply .ctl .none 0 0 s := by
  simp only [exec, execEnvEamp, found]

/-- ENV.EBEND of a stage without a bend (42_envelope.md R160). -/
theorem exec_envEbend_absent {st : Stage} {offset vel : Word} (found : stageOf stage = some st)
    (held : envBend s.env st = none) : exec (.envEbend stage offset vel) s = reply .ctl .none 0 0 s := by
  simp only [exec, execEnvEbend, found, held]

end

section
variable (s : State)

theorem exists_ctlStep_csrRd (addr : BitVec 16) : ∃ t, CtlStep (.csrRd addr) s t := by
  cases found : csrAt s.cfg addr with
  | none => exact ctlStep_of_reply (exec_csrRd_reserved found) fun o => exec_csrRd_reserved (s := s.onto o) found
  | some r =>
    refine ctlStep_of_reply (exec_csrRd_of_csrAt found) fun o => ?_
    rw [exec_csrRd_of_csrAt (s := s.onto o) found, State.onto_readCsr, reply_eq]

theorem exists_ctlStep_csrWr (addr : BitVec 16) (data : Word) : ∃ t, CtlStep (.csrWr addr data) s t := by
  cases found : csrAt s.cfg addr with
  | none => exact ctlStep_of_reply (exec_csrWr_reserved found) fun o => exec_csrWr_reserved (s := s.onto o) found
  | some r =>
    cases access : r.readOnly with
    | true =>
      exact ctlStep_of_reply (exec_csrWr_readOnly found access) fun o =>
        exec_csrWr_readOnly (s := s.onto o) found access
    | false =>
      refine ⟨_, exec_csrWr_of_csrAt data found access, fun o => ?_, fun ok => (ok.writeCsr data r).respond ..⟩
      rw [exec_csrWr_of_csrAt (s := s.onto o) data found access, State.onto_readCsr_writeCsr, State.onto_writeCsr]

theorem exists_ctlStep_btnUpd (b : BitVec 4) (raw : Bool) : ∃ t, CtlStep (.btnUpd b raw) s t := by
  by_cases present : b.toNat < s.cfg.numBtn
  · exact ⟨_, exec_btnUpd raw present, fun o => exec_btnUpd (s := s.onto o) raw present,
      fun ok => (ok.sampleLane ..).respond ..⟩
  · exact ctlStep_of_reply (if_neg present) fun o => if_neg present

theorem exists_ctlStep_qeiTick (e : BitVec 3) (count : BitVec 16) : ∃ t, CtlStep (.qeiTick e count) s t := by
  by_cases present : e.toNat < s.cfg.numQei
  · by_cases below : (qeiDiff s.qei[decoderIdx e].prev count).natAbs < 2
    · exact ctlStep_of_reply (exec_qeiTick_below present below) fun o =>
        exec_qeiTick_below (s := s.onto o) present below
    · exact ⟨_, exec_qeiTick_at present below, fun o => exec_qeiTick_at (s := s.onto o) present below,
        fun ok => ok.congr rfl rfl rfl rfl⟩
  · exact ctlStep_of_reply (if_neg present) fun o => if_neg present

theorem exists_ctlStep_qdecSmp (q : BitVec 3) (clk dt : Bool) : ∃ t, CtlStep (.qdecSmp q clk dt) s t := by
  by_cases present : q.toNat < s.cfg.numQdec
  · exact ⟨_, exec_qdecSmp present rfl, fun o => exec_qdecSmp (s := s.onto o) present rfl,
      fun ok => (ok.setQdec _ (qdecSampled_vel_le (ok.qdec _))).respond ..⟩
  · exact ctlStep_of_reply (if_neg present) fun o => if_neg present

theorem exists_ctlStep_qdecTick (q : BitVec 3) : ∃ t, CtlStep (.qdecTick q) s t := by
  by_cases present : q.toNat < s.cfg.numQdec
  · exact ⟨_, exec_qdecTick present rfl, fun o => exec_qdecTick (s := s.onto o) present rfl,
      fun ok => (ok.setQdec _ (qdecTicked_vel_le (ok.qdec _))).respond ..⟩
  · exact ctlStep_of_reply (if_neg present) fun o => if_neg present

/-- An operation on a reserved stage. -/
theorem ctlStep_of_reserved {i : Instr} {stage : BitVec 3} (answer : ∀ u, StageAnswer stage u (exec i u))
    (reserved : stageOf stage = none) : ∃ t, CtlStep i s t :=
  have number := stageOf_eq_none_iff.mp reserved
  ctlStep_of_reply ((answer s).reserved number) fun o => (answer (s.onto o)).reserved number

theorem exists_ctlStep_envShape (stage : BitVec 3) (x : Word) : ∃ t, CtlStep (.envShape stage x) s t := by
  cases found : stageOf stage with
  | none => exact ctlStep_of_reserved s (fun u => execEnvShape_answer stage u x) found
  | some st =>
    exact ctlStep_of_reply ((exec_envShape x found).trans (exec_envCurve ..)) fun o =>
      (exec_envShape (s := s.onto o) x found).trans (exec_envCurve ..)

variable (stage : BitVec 3) (offset vel : Word)

theorem exists_ctlStep_envEdur : ∃ t, CtlStep (.envEdur stage offset vel) s t := by
  cases found : stageOf stage with
  | none => exact ctlStep_of_reserved s (execEnvEdur_answer stage offset vel) found
  | some st =>
    cases held : envDur s.env st with
    | none =>
      exact ctlStep_of_reply (exec_envEdur_absent found held) fun o =>
        exec_envEdur_absent (s := s.onto o) found held
    | some cur =>
      exact ⟨_, exec_envEdur found held rfl, fun o => exec_envEdur (s := s.onto o) found held rfl,
        fun ok => (ok.setEnv (ok.env.setDur (dur_le (durEdited_range ..)) st)).respond ..⟩

theorem exists_ctlStep_envEamp : ∃ t, CtlStep (.envEamp stage offset vel) s t := by
  cases found : stageOf stage with
  | none => exact ctlStep_of_reserved s (execEnvEamp_answer stage offset vel) found
  | some st =>
    by_cases sustain : st = .sustain
    · subst sustain
      obtain rfl := eq_four_of_sustain found
      exact ⟨_, exec_envEamp_sustain rfl, fun o => exec_envEamp_sustain (s := s.onto o) rfl,
        fun ok => (ok.setEnv (ok.env.setAmp (amp_le (ampEdited_range ..)))).respond ..⟩
    · exact ctlStep_of_reply (exec_envEamp_absent found sustain) fun o =>
        exec_envEamp_absent (s := s.onto o) found sustain

theorem exists_ctlStep_envEbend : ∃ t, CtlStep (.envEbend stage offset vel) s t := by
  cases found : stageOf stage with
  | none => exact ctlStep_of_reserved s (execEnvEbend_answer stage offset vel) found
  | some st =>
    cases held : envBend s.env st with
    | none =>
      exact ctlStep_of_reply (exec_envEbend_absent found held) fun o =>
        exec_envEbend_absent (s := s.onto o) found held
    | some cur =>
      exact ⟨_, exec_envEbend found held rfl, fun o => exec_envEbend (s := s.onto o) found held rfl,
        fun ok => (ok.setEnv (ok.env.setBend (bend_le (bendEdited_range ..)) st)).respond ..⟩

end

/-- Every CTL operation answers, within its domain. -/
theorem exists_ctlStep {i : Instr} (ctl : i.agent = .ctl) (s : State) : ∃ t, CtlStep i s t := by
  cases i with
  | nop => exact ctlStep_of_reply rfl fun _ => rfl
  | csrRd addr => exact exists_ctlStep_csrRd s addr
  | csrWr addr data => exact exists_ctlStep_csrWr s addr data
  | msTick => exact ⟨_, exec_msTick s, fun o => exec_msTick (s.onto o), fun ok => ok.congr rfl rfl rfl rfl⟩
  | debUpd lane raw =>
    exact ⟨_, exec_debUpd lane raw s, fun o => exec_debUpd lane raw (s.onto o), fun ok => (ok.sampleLane ..).respond ..⟩
  | btnUpd b raw => exact exists_ctlStep_btnUpd s b raw
  | keyScan raw16 => exact ⟨_, rfl, fun _ => rfl, fun ok => (ok.scanLanes raw16).congr rfl rfl rfl rfl⟩
  | maskDiff old new => exact ⟨_, rfl, fun _ => rfl, fun ok => ok.respond ..⟩
  | qeiTick e count => exact exists_ctlStep_qeiTick s e count
  | qdecSmp q clk dt => exact exists_ctlStep_qdecSmp s q clk dt
  | qdecTick q => exact exists_ctlStep_qdecTick s q
  | envCurve x bend => exact ctlStep_of_reply (exec_envCurve x bend s) fun o => exec_envCurve x bend (s.onto o)
  | envShape stage x => exact exists_ctlStep_envShape s stage x
  | envEdur stage offset vel => exact exists_ctlStep_envEdur s stage offset vel
  | envEamp stage offset vel => exact exists_ctlStep_envEamp s stage offset vel
  | envEbend stage offset vel => exact exists_ctlStep_envEbend s stage offset vel
  | synNoteon | synNoteoff | synTick | ringPush | ringDrain | ringSyncw | ringSyncr | ringSyncu => cases ctl

/-- Settles O17: the second state is the CTL domain of the first in other surroundings, up to the output that every
CTL operation overwrites. -/
theorem controlOperationsSeeOnlyTheControlDomain : Obligations.ControlOperationsSeeOnlyTheControlDomain := by
  intro i s1 s2 ctl cfg same shadow
  obtain ⟨lanes, keyMask, btnPull, qei, qdec, msCount, env⟩ := same
  obtain ⟨t, step⟩ := exists_ctlStep ctl s1
  have domain : s1.onto s2 = s2 := by
    rw [State.onto, ← cfg, ← lanes, ← keyMask, ← btnPull, ← qei, ← qdec, ← msCount, ← env, ← shadow]
  have elsewhere := step.anywhere s2
  rw [domain] at elsewhere
  exact ⟨t, _, step.next, elsewhere, ⟨rfl, rfl, rfl, rfl, rfl, rfl, rfl⟩, rfl⟩

/-! ### Everything an operation can do -/

/-- Everything the operation `i` can do to a state (10_state.md R10). -/
inductive Effect (s : State) : Instr → State → Prop
  | ctl {i : Instr} {t : State} : i.agent = .ctl → CtlStep i s t → Effect s i t
  | answer {i : Instr} (w : RespWord) : i.agent = .smp → Effect s i (s.respond .smp w [])
  | noteOn (note : BitVec 7) (v : Nat) (w : RespWord) (osc : List OscEvent) : s.firstVoice .idle = some v →
      Effect s (.synNoteon note) ((s.setVoice v (.sounding note)).respond .smp w osc)
  | noteOff (note : BitVec 7) (v : Nat) (w : RespWord) : s.firstVoice (.sounding note) = some v →
      Effect s (.synNoteoff note) ((s.setVoice v .idle).respond .smp w [])
  | tick (f : Frame) (w : RespWord) (osc : List OscEvent) :
      Effect s .synTick ((s.push f).oscTaken.respond .smp w osc)
  | push (l r : Word) (w : RespWord) : Effect s (.ringPush l r) ((s.push ⟨l, r⟩).respond .smp w [])
  | drain (h : Bool) (m : List Host.Cell) (w : RespWord) :
      drainFrames s.cfg s.ring s.rptr (s.half h) s.drainCount = .ok m →
      Effect s (.ringDrain h) ((s.drained h m).respond .bus w [])
  | idleSync {i : Instr} : i.agent = .syncw ∨ i.agent = .syncr → Effect s i s.quiet
  | syncw (adv : Word) : adv.toNat ≤ s.wLag →
      Effect s (.ringSyncw adv) ({ s with wgSync := gray (ptrAdd s.cfg s.wSeen adv.toNat) } : State).quiet
  | syncr (adv : Word) : adv.toNat ≤ s.rLag →
      Effect s (.ringSyncr adv) ({ s with rgSync := gray (ptrAdd s.cfg s.rSeen adv.toNat) } : State).quiet
  | syncu : Effect s .ringSyncu ({ s with urShadow := s.underrun } : State).quiet

/-- An operation other than a drain answers, with an effect of its own. -/
theorem exists_effect {i : Instr} (s : State) (notDrain : ∀ h, i ≠ .ringDrain h) :
    ∃ t, exec i s = .next t ∧ Effect s i t := by
  by_cases ctl : i.agent = .ctl
  · obtain ⟨t, step⟩ := exists_ctlStep ctl s
    exact ⟨t, step.next, .ctl ctl step⟩
  cases i with
  | synNoteon note =>
    cases search : s.firstVoice .idle with
    | none => exact ⟨_, exec_synNoteon_dropped search, .answer _ rfl⟩
    | some v => exact ⟨_, exec_synNoteon_taken search, .noteOn note v _ _ search⟩
  | synNoteoff note =>
    cases search : s.firstVoice (.sounding note) with
    | none => exact ⟨_, exec_synNoteoff_noMatch search, .answer _ rfl⟩
    | some v => exact ⟨_, exec_synNoteoff_silenced search, .noteOff note v _ search⟩
  | synTick => exact ⟨_, exec_synTick s, .tick _ _ _⟩
  | ringPush l r => exact ⟨_, exec_ringPush l r s, .push l r _⟩
  | ringDrain h => exact absurd rfl (notDrain h)
  | ringSyncw adv =>
    by_cases enabled : adv.toNat ≤ s.wLag
    · exact ⟨_, exec_ringSyncw_enabled enabled, .syncw adv enabled⟩
    · exact ⟨_, if_neg enabled, .idleSync (.inl rfl)⟩
  | ringSyncr adv =>
    by_cases enabled : adv.toNat ≤ s.rLag
    · exact ⟨_, exec_ringSyncr_enabled enabled, .syncr adv enabled⟩
    · exact ⟨_, if_neg enabled, .idleSync (.inr rfl)⟩
  | ringSyncu => exact ⟨_, rfl, .syncu⟩
  | _ => exact absurd rfl ctl

/-- Where an operation answers, its effect is one of the above. -/
theorem exec_effect {i : Instr} {s t : State} (next : exec i s = .next t) : Effect s i t := by
  by_cases drains : ∃ h, i = .ringDrain h
  · obtain ⟨h, rfl⟩ := drains
    obtain ⟨m, copied⟩ := exists_copied_of_next next
    obtain rfl := Host.Outcome.next.inj ((exec_ringDrain_copied copied).symm.trans next)
    exact .drain h m _ copied
  · obtain ⟨u, answers, effect⟩ := exists_effect s (not_exists.mp drains)
    obtain rfl := Host.Outcome.next.inj (answers.symm.trans next)
    exact effect

/-! ### Which agent writes what (10_state.md R10) -/

section
variable {i : Instr} {s t : State}

theorem Effect.ctlSame (effect : Effect s i t) (other : i.agent ≠ .ctl) : CtlSame s t := by
  cases effect with
  | ctl ctl _ => exact absurd ctl other
  | tick | push | drain => simp [CtlSame, State.drained]
  | answer | noteOn | noteOff | idleSync | syncw | syncr | syncu => exact ⟨rfl, rfl, rfl, rfl, rfl, rfl, rfl⟩

theorem Effect.smpSame (effect : Effect s i t) (other : i.agent ≠ .smp) : SmpSame s t := by
  cases effect with
  | ctl _ step =>
    exact ⟨step.outside State.voices rfl, fun slot => step.outside (Memory.read ·.ring slot) rfl,
      step.outside State.wptr rfl⟩
  | answer _ smp => exact absurd smp other
  | noteOn | noteOff | tick | push => exact absurd rfl other
  | drain h m _ _ => exact ⟨by simp [State.drained], fun slot => by simp [State.drained], by simp [State.drained]⟩
  | idleSync | syncw | syncr | syncu => exact ⟨rfl, fun _ => rfl, rfl⟩

theorem Effect.busSame (effect : Effect s i t) (other : i.agent ≠ .bus) : BusSame s t := by
  cases effect with
  | ctl _ step =>
    exact ⟨step.outside State.rptr rfl, step.outside State.underrun rfl,
      fun h offset => step.outside (State.hwByte · h offset) rfl⟩
  | tick f w osc => exact ⟨by simp, by simp, hwSame_push_respond s f .smp w osc⟩
  | push l r w => exact ⟨by simp, by simp, hwSame_push_respond s ⟨l, r⟩ .smp w []⟩
  | drain => exact absurd rfl other
  | answer | noteOn | noteOff | idleSync | syncw | syncr | syncu => exact ⟨rfl, rfl, fun _ _ => rfl⟩

theorem Effect.pending (effect : Effect s i t) : t.pending = s.pending := by
  cases effect with
  | ctl _ step => exact step.outside State.pending rfl
  | tick | push | drain => simp [State.drained]
  | answer | noteOn | noteOff | idleSync | syncw | syncr | syncu => rfl

/-- Each synchronised copy is moved by its own synchroniser only (10_state.md R10). -/
theorem copies_eq_of_move {p : Pointers} (move : PointerMove s i p) :
    (i.agent ≠ .syncw → p.wgSync = s.wgSync) ∧ (i.agent ≠ .syncr → p.rgSync = s.rgSync) ∧
      (i.agent ≠ .syncu → p.urShadow = s.urShadow) := by
  cases move with
  | stay | push | drain => exact ⟨fun _ => rfl, fun _ => rfl, fun _ => rfl⟩
  | syncw => exact ⟨fun other => absurd rfl other, fun _ => rfl, fun _ => rfl⟩
  | syncr => exact ⟨fun _ => rfl, fun other => absurd rfl other, fun _ => rfl⟩
  | syncu => exact ⟨fun _ => rfl, fun _ => rfl, fun other => absurd rfl other⟩

end

/-- Settles O16: the three domains effect by effect, the synchronised copies by the moves of the pointers. -/
theorem onlyTheOwningAgentWritesAState : Obligations.OnlyTheOwningAgentWritesAState := by
  intro i s t next
  have effect := exec_effect next
  obtain ⟨cfg, move⟩ := exec_pointers next
  obtain ⟨wgSync, rgSync, urShadow⟩ := copies_eq_of_move move
  exact ⟨effect.ctlSame, effect.smpSame, effect.busSame, wgSync, rgSync, urShadow, cfg, effect.pending⟩

/-- Settles O46: of all effects only the two of the note operations write a voice, the one their search found. -/
theorem voicesChangeOnlyByNoteOnAndNoteOff : Obligations.VoicesChangeOnlyByNoteOnAndNoteOff := by
  intro i s t next v
  cases exec_effect next with
  | ctl _ step => exact .inl (step.outside (·.voices[v]) rfl)
  | answer | idleSync | syncw | syncr | syncu => exact .inl rfl
  | tick | push | drain => exact .inl (by simp [State.drained])
  | noteOn note w _ _ search =>
    obtain ⟨k, rfl, -, idle, -⟩ := exists_slot_of_firstVoice search
    rw [State.respond_voices, setVoice_voices_slot, getElem_set_slot]
    split_ifs with same
    · exact .inr (.inl ⟨note, rfl, same ▸ idle, rfl⟩)
    · exact .inl rfl
  | noteOff note w _ search =>
    obtain ⟨k, rfl, -, sounds, -⟩ := exists_slot_of_firstVoice search
    rw [State.respond_voices, setVoice_voices_slot, getElem_set_slot]
    split_ifs with same
    · exact .inr (.inr ⟨note, rfl, same ▸ sounds, rfl⟩)
    · exact .inl rfl

/-! ### The one stop of the model (10_state.md R36, log 6) -/

/-- A copy loop that does not complete has met a first slot without a value. -/
theorem drainFrames_cases (c : Config) (ring : Memory Frame) (rptr : Nat) (m : List Host.Cell) (n : Nat) :
    (∃ m', drainFrames c ring rptr m n = .ok m') ∨
    ∃ j < n, Memory.read ring (slotOf c (rptr + j)) = none ∧
      drainFrames c ring rptr m n = .error (.ringSlotUnwritten (slotOf c (rptr + j))) := by
  by_cases written : ∀ j < n, (Memory.read ring (slotOf c (rptr + j))).isSome
  · exact .inl (drainFrames_completes m written)
  · obtain ⟨j, below, missing, first⟩ : ∃ j < n, Memory.read ring (slotOf c (rptr + j)) = none ∧
        ∀ k < j, (Memory.read ring (slotOf c (rptr + k))).isSome := by
      push Not at written
      classical
      obtain ⟨below, missing⟩ := Nat.find_spec written
      refine ⟨Nat.find written, below, by simpa using missing, fun k earlier => ?_⟩
      by_contra unwritten
      exact Nat.find_min written earlier ⟨earlier.trans below, unwritten⟩
    exact .inr ⟨j, below, missing, drainFrames_stops m below missing first⟩

/-- A drain whose copy loop stops is a fault. -/
theorem exec_ringDrain_of_error {s : State} {h : Bool} {e : Fault}
    (stops : drainFrames s.cfg s.ring s.rptr (s.half h) s.drainCount = .error e) :
    exec (.ringDrain h) s = .fault e := by
  simp only [exec, execRingDrain, stops]

/-- Settles O50: every operation but a drain has an effect; a drain answers where its copy loop completes. -/
theorem onlyReadingAnUnwrittenSlotStops : Obligations.OnlyReadingAnUnwrittenSlotStops := by
  refine ⟨fun i s => ?_, fun s h j below missing first => ?_⟩
  · by_cases drains : ∃ h, i = .ringDrain h
    · obtain ⟨h, rfl⟩ := drains
      obtain ⟨m, copied⟩ | ⟨j, below, missing, stops⟩ :=
        drainFrames_cases s.cfg s.ring s.rptr (s.half h) s.drainCount
      · exact .inl ⟨_, exec_ringDrain_copied copied⟩
      · exact .inr ⟨h, j, rfl, below, missing, exec_ringDrain_of_error stops⟩
    · obtain ⟨t, next, -⟩ := exists_effect s (not_exists.mp drains)
      exact .inl ⟨t, next⟩
  · exact exec_ringDrain_of_error (drainFrames_stops _ below missing first)

end Sys2Proof.Machine
end

section
/-! PROOFS. The invariants of 10_state.md R37: they hold after reset, every effect of an operation keeps them, and under
them no step stops (60_exceptions.md R254). -/

namespace Sys2Proof.Machine

open Sys2Proof.Safety

/-! ### After reset (10_state.md R36) -/

/-- The reference configuration of 00_scope.md R5 and R6 is legal: the four free parameters by the ranges of their free
values, the others as they stand. -/
theorem reference_legal : Config.reference.Legal where
  debK := by decide
  numBtn := by decide
  numQei := by decide
  numQdec := by decide
  numVoices := by decide
  voiceGainQ16 := by decide
  ringLog := by decide
  halfFrames := by decide
  velocityDecFrequency := Nat.le_add_left 1 Config.openVelocityDecFrequencyPred
  velInc := Nat.le_of_lt_succ Config.openVelInc.isLt
  velDec := Nat.le_of_lt_succ Config.openVelDec.isLt

/-- A lane after reset holds equal samples of its confirmed level. -/
theorem laneOk_laneAtReset {k : Nat} (depth : 1 ≤ k) (level : Bool) : LaneOk k (laneAtReset k level) := by
  have some_bit : 2 ≤ 2 ^ k := Nat.pow_le_pow_right (n := 2) (by decide) depth
  refine ⟨laneAtReset_sr_lt k level, fun ones => ?_, fun zero => ?_⟩
  · cases level with
    | true => rfl
    | false => exact absurd ones (show (0 : Nat) ≠ 2 ^ k - 1 by omega)
  · cases level with
    | false => rfl
    | true => exact absurd zero (show 2 ^ k - 1 ≠ 0 by omega)

section
variable {c : Config} (legal : c.Legal)
include legal

theorem ctlOk_resetWith : CtlOk (State.resetWith c) where
  cfg := legal
  lanes lane := by
    rw [resetWith_lanes]
    exact laneOk_laneAtReset (le_of_lt (legal.debK lane).1) _
  qdec q := by
    have zero : (State.resetWith c).qdec[q] = ⟨false, false, false, 0, 0, 0, 0, 0⟩ := Vector.getElem_replicate _
    rw [zero]
    decide
  env := (⟨by decide, by decide, by decide⟩ : EnvOk ⟨0, 0, 0, 0, 0, 0, 0, 0, 0⟩)

/-- The invariants hold after reset of every legal block. -/
theorem invariants_resetWith : Invariants (State.resetWith c) := by
  have ok := ctlOk_resetWith legal
  have ring := ringN_pos c
  have range : 0 < 2 * c.ringN := by omega
  have copy : ungray c.ptrWidth 0 = 0 := ungray_gray (b := 0) (Nat.two_pow_pos _)
  have apart : ptrDist c 0 0 = 0 := by rw [ptrDist_eq c range range]; rfl
  have occ : (State.resetWith c).occ = 0 := apart
  have occSeen : (State.resetWith c).occSeen = 0 := (congrArg (ptrDist c 0) copy).trans apart
  have avail : (State.resetWith c).avail = 0 := (congrArg (ptrDist c · 0) copy).trans apart
  exact
    { cfg := ok.cfg
      laneWidth := fun l => (ok.lanes l).width, laneHigh := fun l => (ok.lanes l).high
      laneLow := fun l => (ok.lanes l).low, velocity := ok.qdec
      durations := ok.env.durations, bends := ok.env.bends, amplitude := ok.env.amplitude
      pointers := ⟨range, range, range, range⟩
      occupancy := occ ▸ ring.le
      producerView := ⟨by rw [occ, occSeen], occSeen ▸ ring.le⟩
      consumerView := by rw [avail, occ]
      written := fun j below => absurd (occ ▸ below) (Nat.not_lt_zero j)
      shadow := le_rfl
      ringForm := ⟨rfl, rfl⟩
      hwForm := fun h => by cases h <;> exact ⟨rfl, rfl⟩ }

end

/-- A gray-coded pointer fits in the register of its copy. -/
theorem gray_ptrAdd_lt (c : Config) (p n : Nat) : gray (ptrAdd c p n) < 2 * c.ringN := by
  have := gray_lt (w := c.ptrWidth) (b := ptrAdd c p n) (by rw [two_pow_ptrWidth]; exact ptrAdd_lt c p n)
  rwa [two_pow_ptrWidth] at this

section
variable {s t : State} (inv : Invariants s)
include inv

/-- The voices, the inputs, the samples and the outputs are in no invariant. -/
theorem invariants_withFree (voices : Vector Voice 16) (inputs : List Input) (samples : List (Vector (BitVec 16) 16))
    (draws : Nat) (out : Outputs) :
    Invariants { s with voices := voices, pending := inputs, oscIn := samples, oscDraws := draws, out := out } :=
  { inv with }

/-! ### Every effect keeps them (10_state.md R37) -/

theorem ctlOk_of_invariants : CtlOk s where
  cfg := inv.cfg
  lanes l := ⟨inv.laneWidth l, inv.laneHigh l, inv.laneLow l⟩
  qdec := inv.velocity
  env := ⟨inv.durations, inv.bends, inv.amplitude⟩

/-- A CTL operation keeps the ranges of its domain and touches nothing else. -/
theorem invariants_of_ctlStep {i : Instr} (step : CtlStep i s t) : Invariants t := by
  have ok := step.ranges (ctlOk_of_invariants inv)
  rw [step.frame] at ok ⊢
  exact
    { inv with
      laneWidth := fun l => (ok.lanes l).width, laneHigh := fun l => (ok.lanes l).high
      laneLow := fun l => (ok.lanes l).low, velocity := ok.qdec
      durations := ok.env.durations, bends := ok.env.bends, amplitude := ok.env.amplitude }

/-- The producer counts the frame it has pushed. -/
theorem occSeen_push (f : Frame) (room : s.occSeen ≠ s.cfg.ringN) : (s.push f).occSeen = s.occSeen + 1 := by
  have below : s.occSeen < s.cfg.ringN := lt_of_le_of_ne inv.producerView.2 room
  obtain ⟨full, -⟩ | ⟨-, taken⟩ := push_cases s f
  · exact absurd full room
  · rw [taken]
    exact ptrDist_ptrAdd_one s.cfg inv.pointers.1 (rSeen_lt s) below

/-- A push into a ring with room: one frame more on both sides of every inequality it moves. -/
theorem invariants_push (f : Frame) : Invariants (s.push f) := by
  obtain ⟨hw, hr, hwg, hrg⟩ := inv.pointers
  obtain ⟨-, dropped⟩ | ⟨room, taken⟩ := push_cases s f
  · rwa [dropped]
  obtain ⟨ring, occ, slot⟩ := push_room inv f room
  have below := occ_lt_ringN inv room
  obtain ⟨seen_ge, seen_le⟩ := inv.producerView
  have occSeen := occSeen_push inv f room
  have avail : (s.push f).avail = s.avail := by rw [taken]; rfl
  have consumer := inv.consumerView
  obtain ⟨wf, bound⟩ := inv.ringForm
  have written : ∀ j < s.occ + 1, (Memory.read (s.push f).ring (queueSlot (s.push f) j)).isSome := fun j older => by
    rw [ring, slot, Memory.read_write]
    split_ifs with newest
    · rfl
    · exact inv.written j (lt_of_le_of_ne (Nat.le_of_lt_succ older) fun last => newest (last ▸ rfl))
  have form : Memory.wf (s.push f).ring = true ∧ Memory.below s.cfg.ringN (s.push f).ring = true := by
    rw [ring]
    exact ⟨Memory.wf_write _ _ _ wf, Memory.below_write _ _ _ _ bound (slotOf_lt ..)⟩
  rw [← occ] at written
  rw [taken] at occ occSeen avail written form ⊢
  exact
    { inv with
      pointers := ⟨ptrAdd_lt .., hr, hwg, hrg⟩
      occupancy := occ ▸ below
      producerView := by rw [occ, occSeen]; exact ⟨by omega, by change s.occSeen + 1 ≤ s.cfg.ringN; omega⟩
      consumerView := by rw [occ, avail]; omega
      written := written
      ringForm := form }

/-- A drain of `n` frames: `n` frames less on both sides of every inequality it moves. -/
theorem invariants_drained {h : Bool} {m : List Host.Cell}
    (copied : drainFrames s.cfg s.ring s.rptr (s.half h) s.drainCount = .ok m) : Invariants (s.drained h m) := by
  obtain ⟨hw, hr, hwg, hrg⟩ := inv.pointers
  have seen : s.drainCount ≤ s.avail := Nat.min_le_left ..
  have held := drainCount_le_occ inv
  have occupancy := inv.occupancy
  have consumer := inv.consumerView
  obtain ⟨seen_ge, seen_le⟩ := inv.producerView
  have occ : ptrDist s.cfg s.wptr (s.drained h m).rptr = s.occ - s.drainCount := ptrDist_ptrAdd_right s.cfg hw hr held
  have avail : ptrDist s.cfg s.wSeen (s.drained h m).rptr = s.avail - s.drainCount :=
    ptrDist_ptrAdd_right s.cfg (wSeen_lt s) hr seen
  have written : ∀ j < s.occ - s.drainCount,
      (Memory.read s.ring (slotOf s.cfg (ptrAdd s.cfg s.rptr s.drainCount + j))).isSome := fun j below => by
    rw [slotOf_ptrAdd_add]
    exact inv.written _ (by omega)
  have halves : ∀ g, Memory.wf ((s.drained h m).half g) = true ∧
      Memory.below (8 * s.cfg.halfFrames) ((s.drained h m).half g) = true := fun g => by
    obtain rfl | rfl : g = h ∨ g = !h := by cases g <;> cases h <;> simp
    · have fits : 8 * s.drainCount ≤ 8 * s.cfg.halfFrames := Nat.mul_le_mul_left 8 (Nat.min_le_right ..)
      rw [State.drained_half_same]
      exact drainFrames_form copied (inv.hwForm g).1 (inv.hwForm g).2 fits
    · rw [State.drained_half_other]
      exact inv.hwForm _
  rw [State.drained_eq]
  exact
    { inv with
      pointers := ⟨hw, ptrAdd_lt .., hwg, hrg⟩
      occupancy := occ.trans_le (show s.occ - s.drainCount ≤ s.cfg.ringN by omega)
      producerView := ⟨occ.trans_le (show s.occ - s.drainCount ≤ s.occSeen by omega), seen_le⟩
      consumerView := avail.trans_le (le_of_le_of_eq (by omega) occ.symm)
      written := fun j below => written j (lt_of_lt_of_eq below occ)
      shadow := inv.shadow.trans (underrunAfter_ge ..)
      hwForm := halves }

/-- The consumer's copy moves towards the write pointer and not past it. -/
theorem invariants_syncw {adv : Nat} (enabled : adv ≤ s.wLag) :
    Invariants { s with wgSync := gray (ptrAdd s.cfg s.wSeen adv) } := by
  obtain ⟨hw, hr, hwg, hrg⟩ := inv.pointers
  have occupancy := inv.occupancy
  have consumer : ptrDist s.cfg s.wSeen s.rptr ≤ ptrDist s.cfg s.wptr s.rptr := inv.consumerView
  have moved : ptrDist s.cfg (ungray s.cfg.ptrWidth (gray (ptrAdd s.cfg s.wSeen adv))) s.rptr ≤ s.occ := by
    rw [ungray_gray_ptrAdd]
    have lag : adv ≤ ptrDist s.cfg s.wptr s.wSeen := enabled
    have lag_lt := ptrDist_lt s.cfg s.wptr s.wSeen
    have d1 := ptrDist_or s.cfg hw hr
    have d2 := ptrDist_or s.cfg (wSeen_lt s) hr
    have d3 := ptrDist_or s.cfg hw (wSeen_lt s)
    have d4 := ptrAdd_or s.cfg (wSeen_lt s) (show adv ≤ 2 * s.cfg.ringN by omega)
    have d5 := ptrDist_or s.cfg (ptrAdd_lt s.cfg s.wSeen adv) hr
    simp only [State.occ] at *
    omega
  exact { inv with pointers := ⟨hw, hr, gray_ptrAdd_lt .., hrg⟩, consumerView := moved }

/-- The producer's copy moves towards the read pointer and not past it. -/
theorem invariants_syncr {adv : Nat} (enabled : adv ≤ s.rLag) :
    Invariants { s with rgSync := gray (ptrAdd s.cfg s.rSeen adv) } := by
  obtain ⟨hw, hr, hwg, hrg⟩ := inv.pointers
  obtain ⟨seen_ge, seen_le⟩ := inv.producerView
  have moved : s.occ ≤ ptrDist s.cfg s.wptr (ungray s.cfg.ptrWidth (gray (ptrAdd s.cfg s.rSeen adv))) ∧
      ptrDist s.cfg s.wptr (ungray s.cfg.ptrWidth (gray (ptrAdd s.cfg s.rSeen adv))) ≤ s.cfg.ringN := by
    rw [ungray_gray_ptrAdd]
    have lag : adv ≤ ptrDist s.cfg s.rptr s.rSeen := enabled
    have lag_lt := ptrDist_lt s.cfg s.rptr s.rSeen
    have d1 := ptrDist_or s.cfg hw hr
    have d2 := ptrDist_or s.cfg hw (rSeen_lt s)
    have d3 := ptrDist_or s.cfg hr (rSeen_lt s)
    have d4 := ptrAdd_or s.cfg (rSeen_lt s) (show adv ≤ 2 * s.cfg.ringN by omega)
    have d5 := ptrDist_or s.cfg hw (ptrAdd_lt s.cfg s.rSeen adv)
    simp only [State.occ, State.occSeen] at *
    omega
  exact { inv with pointers := ⟨hw, hr, hwg, gray_ptrAdd_lt ..⟩, producerView := moved }

theorem invariants_syncu : Invariants { s with urShadow := s.underrun } := { inv with shadow := le_rfl }

/-- Every operation keeps the invariants. -/
theorem invariants_of_effect {i : Instr} (effect : Effect s i t) : Invariants t := by
  cases effect with
  | ctl _ step => exact invariants_of_ctlStep inv step
  | answer | noteOn | noteOff | idleSync => exact invariants_withFree inv ..
  | tick f w osc | push l r w => exact invariants_withFree (invariants_push inv _) ..
  | drain h m w copied => exact invariants_withFree (invariants_drained inv copied) ..
  | syncw adv enabled => exact invariants_withFree (invariants_syncw inv enabled) ..
  | syncr adv enabled => exact invariants_withFree (invariants_syncr inv enabled) ..
  | syncu => exact invariants_withFree (invariants_syncu inv) ..

/-! ### Every step (10_state.md R37, 60_exceptions.md R254) -/

/-- Under the invariants every operation answers: a drain reads written slots only (10_state.md R37 (d)). -/
theorem exec_answers (i : Instr) : ∃ t, exec i s = .next t := by
  by_cases drains : ∃ h, i = .ringDrain h
  · obtain ⟨h, rfl⟩ := drains
    obtain ⟨m, copied, -⟩ := exists_drained inv (s.half h)
    exact ⟨_, exec_ringDrain_copied copied⟩
  · obtain ⟨t, next, -⟩ := exists_effect s (not_exists.mp drains)
    exact ⟨t, next⟩

theorem invariants_taken : Invariants s.taken := invariants_withFree inv ..

/-- Under the invariants a step answers a state that meets them, whatever input it serves. -/
theorem step_answers : ∃ t, step s = .next t ∧ Invariants t := by
  have taken := invariants_taken inv
  obtain ⟨serves, -⟩ | ⟨serves, -⟩ | ⟨a, _, _, serves, -⟩ | ⟨_, _, _, i, serves, -⟩ := service_cases s <;>
    simp only [step, serves]
  · exact ⟨_, rfl, invariants_withFree inv ..⟩
  · exact ⟨_, rfl, invariants_withFree (invariants_resetWith inv.cfg) ..⟩
  · refine ⟨_, rfl, ?_⟩
    unfold State.rejectRequest
    split <;> exact invariants_withFree taken ..
  · obtain ⟨t, next⟩ := exec_answers taken i
    exact ⟨t, next, invariants_of_effect taken (exec_effect next)⟩

/-- Under the invariants a run of any length answers a state that meets them. -/
theorem run_answers (k : Nat) : ∃ t, Sys2Proof.core.run k s = .next t ∧ Invariants t := by
  induction k generalizing s with
  | zero => exact ⟨s, rfl, inv⟩
  | succ k ih =>
    obtain ⟨u, next, kept⟩ := step_answers inv
    obtain ⟨t, run, ends⟩ := ih kept
    have first : Sys2Proof.core.step s = .next u := next
    exact ⟨t, by simpa only [Host.Core.run, first] using run, ends⟩

end

/-- Settles O13: the state that `step_answers` gives is the next one. -/
theorem everyStepKeepsTheInvariant : Obligations.EveryStepKeepsTheInvariant := by
  intro s t inv next
  obtain ⟨u, answers, kept⟩ := step_answers inv
  obtain rfl := Host.Outcome.next.inj (answers.symm.trans next)
  exact kept

/-- Settles O14: `step_answers`, in every case of what is served. -/
theorem noStepStops : Obligations.NoStepStops := by
  intro s inv
  obtain ⟨t, next, -⟩ := step_answers inv
  exact ⟨t, next⟩

/-- Settles O12: the inputs and the samples that wait are in no invariant. -/
theorem invariantHoldsAtReset : Obligations.InvariantHoldsAtReset :=
  ⟨reference_legal, fun _ legal _ _ => invariants_withFree (invariants_resetWith legal) ..⟩

/-- Settles O15: the invariants hold after reset, and `run_answers` from there, by induction on the length. -/
theorem everyRunFromResetGoesOn : Obligations.EveryRunFromResetGoesOn := by
  intro c legal inputs samples k
  exact run_answers (invariantHoldsAtReset.2 c legal inputs samples) k

/-- Settles O11: the strobe is served, and the reset keeps the model's own fields. -/
theorem resetStrobeRestoresResetValues : Obligations.ResetStrobeRestoresResetValues := by
  intro s rest waiting
  have serves : s.service = .reset := by simp only [State.service, waiting]
  simp only [step, serves, State.afterRst, State.taken, waiting, List.tail_cons]

/-! ### The underrun register (10_state.md R28) -/

/-- No move of the pointers lowers a shadow that is not above its counter. -/
theorem urShadow_le_of_move {s : State} {i : Instr} {p : Pointers} (move : PointerMove s i p)
    (shadow : s.urShadow.toNat ≤ s.underrun.toNat) : s.urShadow.toNat ≤ p.urShadow.toNat := by
  cases move with
  | stay | push | drain | syncw | syncr => exact le_rfl
  | syncu => exact shadow

/-- Settles O52: a step without a strobe is a move of the pointers, and the next state meets the invariants. -/
theorem underrunRegisterNeverFalls : Obligations.UnderrunRegisterNeverFalls := by
  intro s t inv next noStrobe
  have serves : s.service ≠ .reset := by
    obtain ⟨h, -⟩ | ⟨-, rest, waiting⟩ | ⟨_, _, _, h, -⟩ | ⟨_, _, _, _, h, -⟩ := service_cases s
    · simp [h]
    · exact absurd waiting (noStrobe rest)
    · simp [h]
    · simp [h]
  obtain ⟨-, i, move⟩ := step_pointers next serves
  exact ⟨urShadow_le_of_move move inv.shadow, (everyStepKeepsTheInvariant s t inv next).shadow⟩

end Sys2Proof.Machine
end

section
/-! PROOFS. The debounced lanes over many samples (40_debounce.md R102), the buttons (R104) and the key mask (R107); the
decay of the rotary decoders and what they never report (41_rotary.md R126, R129). -/

namespace Sys2Proof.Machine

open Sys2Proof.Safety

/-! ### Reading a response -/

/-- What a response says is what was asked for, and nothing else. -/
theorem responded_respond_iff {s : State} {a p : Agent} {st : Status} {aux aux' : BitVec 24} {v v' : Word}
    {status : BitVec 8} :
    Responded (s.respond a (respWord st aux v) []) p status aux' v' ↔
      a = p ∧ st.code = status ∧ aux = aux' ∧ v = v' := by
  constructor
  · rintro ⟨w, out, rfl, rfl, rfl⟩
    obtain ⟨rfl, rfl⟩ : a = p ∧ respWord st aux v = w := by simpa using congrArg Outputs.resp out
    simp
  · rintro ⟨rfl, rfl, rfl, rfl⟩
    exact responded_respond ..

/-- DEB.UPD responds EVENT exactly with the code of the edge it confirms. -/
theorem responded_edgeWord_iff {s : State} {e : Option Edge} {aux : BitVec 24} :
    Responded (s.respond .ctl (edgeWord e) []) .ctl 0x01 aux 0 ↔ ∃ edge, e = some edge ∧ edge.code = aux := by
  cases e with
  | none => simp [edgeWord, responded_respond_iff, Status.code]
  | some edge => simp [edgeWord, responded_respond_iff, Status.code]

theorem responded_rising_iff {s : State} {e : Option Edge} :
    Responded (s.respond .ctl (edgeWord e) []) .ctl 0x01 1 0 ↔ e = some .rising := by
  rw [responded_edgeWord_iff]
  rcases e with _ | _ | _ <;> simp [Edge.code]

theorem responded_falling_iff {s : State} {e : Option Edge} :
    Responded (s.respond .ctl (edgeWord e) []) .ctl 0x01 2 0 ↔ e = some .falling := by
  rw [responded_edgeWord_iff]
  rcases e with _ | _ | _ <;> simp [Edge.code]

/-! ### Many samples into one lane (40_debounce.md R102) -/

/-- A lane after a sequence of samples. -/
def laneFed (k : Nat) (l : Lane) (samples : List Bool) : Lane :=
  samples.foldl (fun l raw => (laneSample k l raw).1) l

theorem laneFed_append (k : Nat) (l : Lane) (samples : List Bool) (raw : Bool) :
    laneFed k l (samples ++ [raw]) = (laneSample k (laneFed k l samples) raw).1 := by
  simp [laneFed]

/-- Feeding samples to a lane by DEB.UPD. -/
theorem feedLane_answers (lane : BitVec 5) (samples : List Bool) (s : State) :
    ∃ t, feedLane lane samples s = .next t ∧ t.cfg = s.cfg ∧
      t.lanes[laneIdx lane] = laneFed s.cfg.debK[laneIdx lane] s.lanes[laneIdx lane] samples := by
  induction samples generalizing s with
  | nil => exact ⟨s, rfl, rfl, rfl⟩
  | cons raw samples ih =>
    obtain ⟨t, fed, cfg, held⟩ := ih ((s.sampleLane (laneIdx lane) raw).respond .ctl
      (edgeWord (s.laneEdge (laneIdx lane) raw)) [])
    refine ⟨t, by simpa only [feedLane, exec_debUpd] using fed, cfg, held.trans ?_⟩
    rw [State.respond_lanes, State.sampleLane_lanes, getElem_set_slot, if_pos rfl]
    rfl

/-- Before any sample, and after each: bit `i` of the register is the `i`-th last sample, or the reset level where there
were not so many. -/
theorem laneFed_testBit {k i : Nat} (inside : i < k) (level : Bool) (samples : List Bool) :
    (laneFed k (laneAtReset k level) samples).sr.testBit i = samples.reverse.getD i level := by
  induction samples using List.reverseRecOn generalizing i with
  | nil => exact laneAtReset_testBit level inside
  | append_singleton samples raw ih =>
    rw [laneFed_append, laneSample_testBit, decide_eq_true inside, Bool.true_and, List.reverse_append]
    cases i with
    | zero => rfl
    | succ i => exact ih (by omega)

/-- Before `k` samples have been taken the oldest bit of the register still is the reset level. -/
theorem laneFed_oldest {k : Nat} {level : Bool} {samples : List Bool} (few : samples.length < k) :
    (laneFed k (laneAtReset k level) samples).sr.testBit (k - 1) = level := by
  rw [laneFed_testBit (by omega), List.getD_eq_default]
  simp only [List.length_reverse]
  omega

/-- Before `k` samples have been taken the confirmed level is the reset level: a register that has confirmed another one
holds none of the reset samples. -/
theorem laneFed_conf {k : Nat} {level : Bool} {samples : List Bool} (few : samples.length < k) :
    (laneFed k (laneAtReset k level) samples).conf = level := by
  induction samples using List.reverseRecOn with
  | nil => rfl
  | append_singleton samples raw ih =>
    have before := ih (by simp only [List.length_append] at few; omega)
    have oldest := laneFed_oldest (level := level) few
    have confirms := laneSample_confirms k (laneFed k (laneAtReset k level) samples) raw
    rw [laneFed_append] at oldest ⊢
    split_ifs at confirms with rises falls
    · exact absurd ((rises.1 (k - 1) (by omega)).symm.trans oldest) (by rw [← before, rises.2]; decide)
    · exact absurd ((falls.1 (k - 1) (by omega)).symm.trans oldest) (by rw [← before, falls.2]; decide)
    · exact confirms.1.trans before

/-- A sample confirms an edge exactly where the register then holds that sample alone and the other level was
confirmed. -/
theorem laneSample_edge_iff {k : Nat} (depth : 1 ≤ k) (l : Lane) (raw : Bool) :
    (∃ edge, (laneSample k l raw).2 = some edge) ↔
      (∀ i < k, (laneSample k l raw).1.sr.testBit i = raw) ∧ l.conf = !raw := by
  have newest : (laneSample k l raw).1.sr.testBit 0 = raw := by
    rw [laneSample_testBit, decide_eq_true (by omega), Bool.true_and, if_pos rfl]
  have confirms := laneSample_confirms k l raw
  split_ifs at confirms with rises falls
  · obtain rfl : raw = true := newest.symm.trans (rises.1 0 depth)
    exact iff_of_true ⟨_, confirms.2⟩ rises
  · obtain rfl : raw = false := newest.symm.trans (falls.1 0 depth)
    exact iff_of_true ⟨_, confirms.2⟩ falls
  · rw [confirms.2]
    cases raw with
    | true => simpa using fun all => by simpa using fun low => rises ⟨all, low⟩
    | false => simpa using fun all => by simpa using fun high => falls ⟨all, high⟩

/-- The register holds the last sample alone, and the other level was confirmed: exactly where so many samples were
taken and the last `k` are alike. -/
theorem last_samples_iff {k : Nat} {level raw conf : Bool} {samples : List Bool}
    (reset : samples.length < k → conf = level) :
    (∀ i < k, (raw :: samples.reverse).getD i level = raw) ∧ conf = !raw ↔
      k ≤ samples.length + 1 ∧ (∀ x ∈ (raw :: samples.reverse).take k, x = raw) ∧ conf = !raw := by
  have length : (raw :: samples.reverse).length = samples.length + 1 := by simp
  constructor
  · rintro ⟨alike, other⟩
    have enough : k ≤ samples.length + 1 := by
      by_contra few
      have oldest := alike (samples.length + 1) (by omega)
      rw [List.getD_eq_default _ _ length.le] at oldest
      rw [reset (by omega), oldest] at other
      cases raw <;> cases other
    refine ⟨enough, fun x among => ?_, other⟩
    obtain ⟨i, hi, rfl⟩ := List.mem_take_iff_getElem.mp among
    exact (List.getD_eq_getElem _ level (by omega)).symm.trans (alike i (by omega))
  · rintro ⟨enough, alike, other⟩
    refine ⟨fun i hi => ?_, other⟩
    rw [List.getD_eq_getElem _ _ (by omega)]
    exact alike _ (List.mem_take_iff_getElem.mpr ⟨i, by omega, rfl⟩)

/-- Settles O24: the bits of the register are the last samples (`laneFed_testBit`), so the edge of `laneSample_edge_iff`
is that of `last_samples_iff`. -/
theorem edgeExactlyAfterKDifferingSamples : Obligations.EdgeExactlyAfterKDifferingSamples := by
  intro s lane samples raw depth atReset
  obtain ⟨t, fed, cfg, held⟩ := feedLane_answers lane samples s
  refine ⟨t, _, fed, exec_debUpd lane raw t, ?_⟩
  have edge : t.laneEdge (laneIdx lane) raw = (laneSample s.cfg.debK[laneIdx lane] t.lanes[laneIdx lane] raw).2 := by
    rw [State.laneEdge, cfg]
  rw [held, atReset] at edge ⊢
  generalize s.cfg.debK[laneIdx lane] = k at *
  generalize s.cfg.debInit[laneIdx lane] = level at *
  have reports : (∃ aux, Responded ((t.sampleLane (laneIdx lane) raw).respond .ctl
      (edgeWord (t.laneEdge (laneIdx lane) raw)) []) .ctl 0x01 aux 0) ↔
      ∃ e, (laneSample k (laneFed k (laneAtReset k level) samples) raw).2 = some e := by
    simp only [responded_edgeWord_iff, edge]
    exact ⟨fun ⟨_, e, found, _⟩ => ⟨e, found⟩, fun ⟨e, found⟩ => ⟨_, e, found, rfl⟩⟩
  rw [reports, laneSample_edge_iff depth, ← last_samples_iff laneFed_conf, ← laneFed_append]
  refine and_congr_left fun _ => forall₂_congr fun i inside => ?_
  rw [laneFed_testBit inside, List.reverse_append]
  rfl

/-! ### Buttons (40_debounce.md R104, R105) -/

/-- The operand of DEB.UPD that names the lane of a button. -/
theorem laneIdx_button (b : BitVec 4) : laneIdx (BitVec.ofNat 5 (16 + b.toNat)) = buttonLane b :=
  laneIdx_ofNat (by have := b.isLt; omega)

/-- Settles O25: both operations sample the lane of the button and name its edge, each in its own code. -/
theorem buttonUpdateNamesTheEdgeByPolarity : Obligations.ButtonUpdateNamesTheEdgeByPolarity := by
  intro s b raw
  refine ⟨encodedAs_btnUpd b raw, fun absent => answersIllegal_of_exec (if_neg (by omega)), fun present => ?_⟩
  refine ⟨_, _, exec_debUpd _ raw s, exec_btnUpd raw present, ?_, ⟨fun _ => rfl, fun _ _ => rfl⟩, ?_⟩
  · rw [laneIdx_button]
    rfl
  · rw [laneIdx_button]
    rcases s.laneEdge (buttonLane b) raw with _ | _ | _
    · exact .inl ⟨responded_respond .., responded_respond ..⟩
    · exact .inr (.inl ⟨responded_respond .., responded_respond ..⟩)
    · exact .inr (.inr ⟨responded_respond .., responded_respond ..⟩)

/-! ### The key mask (40_debounce.md R107) -/

/-- A lane rises or falls exactly where it reports the edge. -/
theorem laneSample_edges (k : Nat) (l : Lane) (raw : Bool) :
    (l.conf = false ∧ (laneSample k l raw).1.conf = true ↔ (laneSample k l raw).2 = some .rising) ∧
    (l.conf = true ∧ (laneSample k l raw).1.conf = false ↔ (laneSample k l raw).2 = some .falling) := by
  obtain ⟨sr, after, -, low⟩ | ⟨sr, after, -, high⟩ | ⟨sr, after, -, -⟩ := laneSample_cases k l raw
  · simp [after, low]
  · simp [after, high]
  · simp [after]

/-- Settles O28: before and after the scan a bit of the mask is its lane's level, and the lane is that of DEB.UPD. -/
theorem keyMaskChangesExactlyOnLaneEdges : Obligations.KeyMaskChangesExactlyOnLaneEdges := by
  intro s raw16 agrees
  obtain ⟨-, t, u, scan, -, -, -, -, mask, -⟩ := keyScanSamplesEveryKeyLane s raw16
  refine ⟨t, scan, mask, fun i key => ⟨_, exec_debUpd .., ?_⟩⟩
  obtain rfl := Host.Outcome.next.inj scan
  have lane := s.scanLanes_getElem raw16 i (by omega)
  rw [if_pos key] at lane
  have level := (mask i key).trans (congrArg Lane.conf lane)
  obtain ⟨rises, falls⟩ := laneSample_edges s.cfg.debK[i] s.lanes[i] (raw16.getLsbD i)
  rw [responded_rising_iff, responded_falling_iff, laneIdx_ofNat (show i < 32 by omega), agrees i key, level]
  exact ⟨rises, falls⟩

/-! ### The rotary decoders (41_rotary.md R126, R129) -/

theorem decayPeriods_eq (c : Config) (ms : Word) (d : Qdec) :
    decayPeriods c ms d =
      (Int.emod ((ms.toNat : Int) - d.tdec.toNat) (2 ^ 32)).toNat / c.velocityDecFrequency := by
  rw [decayPeriods, toNat_sub_eq_emod]

/-- Settles O30: the two branches of the decay; where no whole period has passed the formulas give what there was. -/
theorem velocityDecaysByWholePeriods : Obligations.VelocityDecaysByWholePeriods := by
  intro c ms d n r
  have periods : decayPeriods c ms d = n := decayPeriods_eq c ms d
  refine ⟨decayed_frame c ms d, ?_⟩
  rcases Nat.eq_zero_or_pos n with noPeriod | passed
  · have kept : r = d := by simp only [r, decayed, periods, noPeriod, lt_irrefl, if_false]
    have := d.tdec.isLt
    rw [kept, noPeriod]
    exact ⟨fun _ => rfl, by simp, by omega⟩
  · have moved : r = { d with
        vel := BitVec.ofNat 17 (d.vel.toNat - n * c.velDec)
        tdec := wrap32 ((d.tdec.toNat + n * c.velocityDecFrequency : Nat) : Int) } := by
      simp only [r, decayed, periods, if_pos passed, gt_iff_lt]
    have fits := d.vel.isLt
    rw [moved]
    refine ⟨fun noPeriod => absurd noPeriod (by omega), ?_, ?_⟩
    · rw [BitVec.toNat_ofNat, Nat.mod_eq_of_lt (by omega)]
      omega
    · rw [wrap32, BitVec.ofInt_natCast, BitVec.toNat_ofNat]

/-- The direction's sign makes no value zero. -/
theorem signedBy_ne_zero {inv : Bool} {v : Word} (h : v ≠ 0) : signedBy inv v ≠ 0 := by
  cases inv with
  | false => exact h
  | true => exact neg_ne_zero.mpr h

/-- A tick that reports EVENT reports a count that was not zero. -/
theorem qdecTicked_event {c : Config} {ms : Word} {d : Qdec} (event : (qdecTicked c ms d).2.1.code = 0x01) :
    (qdecTicked c ms d).2.2.2 ≠ 0 := by
  by_cases standard : d.acc = false
  · rw [qdecTicked_standard c ms standard] at event ⊢
    refine signedBy_ne_zero fun zero => ?_
    rw [if_pos zero] at event
    cases event
  · rw [qdecTicked_accelerated c ms standard] at event ⊢
    split_ifs at event ⊢ with due
    · exact signedBy_ne_zero due.2
    · cases event

/-- Settles O33: QEI.TICK reports a difference above the threshold, whose half is not zero; QDEC.TICK by
`qdecTicked_event`. -/
theorem zeroDeltaIsNeverReported : Obligations.ZeroDeltaIsNeverReported := by
  refine fun s => ⟨fun e count present => ?_, fun q present => ?_⟩
  · by_cases below : (qeiDiff s.qei[decoderIdx e].prev count).natAbs < 2
    · refine ⟨_, exec_qeiTick_below present below, fun aux v reports => ?_⟩
      obtain ⟨-, status, -⟩ := responded_respond_iff.mp reports
      cases status
    · refine ⟨_, exec_qeiTick_at present below, fun aux v reports => ?_⟩
      obtain ⟨-, -, -, rfl⟩ := responded_respond_iff.mp reports
      obtain ⟨lower, upper⟩ := qeiDiff_range s.qei[decoderIdx e].prev count
      exact (toInt_halfDifference _ lower upper below).2
  · refine ⟨_, exec_qdecTick present rfl, fun aux v reports => ?_⟩
    obtain ⟨-, event, -, rfl⟩ := responded_respond_iff.mp reports
    exact qdecTicked_event event

end Sys2Proof.Machine
end

section
/-! PROOFS. The curve shaper (42_envelope.md R151 to R153, R161): its table, its exponential and its curve are monotone
and of the stated shape; and the edits of absent fields (R160). -/

namespace Sys2Proof.Machine

open Sys2Proof.Safety

/-! ### The table (42_envelope.md R151) -/

theorem isCurveEntry_lutRead : ∀ i ≤ 64, IsCurveEntry i (lutRead i) := by
  unfold IsCurveEntry
  decide

theorem lutRead_succ_lt : ∀ i < 64, lutRead (i + 1) < lutRead i := by
  decide

/-- From one octave to the next the table halves. -/
theorem lutRead_ends : lutRead 0 = 2 ^ 20 ∧ lutRead 64 = 2 ^ 19 := by
  decide

theorem lutRead_le : ∀ i ≤ 64, 2 ^ 19 ≤ lutRead i ∧ lutRead i ≤ 2 ^ 20 := by
  decide

/-! ### The exponential (42_envelope.md R152) -/

/-- The value of the exponential within its octave, at segment `i` and `d` 1024ths of the segment. -/
def segmentValue (i d : Nat) : Nat := lutRead i - (lutRead i - lutRead (i + 1)) * d / 1024

theorem exp2neg_eq_segmentValue (p : Nat) :
    exp2neg p = segmentValue (p % 65536 / 1024) (p % 1024) / 2 ^ (p / 65536) :=
  exp2neg_eq_interpolatedExp p

/-- The value falls along a segment. -/
theorem segmentValue_antitone (i : Nat) {d d' : Nat} (h : d ≤ d') : segmentValue i d' ≤ segmentValue i d :=
  Nat.sub_le_sub_left (Nat.div_le_div_right (Nat.mul_le_mul_left _ h)) _

/-- A segment begins at its entry of the table. -/
theorem segmentValue_zero (i : Nat) : segmentValue i 0 = lutRead i := by
  simp [segmentValue]

/-- A segment stays between its two entries of the table. -/
theorem le_segmentValue {i d : Nat} (segment : i < 64) (inside : d ≤ 1024) : lutRead (i + 1) ≤ segmentValue i d := by
  have falls := lutRead_succ_lt i segment
  have part : (lutRead i - lutRead (i + 1)) * d / 1024 ≤ lutRead i - lutRead (i + 1) :=
    Nat.div_le_of_le_mul (by rw [Nat.mul_comm 1024]; exact Nat.mul_le_mul_left _ inside)
  unfold segmentValue
  omega

theorem segmentValue_le {i : Nat} (segment : i < 64) (d : Nat) : segmentValue i d ≤ 2 ^ 20 :=
  (Nat.sub_le ..).trans (lutRead_le i segment.le).2

/-- One step on: within a segment, into the next segment, or into the next octave. -/
theorem exp2neg_succ_le (p : Nat) : exp2neg (p + 1) ≤ exp2neg p := by
  simp only [exp2neg_eq_segmentValue]
  have segment : p % 65536 / 1024 < 64 := by omega
  have inside : p % 1024 ≤ 1024 := by omega
  by_cases within : p % 1024 + 1 < 1024
  · rw [show (p + 1) % 65536 / 1024 = p % 65536 / 1024 by omega, show (p + 1) / 65536 = p / 65536 by omega]
    exact Nat.div_le_div_right (segmentValue_antitone _ (by omega))
  · rw [show (p + 1) % 1024 = 0 by omega, segmentValue_zero]
    have next := le_segmentValue segment inside
    by_cases octave : p % 65536 / 1024 + 1 < 64
    · rw [show (p + 1) % 65536 / 1024 = p % 65536 / 1024 + 1 by omega, show (p + 1) / 65536 = p / 65536 by omega]
      exact Nat.div_le_div_right next
    · rw [show (p + 1) % 65536 / 1024 = 0 by omega, show (p + 1) / 65536 = p / 65536 + 1 by omega]
      rw [show p % 65536 / 1024 + 1 = 64 by omega] at next
      obtain ⟨first, last⟩ := lutRead_ends
      calc lutRead 0 / 2 ^ (p / 65536 + 1) = lutRead 64 / 2 ^ (p / 65536) := by
            rw [first, last, pow_succ 2 (p / 65536)]
            exact Nat.mul_div_mul_right (2 ^ 19) _ (by decide : 0 < 2)
        _ ≤ _ := Nat.div_le_div_right next

theorem exp2neg_antitone {p q : Nat} (h : p ≤ q) : exp2neg q ≤ exp2neg p :=
  antitone_nat_of_succ_le exp2neg_succ_le h

theorem exp2neg_zero : exp2neg 0 = 2 ^ 20 := by
  decide

/-- After 21 octaves nothing of 20 fractional bits is left. -/
theorem exp2neg_eq_zero {p : Nat} (far : 21 * 65536 ≤ p) : exp2neg p = 0 := by
  have octaves : 21 ≤ p / 65536 := by omega
  have start := segmentValue_le (show p % 65536 / 1024 < 64 by omega) (p % 1024)
  have halved : 2 ^ 21 ≤ 2 ^ (p / 65536) := Nat.pow_le_pow_right (by decide) octaves
  rw [exp2neg_eq_segmentValue, Nat.div_eq_of_lt]
  omega

/-! ### The complement (42_envelope.md R153) -/

theorem curveG_le (ab z : Nat) : curveG ab z ≤ 2 ^ 20 := Nat.sub_le ..

theorem curveG_mono {ab ab' z z' : Nat} (hab : ab ≤ ab') (hz : z ≤ z') : curveG ab z ≤ curveG ab' z' := by
  have exponent : (ab * z * curveC) >>> 32 ≤ (ab' * z' * curveC) >>> 32 := by
    simp only [Nat.shiftRight_eq_div_pow]
    exact Nat.div_le_div_right (Nat.mul_le_mul_right _ (Nat.mul_le_mul hab hz))
  exact Nat.sub_le_sub_left (exp2neg_antitone exponent) _

theorem curveG_zero (ab : Nat) : curveG ab 0 = 0 := by
  rw [curveG, Nat.mul_zero, Nat.zero_mul, Nat.zero_shiftRight, exp2neg_zero]
  rfl

/-- At the smallest bend of the exponential branch, and so at every one, the divisor is large. -/
theorem le_curveG_one {ab : Nat} (h : 656 ≤ ab) : 190000 ≤ curveG ab 65536 :=
  (show 190000 ≤ curveG 656 65536 by decide).trans (curveG_mono h le_rfl)

/-- Settles O34: the table is checked entry by entry; the exponential falls step by step, and `g` rises with it. -/
theorem shaperExponentialIsMonotone : Obligations.ShaperExponentialIsMonotone :=
  ⟨isCurveEntry_lutRead, lutRead_ends.1, lutRead_ends.2, lutRead_succ_lt, exp2neg_eq_interpolatedExp,
    curveG_eq_shaperG, exp2neg_zero, fun _ _ => exp2neg_antitone, fun _ => exp2neg_eq_zero, curveG_zero,
    fun _ _ _ => curveG_mono le_rfl, fun _ _ _ h => curveG_mono h le_rfl, curveG_le, fun _ => le_curveG_one⟩

/-! ### The curve (42_envelope.md R154, R161) -/

section
variable {x b : Int}

/-- The dead zone. -/
theorem curveY_dead (h : x.natAbs * 100 < 65536) : curveY x b = 0 := if_pos h

/-- The linear branch. -/
theorem curveY_linear (outside : ¬ x.natAbs * 100 < 65536) (flat : b.natAbs * 100 < 65536) : curveY x b = x := by
  rw [curveY, if_neg outside, if_pos flat]

/-- The exponential branch. -/
theorem curveY_exponential (outside : ¬ x.natAbs * 100 < 65536) (bent : ¬ b.natAbs * 100 < 65536) :
    curveY x b = x.sign * clamp (curveF (decide (b < 0)) b.natAbs x.natAbs) 0 65536 := by
  rw [curveY, if_neg outside, if_neg bent, sgn_eq_sign]

/-- Odd symmetry: every branch depends on the magnitude, and on the sign as a factor. -/
theorem curveY_neg (x b : Int) : curveY (-x) b = -curveY x b := by
  have magnitude : (-x).natAbs = x.natAbs := Int.natAbs_neg x
  by_cases outside : x.natAbs * 100 < 65536
  · rw [curveY_dead outside, curveY_dead (magnitude.symm ▸ outside), neg_zero]
  · by_cases flat : b.natAbs * 100 < 65536
    · rw [curveY_linear outside flat, curveY_linear (magnitude.symm ▸ outside) flat]
    · rw [curveY_exponential outside flat, curveY_exponential (magnitude.symm ▸ outside) flat, magnitude, Int.sign_neg,
        neg_mul]

theorem curveY_nonneg (nonneg : 0 ≤ x) : 0 ≤ curveY x b := by
  by_cases dead : x.natAbs * 100 < 65536
  · rw [curveY_dead dead]
  · by_cases flat : b.natAbs * 100 < 65536
    · rwa [curveY_linear dead flat]
    · rw [curveY_exponential dead flat]
      exact mul_nonneg (Int.sign_nonneg_iff.mpr nonneg) (clamp_range _ (by decide)).1

end

/-! #### The exponential branch -/

/-- `g` at `z` as a fraction of `g` at one, in Q16, rounded to nearest. -/
def curveRatio (ab z : Nat) : Nat := (curveG ab z * 65536 + curveG ab 65536 / 2) / curveG ab 65536

theorem curveF_eq_curveRatio (negBend : Bool) (ab ax : Nat) :
    curveF negBend ab ax =
      if negBend then (curveRatio ab ax : Int) else 65536 - (curveRatio ab (65536 - ax) : Int) := rfl

theorem curveRatio_mono (ab : Nat) {z z' : Nat} (h : z ≤ z') : curveRatio ab z ≤ curveRatio ab z' :=
  Nat.div_le_div_right (Nat.add_le_add_right (Nat.mul_le_mul_right _ (curveG_mono le_rfl h)) _)

section
variable {ab : Nat} (bent : 656 ≤ ab)
include bent

theorem half_curveG_div : curveG ab 65536 / 2 / curveG ab 65536 = 0 :=
  Nat.div_eq_of_lt (Nat.div_lt_self ((by decide : 0 < 190000).trans_le (le_curveG_one bent)) (by decide))

theorem curveRatio_zero : curveRatio ab 0 = 0 := by
  rw [curveRatio, curveG_zero, Nat.zero_mul, Nat.zero_add, half_curveG_div bent]

theorem curveRatio_one : curveRatio ab 65536 = 65536 := by
  rw [curveRatio, Nat.mul_add_div ((by decide : 0 < 190000).trans_le (le_curveG_one bent)), half_curveG_div bent]

theorem curveF_one (negBend : Bool) : curveF negBend ab 65536 = 65536 := by
  rw [curveF_eq_curveRatio, Nat.sub_self, curveRatio_zero bent, curveRatio_one bent]
  cases negBend <;> rfl

end

theorem curveF_mono (negBend : Bool) (ab : Nat) {ax ax' : Nat} (h : ax ≤ ax') :
    curveF negBend ab ax ≤ curveF negBend ab ax' := by
  have up := curveRatio_mono ab h
  have down := curveRatio_mono ab (Nat.sub_le_sub_left h 65536)
  rw [curveF_eq_curveRatio, curveF_eq_curveRatio]
  split <;> omega

/-! #### The shape of the curve -/

theorem curveY_one (b : Int) : curveY 65536 b = 65536 := by
  have outside : ¬ (65536 : Int).natAbs * 100 < 65536 := by decide
  by_cases flat : b.natAbs * 100 < 65536
  · exact curveY_linear outside flat
  · have top : curveF (decide (b < 0)) b.natAbs (65536 : Int).natAbs = 65536 := curveF_one (by omega) _
    rw [curveY_exponential outside flat, top]
    rfl

/-- Settles O36: the branches by their equations, the ends by `curveY_one` and the symmetry, the bound by
`curveY_range`. -/
theorem curveHasTheStatedShape : Obligations.CurveHasTheStatedShape := by
  intro x b lower upper _ _
  obtain ⟨least, greatest⟩ := curveY_range b lower upper
  exact ⟨fun _ _ => curveY_dead (by omega), fun _ _ _ => curveY_linear (by omega) (by omega), curveY_one b,
    (curveY_neg 65536 b).trans (congrArg Neg.neg (curveY_one b)), curveY_neg x b, least, greatest⟩

/-- On the positive side the curve does not decrease: out of the dead zone it is not below 0, and within a branch the
branch's formula is monotone. -/
theorem curveY_mono_of_nonneg {x x' : Int} (b : Int) (nonneg : 0 ≤ x) (le : x ≤ x') : curveY x b ≤ curveY x' b := by
  by_cases dead : x.natAbs * 100 < 65536
  · rw [curveY_dead dead]
    exact curveY_nonneg (nonneg.trans le)
  · have outside : ¬ x'.natAbs * 100 < 65536 := by omega
    by_cases flat : b.natAbs * 100 < 65536
    · rwa [curveY_linear dead flat, curveY_linear outside flat]
    · have rises := curveF_mono (decide (b < 0)) b.natAbs (show x.natAbs ≤ x'.natAbs by omega)
      rw [curveY_exponential dead flat, curveY_exponential outside flat, Int.sign_eq_one_of_pos (by omega),
        Int.sign_eq_one_of_pos (by omega), one_mul, one_mul]
      exact min_le_min_right _ (max_le_max_right _ rises)

/-- Settles O37: the positive side, the negative side by odd symmetry, and across zero by the signs. -/
theorem curveIsMonotoneInX : Obligations.CurveIsMonotoneInX := by
  intro x x' b _ le _ _ _
  rcases le_total 0 x with nonneg | nonpos
  · exact curveY_mono_of_nonneg b nonneg le
  · have mirrored : curveY (-x) b = -curveY x b := curveY_neg x b
    rcases le_total 0 x' with nonneg' | nonpos'
    · have below := curveY_nonneg (b := b) (show 0 ≤ -x by omega)
      have above := curveY_nonneg (b := b) nonneg'
      omega
    · have rises := curveY_mono_of_nonneg b (show 0 ≤ -x' by omega) (show -x' ≤ -x by omega)
      have mirrored' : curveY (-x') b = -curveY x' b := curveY_neg x' b
      omega

/-! ### Absent fields (42_envelope.md R160) -/

/-- An operation that replies NONE from the state it finds changes nothing. -/
theorem noOp_of_reply {i : Instr} {s : State} (h : exec i s = reply .ctl .none 0 0 s) :
    ∃ t, exec i s = .next t ∧ t = { s with out := t.out } ∧ MemorySame s t ∧ Responded t .ctl 0x00 0 0 :=
  ⟨_, h, rfl, memorySame_respond .., responded_respond ..⟩

/-- Settles O42: Sustain has no duration, three stages have no bend, and only Sustain has an amplitude. -/
theorem editingAnAbsentFieldIsANoOp : Obligations.EditingAnAbsentFieldIsANoOp := by
  rintro s stage offset vel i (rfl | ⟨rfl, rfl | rfl | rfl⟩ | ⟨rfl, existing, other⟩)
  · exact noOp_of_reply (exec_envEdur_absent (st := .sustain) rfl rfl)
  · exact noOp_of_reply (exec_envEbend_absent (st := .delay) rfl rfl)
  · exact noOp_of_reply (exec_envEbend_absent (st := .hold) rfl rfl)
  · exact noOp_of_reply (exec_envEbend_absent (st := .sustain) rfl rfl)
  · obtain ⟨st, found⟩ := exists_stageOf stage existing
    refine noOp_of_reply (exec_envEamp_absent found fun sustain => other ?_)
    exact eq_four_of_sustain (sustain ▸ found)

end Sys2Proof.Machine
end

section
/-! PROOFS. A full pool of voices (43_synth.md R187), the gray code of consecutive counts (44_ring.md R202), the
synchroniser steps that are not enabled (log 8), and the ring caught up and filled (20_memory.md R51, 44_ring.md
R207). -/

namespace Sys2Proof.Machine

open Sys2Proof.Safety

/-! ### A full pool of voices (43_synth.md R187) -/

/-- The search for an idle voice finds the slot below which none is idle. -/
theorem firstVoice_idle_eq {s : State} {k : Fin 16} (present : k.val < s.cfg.numVoices) (idle : s.voices[k] = .idle)
    (taken : ∀ w : Fin 16, w < k → s.voices[w] ≠ .idle) : s.firstVoice .idle = some k.val := by
  cases search : s.firstVoice .idle with
  | none => exact absurd idle (slot_ne_of_firstVoice search k present)
  | some v =>
    obtain ⟨j, rfl, -, found, lowest⟩ := exists_slot_of_firstVoice search
    rcases lt_trichotomy j k with below | rfl | above
    · exact absurd found (taken j below)
    · rfl
    · exact absurd idle (lowest k above)

/-- Of the pool the first `k` voices sound and the others are idle. -/
structure FilledTo (s : State) (k : Nat) : Prop where
  sounding : ∀ v : Fin 16, v.val < k → s.voices[v] ≠ .idle
  idle : ∀ v : Fin 16, k ≤ v.val → s.voices[v] = .idle

/-- SYN.NOTEON on a pool filled to `k` takes voice `k`. -/
theorem synNoteon_of_filledTo {s : State} {k : Nat} (filled : FilledTo s k) (present : k < s.cfg.numVoices)
    (inPool : k < 16) (note : BitVec 7) :
    ∃ t, exec (.synNoteon note) s = .next t ∧ t.cfg = s.cfg ∧ t.voices = s.voices.set k (.sounding note) ∧
      FilledTo t (k + 1) := by
  have search := firstVoice_idle_eq (k := ⟨k, inPool⟩) present (filled.idle _ le_rfl) fun w => filled.sounding w
  refine ⟨_, exec_synNoteon_taken search, rfl, setVoice_voices_slot s ⟨k, inPool⟩ _, fun v below => ?_,
    fun v above => ?_⟩
  · rw [State.respond_voices, setVoice_voices_slot s ⟨k, inPool⟩, getElem_set_slot]
    split_ifs with same
    · simp
    · exact filled.sounding v (lt_of_le_of_ne (Nat.le_of_lt_succ below) fun h => same (Fin.ext h.symm))
  · rw [State.respond_voices, setVoice_voices_slot s ⟨k, inPool⟩, getElem_set_slot,
      if_neg (by simp only [Fin.ext_iff]; omega)]
    exact filled.idle v (by omega)

/-- Notes played on a pool filled to `k` take the voices from `k` on, in order. -/
theorem playNotes_of_filledTo (notes : List (BitVec 7)) {s : State} {k : Nat} (filled : FilledTo s k)
    (enough : k + notes.length ≤ s.cfg.numVoices) (pool : s.cfg.numVoices ≤ 16) :
    ∃ t, playNotes notes s = .next t ∧ t.cfg = s.cfg ∧ FilledTo t (k + notes.length) ∧
      (∀ v : Fin 16, v.val < k → t.voices[v] = s.voices[v]) ∧
      ∀ (j : Nat) (listed : j < notes.length) (inPool : k + j < 16), t.voices[k + j] = .sounding notes[j] := by
  induction notes generalizing s k with
  | nil => exact ⟨s, rfl, rfl, filled, fun _ _ => rfl, fun j listed => absurd listed (Nat.not_lt_zero j)⟩
  | cons note notes ih =>
    rw [List.length_cons] at enough
    obtain ⟨u, next, cfg, voices, filledU⟩ := synNoteon_of_filledTo filled (by omega) (by omega) note
    obtain ⟨t, plays, cfgT, filledT, kept, taken⟩ := ih filledU (by rw [cfg]; omega) (by rwa [cfg])
    refine ⟨t, by simpa only [playNotes, next] using plays, cfgT.trans cfg, ?_, fun v below => ?_, ?_⟩
    · rwa [List.length_cons, Nat.add_comm notes.length 1, ← Nat.add_assoc]
    · rw [kept v (by omega), voices]
      exact Vector.getElem_set_ne _ _ (by omega)
    · rintro (_ | j) listed inPool
      · have first := kept ⟨k, inPool⟩ (Nat.lt_succ_self k)
        rw [voices] at first
        exact first.trans (Vector.getElem_set_self _)
      · have later := taken j (by simpa using listed) (by omega)
        simpa only [show k + 1 + j = k + (j + 1) by omega, List.getElem_cons_succ] using later

/-- Settles O47: the pool is filled in order, and then the search for an idle voice finds none. -/
theorem oneNoteMoreThanVoicesIsDropped : Obligations.OneNoteMoreThanVoicesIsDropped := by
  intro s notes extra pool idle count
  have filled : FilledTo s 0 := ⟨fun v none => absurd none (Nat.not_lt_zero _), fun v _ => idle v⟩
  obtain ⟨t, plays, cfg, full, -, taken⟩ := playNotes_of_filledTo notes filled (by omega) pool
  rw [Nat.zero_add, count, ← cfg] at full
  have search : t.firstVoice .idle = none := by
    refine Option.eq_none_iff_forall_ne_some.mpr fun v found => ?_
    obtain ⟨k, -, present, idleVoice, -⟩ := exists_slot_of_firstVoice found
    exact full.sounding k present idleVoice
  refine ⟨t, _, plays, exec_synNoteon_dropped search, fun v listed inPool => ?_, rfl, responded_respond ..⟩
  simpa only [Nat.zero_add] using taken v listed (by omega)

/-! ### The gray code (00_scope.md R8, 44_ring.md R202) -/

/-- An exclusive or by its half and its lowest bit. -/
theorem xor_eq_two_mul_add (a b : Nat) : a ^^^ b = 2 * (a / 2 ^^^ b / 2) + (a + b) % 2 := by
  rw [← Nat.xor_div_two, ← Nat.xor_mod_two_eq, Nat.div_add_mod]

/-- A count and the next one differ in all bits up to the lowest clear one. -/
theorem exists_xor_succ (b : Nat) : ∃ k, b ^^^ (b + 1) = 2 ^ (k + 1) - 1 := by
  induction b using Nat.strongRecOn with
  | ind b ih =>
    have lowest : (b + (b + 1)) % 2 = 1 := by omega
    rw [xor_eq_two_mul_add, lowest]
    rcases Nat.mod_two_eq_zero_or_one b with even | odd
    · refine ⟨0, ?_⟩
      rw [show (b + 1) / 2 = b / 2 by omega, Nat.xor_self]
      rfl
    · obtain ⟨k, upper⟩ := ih (b / 2) (by omega)
      refine ⟨k + 1, ?_⟩
      have := Nat.two_pow_pos (k + 1)
      rw [show (b + 1) / 2 = b / 2 + 1 by omega, upper, Nat.pow_succ 2 (k + 1)]
      omega

/-- At the wrap of the count all its bits change. -/
theorem exists_xor_succ_mod {w b : Nat} (pos : 0 < w) (hb : b < 2 ^ w) :
    ∃ k < w, b ^^^ ((b + 1) % 2 ^ w) = 2 ^ (k + 1) - 1 := by
  rcases Nat.lt_or_ge (b + 1) (2 ^ w) with within | wraps
  · obtain ⟨k, differ⟩ := exists_xor_succ b
    have width := Nat.xor_lt_two_pow hb within
    have bits : 2 ^ (k + 1) ≤ 2 ^ w := by omega
    exact ⟨k, (Nat.pow_le_pow_iff_right (by decide)).mp bits, by rwa [Nat.mod_eq_of_lt within]⟩
  · refine ⟨w - 1, by omega, ?_⟩
    rw [show b + 1 = 2 ^ w by omega, Nat.mod_self, Nat.xor_zero, Nat.sub_add_cancel pos]
    omega

/-- The code of all ones up to bit `k` is bit `k` alone. -/
theorem gray_ones (k : Nat) : gray (2 ^ (k + 1) - 1) = 2 ^ k := by
  have half : (2 ^ (k + 1) - 1) >>> 1 = 2 ^ k - 1 := by
    rw [Nat.shiftRight_eq_div_pow, Nat.pow_succ]
    omega
  apply Nat.eq_of_testBit_eq
  intro i
  rw [gray, half, Nat.testBit_xor, Nat.testBit_two_pow_sub_one, Nat.testBit_two_pow_sub_one, Nat.testBit_two_pow]
  rcases lt_trichotomy i k with below | rfl | above
  · simp [below, Nat.lt_succ_of_lt below, below.ne']
  · simp
  · simp [show ¬ i < k + 1 by omega, show ¬ i < k by omega, above.ne]

theorem gray_two_pow (n : Nat) : gray (2 ^ (n + 1)) = 2 ^ (n + 1) ^^^ 2 ^ n := by
  rw [gray, Nat.shiftRight_eq_div_pow, Nat.pow_succ, pow_one, Nat.mul_div_cancel _ (by decide)]

/-- Two counts with the same code are the same. -/
theorem gray_inj {w a b : Nat} (ha : a < 2 ^ w) (hb : b < 2 ^ w) : gray a = gray b ↔ a = b :=
  ⟨fun same => by rw [← ungray_gray ha, ← ungray_gray hb, same], congrArg gray⟩

/-- Setting a clear top bit. -/
theorem xor_two_pow_of_lt {n b : Nat} (hb : b < 2 ^ n) : b ^^^ 2 ^ n = b + 2 ^ n := by
  induction n generalizing b with
  | zero => rw [show b = 0 by omega]; rfl
  | succ n ih =>
    rw [Nat.pow_succ] at hb ⊢
    rw [xor_eq_two_mul_add, Nat.mul_div_cancel _ (by decide), ih (by omega)]
    omega

/-- Clearing a set top bit. -/
theorem xor_two_pow_of_ge {n b : Nat} (hb : b < 2 ^ (n + 1)) (top : 2 ^ n ≤ b) : b ^^^ 2 ^ n = b - 2 ^ n := by
  rw [Nat.pow_succ] at hb
  obtain ⟨c, rfl⟩ := Nat.exists_eq_add_of_le' top
  rw [← xor_two_pow_of_lt (show c < 2 ^ n by omega), Nat.xor_assoc, Nat.xor_self, Nat.xor_zero,
    xor_two_pow_of_lt (by omega), Nat.add_sub_cancel]

/-- Half the range apart means that the top bit differs and no other. -/
theorem wrap_sub_eq_half_iff {n a b : Nat} (ha : a < 2 ^ (n + 1)) (hb : b < 2 ^ (n + 1)) :
    wrap (n + 1) ((a : Int) - b) = 2 ^ n ↔ a = b ^^^ 2 ^ n := by
  have range : 2 ^ (n + 1) = 2 * 2 ^ n := Nat.pow_succ'
  have distance : wrap (n + 1) ((a : Int) - b) = if b ≤ a then a - b else a + 2 * 2 ^ n - b :=
    ptrDist_eq { Config.reference with ringLog := n } (range ▸ ha) (range ▸ hb)
  rw [distance]
  rcases Nat.lt_or_ge b (2 ^ n) with clear | set
  · rw [xor_two_pow_of_lt clear]
    split_ifs <;> omega
  · rw [xor_two_pow_of_ge hb set]
    split_ifs <;> omega

/-- Settles O53: the code of an exclusive or is that of the codes, so both tests are about the bits in which two counts
differ. -/
theorem consecutiveCountsDifferInOneGrayBit : Obligations.ConsecutiveCountsDifferInOneGrayBit := by
  intro w b two hb
  refine ⟨gray_lt hb, ungray_gray hb, ?_, fun a ha => ?_⟩
  · obtain ⟨k, inside, differ⟩ := exists_xor_succ_mod (show 0 < w by omega) hb
    exact ⟨k, inside, by rw [← gray_xor, differ, gray_ones]⟩
  · obtain ⟨n, rfl⟩ := Nat.exists_eq_add_of_le' two
    have flipped : b ^^^ 2 ^ (n + 1) < 2 ^ (n + 2) :=
      Nat.xor_lt_two_pow hb (Nat.pow_lt_pow_right (by decide) (Nat.lt_succ_self _))
    have codes : gray b ^^^ 2 ^ (n + 1) ^^^ 2 ^ n = gray (b ^^^ 2 ^ (n + 1)) := by
      rw [gray_xor, gray_two_pow, Nat.xor_assoc]
    change wrap (n + 2) ((a : Int) - b) = 2 ^ (n + 1) ↔ gray a = gray b ^^^ 2 ^ (n + 1) ^^^ 2 ^ n
    rw [wrap_sub_eq_half_iff ha hb, codes, gray_inj ha flipped]

/-! ### Synchroniser steps that are not enabled (log 8) -/

/-- Settles O56: the test of each step fails. -/
theorem synchroniserStepsNotEnabledDoNotHappen : Obligations.SynchroniserStepsNotEnabledDoNotHappen := by
  intro s adv
  exact ⟨fun ahead => if_neg (Nat.not_le.mpr ahead), fun ahead => if_neg (Nat.not_le.mpr ahead)⟩

/-! ### The ring caught up (20_memory.md R51) -/

/-- Settles O59: with the copy up to date the two occupancies are one, and it is the queue's length. -/
theorem caughtUpRingIsTheAtomicQueue : Obligations.CaughtUpRingIsTheAtomicQueue := by
  intro s inv
  obtain ⟨length, push, -, drain, -⟩ := ringIsAFirstInFirstOutQueue s inv
  refine ⟨fun caughtUp l r => ?_, fun caughtUp h => ?_⟩
  · have seen : s.occSeen = (queue s).length := by rw [length, State.occSeen, caughtUp, State.occ]
    exact seen ▸ push l r
  · have seen : s.avail = (queue s).length := by rw [length, State.avail, caughtUp, State.occ]
    obtain ⟨t, next, taken, -⟩ := drain h
    obtain ⟨-, -, counted⟩ := onlyDrainMovesTheUnderrunCounter (.ringDrain h) s t next
    refine ⟨t, next, ?_, ?_⟩
    · rw [taken, seen, List.drop_eq_drop_iff]
      omega
    · rw [counted h rfl, seen]
      omega

/-! ### The ring filled (44_ring.md R207) -/

/-- A push where the producer sees room appends its frame. -/
theorem ringPush_room {s : State} (inv : Invariants s) (f : Frame) (room : s.occSeen ≠ s.cfg.ringN) :
    ∃ t, exec (.ringPush f.l f.r) s = .next t ∧ Invariants t ∧ t.cfg = s.cfg ∧ t.occSeen = s.occSeen + 1 ∧
      queue t = queue s ++ [f] := by
  have next := exec_ringPush f.l f.r s
  refine ⟨_, next, invariants_of_effect inv (exec_effect next), State.push_cfg s f, occSeen_push inv f room, ?_⟩
  rw [queue_respond, queue_push inv, if_neg room]

/-- Frames pushed where the producer sees room for all of them are appended in order. -/
theorem pushFrames_room (frames : List Frame) {s : State} (inv : Invariants s)
    (room : s.occSeen + frames.length ≤ s.cfg.ringN) :
    ∃ t, pushFrames frames s = .next t ∧ Invariants t ∧ t.cfg = s.cfg ∧ t.occSeen = s.occSeen + frames.length ∧
      queue t = queue s ++ frames := by
  induction frames generalizing s with
  | nil => exact ⟨s, rfl, inv, rfl, rfl, (List.append_nil _).symm⟩
  | cons f frames ih =>
    rw [List.length_cons] at room
    obtain ⟨u, next, invU, cfgU, seenU, heldU⟩ := ringPush_room inv f (by omega)
    obtain ⟨t, pushes, invT, cfg, seen, held⟩ := ih invU (by rw [cfgU, seenU]; omega)
    refine ⟨t, by simpa only [pushFrames, next] using pushes, invT, cfg.trans cfgU, ?_, ?_⟩
    · rw [seen, seenU, List.length_cons]
      omega
    · rw [held, heldU, List.append_assoc, List.singleton_append]

/-- Settles O60: a producer that sees an empty ring finds an empty queue; after RING_N frames it sees a full ring. -/
theorem oneFrameMoreThanCapacityIsDropped : Obligations.OneFrameMoreThanCapacityIsDropped := by
  intro s frames extra inv empty count
  obtain ⟨t, pushes, invT, cfg, seen, held⟩ := pushFrames_room frames inv (by omega)
  have nothing : queue s = [] := by
    have := inv.producerView.1
    exact List.eq_nil_of_length_eq_zero (by rw [queue_length inv]; omega)
  rw [nothing, List.nil_append] at held
  have full : t.occSeen = t.cfg.ringN := by rw [seen, cfg]; omega
  have dropped : t.push ⟨extra.l, extra.r⟩ = t := State.push_of_full t _ (decide_eq_true full)
  have answer := exec_ringPush extra.l extra.r t
  have status : (pushStatus t).code = 0x12 := by rw [pushStatus_code, if_pos full]
  rw [dropped] at answer
  refine ⟨t, _, pushes, answer, held, rfl, memorySame_respond .., by rw [queue_respond, held], ?_⟩
  rw [← status]
  exact responded_respond ..

end Sys2Proof.Machine
end
